-- ==== Sys2Proof/Word.lean ====
section
/-! DEFINITION. The three word sizes of the frame-decoder block (spec/00_scope.md R10: a byte is an
unsigned 8-bit value; lengths and counters are 16 bits; command and response words are 32 bits). -/

namespace Sys2Proof

/-- A byte: an unsigned integer 0 to 255 (R10). -/
abbrev Byte := BitVec 8

/-- A trailer nibble, 0 to 15 (R10). -/
abbrev Nibble := BitVec 4

/-- A 16-bit quantity: lengths, offsets, event counters, the `arg` and `value` fields (R21, R40, R91, R95). -/
abbrev Half := BitVec 16

/-- A command or response word (R91, R95). -/
abbrev Word := BitVec 32

end Sys2Proof
end

