-- ==== Sys2Proof/Config.lean ====
section
/-! DEFINITION. The configuration record `cfg` of spec/00_scope.md R6: what a deployment fixes at build
time, with the two named example configurations of R9, and the one free value of the model, the
contents of a payload byte that nothing has written since reset (R50; 93_implementation_defined.md V1). -/

namespace Sys2Proof

/-- `FRAMING` (R6): delimiter-only framing, or checksum framing. -/
inductive Framing where
  | delim
  | cksum
deriving DecidableEq, Repr

/-- `POLICY` (R6): the backpressure policy of 42_arbiter.md R154. -/
inductive Policy where
  | drop
  | overwrite
  | swap
deriving DecidableEq, Repr

/-- `OVF_RESYNC` (R6): what ends an overflowed attempt (41_decoder.md R125). -/
inductive OvfResync where
  | startOrBoundary
  | boundaryOnly
deriving DecidableEq, Repr

/-- `FOLD` (R6, R110): any total function byte × byte → byte, held as plain data. `xor` is the default;
`table` lists the 65536 results, the result for `(acc, input)` at position `256 * acc + input`, so that
every total function of two bytes is a value of this type (DESIGN CHOICE, log entry 3). -/
inductive Fold where
  | xor
  | table (results : List Byte)
deriving DecidableEq, Repr

/-- The configuration record `cfg` (R6). Its ranges are not built into the types: a record outside them
is a value of this type, and 00_scope.md R7 says that it is refused. -/
structure Config where
  /-- `CAP`: slot capacity in bytes. -/
  cap : Nat
  /-- `NSLOTS`: number of slots in the pool. -/
  nslots : Nat
  /-- `FRAMING`. -/
  framing : Framing
  /-- `START`: the start delimiter, in use only when `useStart`. -/
  startByte : Byte
  /-- `END`: the completion delimiter, in use only under `delim` framing. -/
  endByte : Byte
  /-- `INTRO`: the checksum introducer, in use only under `cksum` framing. -/
  introByte : Byte
  /-- `TRAILER_WIDTH`: hex characters in the trailer; only 2 is admitted (R7 (7)). -/
  trailerWidth : Nat
  /-- `POLICY`. -/
  policy : Policy
  /-- `USE_START`: whether frames open with `START`. -/
  useStart : Bool
  /-- `OVF_RESYNC`. -/
  ovfResync : OvfResync
  /-- `FOLD`. -/
  fold : Fold
  /-- `CK_INIT`: the value the running checksum is reset to. -/
  ckInit : Byte
  /-- `HEX_LOWER`: whether `a` to `f` are hex digits of the trailer. -/
  hexLower : Bool
  /-- `PAUSE_EN`: whether the block drives `pause_req`. -/
  pauseEn : Bool
deriving DecidableEq, Repr

/-- `CFG_A` of R9: delimiter framing, no start delimiter, completion byte `\n`, capacity 50, one slot,
`DROP`. `START` and `INTRO` are unused; they stand here as 0x00 and no rule reads them (DESIGN CHOICE,
log entry 2). -/
def Config.cfgA : Config where
  cap := 50
  nslots := 1
  framing := .delim
  startByte := 0x00#8
  endByte := 0x0A#8
  introByte := 0x00#8
  trailerWidth := 2
  policy := .drop
  useStart := false
  ovfResync := .startOrBoundary
  fold := .xor
  ckInit := 0x00#8
  hexLower := false
  pauseEn := false

/-- `CFG_B` of R9: checksum framing with `$` and `*`, capacity 50, one slot, `DROP`. `END` is unused; it
stands here as 0x00 and no rule reads it (DESIGN CHOICE, log entry 2). -/
def Config.cfgB : Config where
  cap := 50
  nslots := 1
  framing := .cksum
  startByte := 0x24#8
  endByte := 0x00#8
  introByte := 0x2A#8
  trailerWidth := 2
  policy := .drop
  useStart := true
  ovfResync := .startOrBoundary
  fold := .xor
  ckInit := 0x00#8
  hexLower := false
  pauseEn := false

/-- FREE VALUE. What the payload byte at (slot index, offset) holds while nothing has written it since
reset: the spec says 'unspecified' and 'any value' (10_state.md R50, 93_implementation_defined.md V1).
Nothing constrains it (DESIGN CHOICE, log entry 5). -/
opaque Config.payloadAtReset : Nat → Nat → Byte

end Sys2Proof
end

