-- ==== Sys2Proof/Syntax.lean ====
section
/-! DEFINITION. The abstract syntax: the six commands of spec/opcode_table.json (30_encoding.md R92), the
two ports they arrive on (R90), and what the outside can present to the block between two steps. -/

namespace Sys2Proof

/-- The two command ports (R90), which are also the two contexts (60_exceptions.md R201): `p` is the
producer's (interrupt context), `c` the consumer's (main context). -/
inductive Port where
  | p
  | c
deriving DecidableEq, Repr

/-- The commands, one constructor per row of the opcode table (R92). Operands are unsigned and used as
they stand (R93). -/
inductive Instr where
  /-- `NOP`: do nothing (43_consumer_port.md R174). -/
  | nop
  /-- `BYTE b`: deliver one received byte to the decoder (41_decoder.md R120). -/
  | byte (b : Byte)
  /-- `TAKE`: take the oldest ready frame, if any (42_arbiter.md R160). -/
  | take
  /-- `READ off`: read one payload byte of the held slot (43_consumer_port.md R170). -/
  | read (off : Half)
  /-- `RELEASE`: give the held slot back (42_arbiter.md R162). -/
  | release
  /-- `STAT sel`: read one status register (43_consumer_port.md R171). -/
  | stat (sel : BitVec 4)
deriving DecidableEq, Repr

/-- One thing the outside presents to the block (R90): a command word on one port, two command words on
both ports in the same instant (60_exceptions.md R194), or the reset input (70_reset_and_hazards.md R215). -/
inductive Input where
  | cmd (port : Port) (w : Word)
  | both (wp wc : Word)
  | rst
deriving DecidableEq, Repr

end Sys2Proof
end

