-- ==== Sys2Proof/Machine/Operands.lean ====
section
/-! DEFINITION. The pure functions over bytes and the configuration: the checksum accumulator and the hex
trailer (spec/40_checksum.md), the byte classes and the wire formats (30_encoding.md section 1), the
constraints on a configuration (00_scope.md R7), and the operand rules of a command (30_encoding.md R92). -/

namespace Sys2Proof.Machine

/-! ## Checksum accumulator (40_checksum.md) -/

/-- `FOLD(acc, input)` (R110) of the configured fold. -/
def fold (f : Fold) (acc input : Byte) : Byte :=
  match f with
  | .xor => acc ^^^ input
  | .table results => results.getD (acc.toNat * 256 + input.toNat) 0#8

/-- `CKSUM(p)` (R111): the fold over a byte sequence from `CK_INIT`. -/
def cksum (c : Config) (bytes : List Byte) : Byte :=
  bytes.foldl (fold c.fold) c.ckInit

/-- `HEXVAL(b)` (R112): the nibble a trailer character stands for; `none` is `invalid`. -/
def hexVal (hexLower : Bool) (b : Byte) : Option Nibble :=
  if 0x30 ≤ b.toNat ∧ b.toNat ≤ 0x39 then some (BitVec.ofNat 4 (b.toNat - 0x30))
  else if 0x41 ≤ b.toNat ∧ b.toNat ≤ 0x46 then some (BitVec.ofNat 4 (b.toNat - 0x37))
  else if hexLower = true ∧ 0x61 ≤ b.toNat ∧ b.toNat ≤ 0x66 then some (BitVec.ofNat 4 (b.toNat - 0x57))
  else none

/-- `HEXENC(n)` (R113): the upper-case trailer character for a nibble. -/
def hexEnc (n : Nibble) : Byte :=
  if n.toNat ≤ 9 then BitVec.ofNat 8 (0x30 + n.toNat) else BitVec.ofNat 8 (0x37 + n.toNat)

/-- The received checksum after the first trailer digit (R114): the digit as the high nibble. -/
def rxHigh (n : Nibble) : Byte := n.setWidth 8 <<< 4

/-- The received checksum after the second trailer digit (R114): the low nibble combined by `or`. -/
def rxLow (rx : Byte) (n : Nibble) : Byte := rx ||| n.setWidth 8

/-! ## Byte classes (30_encoding.md R83) -/

/-- `isSTART(b)` (R83). -/
def isStart (c : Config) (b : Byte) : Bool := c.useStart && (b == c.startByte)

/-- The byte that ends a payload under the configured framing (R18): `END` or `INTRO`. -/
def boundaryByte (c : Config) : Byte :=
  match c.framing with
  | .delim => c.endByte
  | .cksum => c.introByte

/-- `isBOUNDARY(b)` (R83). -/
def isBoundary (c : Config) (b : Byte) : Bool := b == boundaryByte c

/-- `isHEX(b)` (R83). -/
def isHex (c : Config) (b : Byte) : Bool := (hexVal c.hexLower b).isSome

/-- The class 'payload byte' (R83, R18): none of the delimiters in use. -/
def isPayload (c : Config) (b : Byte) : Bool := !isStart c b && !isBoundary c b

/-! ## Wire formats (30_encoding.md R80 to R82) -/

/-- The two trailer characters a writer sends for a checksum byte (R81, R113): high nibble first. -/
def trailer (ck : Byte) : List Byte :=
  [hexEnc (ck.extractLsb' 4 4), hexEnc (ck.extractLsb' 0 4)]

/-- The bytes of a frame on the wire with the given payload (R80 under `delim`, R81 under `cksum`). -/
def wireFrame (c : Config) (payload : List Byte) : List Byte :=
  match c.framing with
  | .delim => (if c.useStart then [c.startByte] else []) ++ payload ++ [c.endByte]
  | .cksum => [c.startByte] ++ payload ++ [c.introByte] ++ trailer (cksum c payload)

/-- Whether a payload can stand in a well-formed frame (R82): no delimiter in use inside it, and at most
`CAP` bytes. -/
def payloadOk (c : Config) (payload : List Byte) : Bool :=
  payload.all (isPayload c) && decide (payload.length ≤ c.cap)

/-! ## Well-formed configurations (00_scope.md R7), one check per numbered clause -/

/-- R7 (1): `1 ≤ CAP ≤ 65535`. -/
def capOk (c : Config) : Bool := decide (1 ≤ c.cap) && decide (c.cap ≤ 65535)

/-- R7 (2): `NSLOTS ∈ {1, 2}`. -/
def nslotsOk (c : Config) : Bool := c.nslots == 1 || c.nslots == 2

/-- R7 (3): `POLICY = SWAP` implies `NSLOTS = 2`. -/
def policyOk (c : Config) : Bool :=
  match c.policy with
  | .swap => c.nslots == 2
  | .drop => true
  | .overwrite => true

/-- R7 (4): `FRAMING = CKSUM` implies `USE_START`. -/
def framingOk (c : Config) : Bool :=
  match c.framing with
  | .delim => true
  | .cksum => c.useStart

/-- R7 (5): the delimiter bytes in use are pairwise different. `START` is in use when `USE_START`, and
exactly one of `END` and `INTRO` is in use, the boundary byte of the framing. -/
def delimitersOk (c : Config) : Bool := !(c.useStart && (c.startByte == boundaryByte c))

/-- R7 (6): under `CKSUM`, `START` is no hex digit. -/
def startNotHexOk (c : Config) : Bool :=
  match c.framing with
  | .delim => true
  | .cksum => !isHex c c.startByte

/-- R7 (7): `TRAILER_WIDTH = 2`. -/
def trailerOk (c : Config) : Bool := c.trailerWidth == 2

/-- R6, R110: `FOLD` is total; a `table` lists a result for each of the 65536 operand pairs
(DESIGN CHOICE, log entry 3). -/
def foldOk (c : Config) : Bool :=
  match c.fold with
  | .xor => true
  | .table results => results.length == 65536

/-- A well-formed configuration (R7). -/
def cfgOk (c : Config) : Bool :=
  capOk c && nslotsOk c && policyOk c && framingOk c && delimitersOk c && startNotHexOk c
    && trailerOk c && foldOk c

/-! ## Operands of a command (30_encoding.md R92, 43_consumer_port.md R172) -/

/-- Whether a `STAT` selector is defined (R172: 7 and 15 are not). -/
def selectorDefined (sel : BitVec 4) : Bool := sel != 7#4 && sel != 15#4

/-- Whether a `STAT` selector is answered on port P only (R172, R173: the decoder registers 0 to 3). -/
def selectorProducerOnly (sel : BitVec 4) : Bool := decide (sel.toNat < 4)

/-- Whether a command is legal on a port, by R92's column 'legal on port' (a `STAT` selector's own rights
are R173's). -/
def legalOn (i : Instr) (port : Port) : Bool :=
  match i with
  | .nop => true
  | .byte _ => port == .p
  | .take => port == .c
  | .read _ => port == .c
  | .release => port == .c
  | .stat _ => true

end Sys2Proof.Machine
end

