-- ==== Sys2Proof/Machine/State.lean ====
section
/-! DEFINITION. The state of the block as plain data: the decoder registers, the slots with their payload
memories, the arbiter registers and the event counters of spec/10_state.md, with the model's own fields
(the configuration, the pending inputs, the port of the command in progress and the last response), and
the state after reset (R50). -/

namespace Sys2Proof.Machine

/-- `dec.phase` (10_state.md R22). -/
inductive Phase where
  | waitStart
  | waitData
  | waitChecksumHi
  | waitChecksumLo
deriving DecidableEq, Repr

/-- `slot[i].state` (R31). Code 3 is unreachable and left out of the type, as R31 allows
(log entry 4). -/
inductive SlotState where
  | free
  | filling
  | ready
deriving DecidableEq, Repr

/-- A slot index, 0 or 1 (R30, R35). -/
inductive SlotIdx where
  | zero
  | one
deriving DecidableEq, Repr

/-- A payload memory (20_memory.md R60): the bytes written since reset, as (offset, byte) pairs with
strictly rising offsets. An offset that is not listed has not been written since reset. -/
abbrev Memory := List Host.Cell

/-- The decoder registers (10_state.md R20, R21). -/
structure Dec where
  /-- `dec.phase`, 2 bits (R22). -/
  phase : Phase
  /-- `dec.len`, 16 bits (R23). -/
  len : Half
  /-- `dec.ck`, 8 bits (R24). -/
  ck : Byte
  /-- `dec.rx`, 8 bits (R25). -/
  rx : Byte
  /-- `dec.ovf`, 1 bit (R26). -/
  ovf : Bool
  /-- `dec.noslot`, 1 bit (R27). -/
  noslot : Bool
deriving DecidableEq, Repr

/-- A slot (R30). -/
structure Slot where
  /-- `slot[i].state`, 2 bits (R31). -/
  state : SlotState
  /-- `slot[i].length`, 16 bits (R33). -/
  length : Half
  /-- the payload memory of the slot, `CAP` bytes (20_memory.md R60). -/
  mem : Memory
deriving DecidableEq, Repr

/-- The arbiter registers (R35). -/
structure Arb where
  /-- `arb.held`, 1 valid bit and 1 index bit (R36). -/
  held : Option SlotIdx
  /-- `arb.older`, 1 bit (R37). -/
  older : SlotIdx
deriving DecidableEq, Repr

/-- The event counters, 16 bits each, saturating (R40, R41). -/
structure Cnt where
  /-- `cnt.ovf`: attempts that overflowed. -/
  ovf : Half
  /-- `cnt.drop`: frames lost to backpressure. -/
  drop : Half
  /-- `cnt.ckerr`: checksum mismatches. -/
  ckerr : Half
  /-- `cnt.malf`: malformed trailers. -/
  malf : Half
deriving DecidableEq, Repr

/-- A response word and the port it is given on (30_encoding.md R90, R95). -/
structure Response where
  port : Port
  word : Word
deriving DecidableEq, Repr

/-- The state of the machine. `dec` to `cnt` are the spec's state (00_scope.md R14, 10_state.md). `cfg`,
`input`, `port` and `rsp` are the model's own: the parameter, the inputs and the output of R14, held here
because a step is a function of the state alone (DESIGN CHOICE, log entries 2, 6, 7 and 8). -/
structure State where
  /-- `cfg`: fixed, changed by no command and not by reset (R6, R8, R216). -/
  cfg : Config
  /-- the decoder registers. -/
  dec : Dec
  /-- slot 0. -/
  slot0 : Slot
  /-- slot 1; it exists only when `NSLOTS = 2`, and no rule reads or writes it otherwise (DESIGN CHOICE, log
  entry 4). -/
  slot1 : Slot
  /-- the arbiter registers. -/
  arb : Arb
  /-- the event counters. -/
  cnt : Cnt
  /-- what the outside presents, in the one total order of R12; the first entry is next. -/
  input : List Input
  /-- the port on which the command in progress (or the last one) arrived (60_exceptions.md R201). -/
  port : Port
  /-- the response of the last command; `none` when none was given since reset. -/
  rsp : Option Response
deriving DecidableEq, Repr

/-- Why the machine stops with a fault. The block itself has none (60_exceptions.md R185). -/
inductive Fault where
  /-- Raised by a payload read at a location that does not exist (20_memory.md R60): a slot index not
  below `NSLOTS`, or an offset not below `CAP`. That takes a value of `arb.held` or of a `length` register
  outside the values the spec lists for it (10_state.md R30, R35), so no state of the block raises it. Safe:
  the model stops where the spec gives no byte (DESIGN CHOICE, log entry 10). -/
  | payloadLocation (slot : SlotIdx) (offset : Nat)
deriving DecidableEq, Repr

/-- Why the machine refuses to go on. -/
inductive Refusal where
  /-- Raised by `exec`'s arm of an instruction that has no meaning in the model; no arm raises it. Safe. -/
  | notModelled (mnemonic : String)
  /-- Raised by `step` when `cfg` is not well formed: 'a configuration that is not well formed has no
  meaning and a model must refuse it (no reset state, no step)' (00_scope.md R7). Safe (log entry 13). -/
  | configNotWellFormed
deriving DecidableEq, Repr

/-- A slot at reset (10_state.md R50): `length` 0, and no byte of the payload memory written. -/
def Slot.atReset (state : SlotState) : Slot where
  state := state
  length := 0x0000#16
  mem := []

/-- The decoder registers at reset (R50): those of the idle phase (41_decoder.md R121). -/
def Dec.atReset (c : Config) : Dec where
  phase := if c.useStart then .waitStart else .waitData
  len := 0x0000#16
  ck := c.ckInit
  rx := 0x00#8
  ovf := false
  noslot := false

/-- The arbiter registers at reset (R50). -/
def Arb.atReset : Arb where
  held := none
  older := .zero

/-- The event counters at reset (R50). -/
def Cnt.atReset : Cnt where
  ovf := 0x0000#16
  drop := 0x0000#16
  ckerr := 0x0000#16
  malf := 0x0000#16

/-- Reset: 'the function from a well-formed `cfg` to the initial state' (70_reset_and_hazards.md R215; the
values are those of R50). A configuration that is not well formed has no reset state (00_scope.md R7). -/
def State.resetOf (c : Config) : Option State :=
  if cfgOk c then
    some
      { cfg := c
        dec := Dec.atReset c
        slot0 := Slot.atReset .filling
        slot1 := Slot.atReset .free
        arb := Arb.atReset
        cnt := Cnt.atReset
        input := []
        port := .p
        rsp := none }
  else none

/-- The machine right after reset. The spec fixes no configuration; the model's one machine is built with
`CFG_A` (DESIGN CHOICE, log entry 2), and every statement is about every configuration. -/
def State.reset : State := (State.resetOf Config.cfgA).get (by decide)

end Sys2Proof.Machine
end

