-- ==== Sys2Proof/Machine/Flags.lean ====
section
/-! DEFINITION. Codes and computed bits: the numeric codes of the enumerations (spec/30_encoding.md R96,
R97, R99), the fields of a `BYTE` response (R97), the saturating increment (00_scope.md R11), and the two
output signals (60_exceptions.md R199, R200). -/

namespace Sys2Proof.Machine

/-! ## Codes (R96, R99) -/

/-- The status of a response (R96). -/
inductive Status where
  | ok
  | empty
  | errNoheld
  | errRange
  | errContext
  | errIllegal
deriving DecidableEq, Repr

/-- Status codes (R96). -/
def statusCode (st : Status) : BitVec 4 :=
  match st with
  | .ok => 0x0#4
  | .empty => 0x1#4
  | .errNoheld => 0x2#4
  | .errRange => 0x3#4
  | .errContext => 0x4#4
  | .errIllegal => 0x5#4

/-- The response word `status ‖ 0x000 ‖ value` of format `RSP32` (R95). -/
def rspWord (st : Status) (value : Half) : Word := statusCode st ++ 0x000#12 ++ value

/-- Phase codes (R99). -/
def phaseCode (ph : Phase) : BitVec 2 :=
  match ph with
  | .waitStart => 0#2
  | .waitData => 1#2
  | .waitChecksumHi => 2#2
  | .waitChecksumLo => 3#2

/-- Slot state codes (R99). -/
def slotStateCode (st : SlotState) : BitVec 2 :=
  match st with
  | .free => 0#2
  | .filling => 1#2
  | .ready => 2#2

/-- A slot index as one bit (R35, R172). -/
def idxBit (i : SlotIdx) : BitVec 1 :=
  match i with
  | .zero => 0#1
  | .one => 1#1

/-- A slot index as a number. -/
def idxNat (i : SlotIdx) : Nat := (idxBit i).toNat

/-- `FRAMING` code (R99). -/
def framingCode (f : Framing) : BitVec 1 :=
  match f with
  | .delim => 0#1
  | .cksum => 1#1

/-- `POLICY` code (R99). -/
def policyCode (p : Policy) : BitVec 2 :=
  match p with
  | .drop => 0#2
  | .overwrite => 1#2
  | .swap => 2#2

/-- `OVF_RESYNC` code (R99). -/
def ovfResyncCode (o : OvfResync) : BitVec 1 :=
  match o with
  | .startOrBoundary => 0#1
  | .boundaryOnly => 1#1

/-! ## The result fields of a BYTE step (R97) -/

/-- `outcome` (R97, 41_decoder.md R133). -/
inductive ByteOutcome where
  | none
  | complete
  | resync
  | overflow
deriving DecidableEq, Repr

/-- `pub` (R97). -/
inductive Pub where
  | nopub
  | published
  | dropped
deriving DecidableEq, Repr

/-- The temporaries `out`, `pub` and `lost_old` of one `BYTE` step (41_decoder.md). They are no state
(10_state.md R28). -/
structure Report where
  outcome : ByteOutcome
  pub : Pub
  lostOld : Bool
deriving DecidableEq, Repr

/-- `outcome` codes (R97). -/
def outcomeCode (o : ByteOutcome) : BitVec 2 :=
  match o with
  | .none => 0#2
  | .complete => 1#2
  | .resync => 2#2
  | .overflow => 3#2

/-- `pub` codes (R97). -/
def pubCode (p : Pub) : BitVec 2 :=
  match p with
  | .nopub => 0#2
  | .published => 1#2
  | .dropped => 2#2

/-- The value of a `BYTE` response, `out | (pub << 2) | (lost_old << 4)` (R97, R120). -/
def reportValue (r : Report) : Half :=
  0#11 ++ BitVec.ofBool r.lostOld ++ pubCode r.pub ++ outcomeCode r.outcome

/-- A report of an outcome with nothing published or lost. -/
def Report.only (o : ByteOutcome) : Report where
  outcome := o
  pub := .nopub
  lostOld := false

/-! ## Counters (10_state.md R40) -/

/-- `sat16(x + 1)` (00_scope.md R11): the saturating increment of an event counter. -/
def satInc (x : Half) : Half := if x = 0xFFFF#16 then 0xFFFF#16 else x + 1#16

/-! ## Which slots are in which state (R34), and the two outputs -/

/-- Slot `i` of the state. -/
def slotAt (s : State) (i : SlotIdx) : Slot :=
  match i with
  | .zero => s.slot0
  | .one => s.slot1

/-- Whether slot `i` is in the pool: slot 1 only when `NSLOTS = 2` (R30). -/
def hasSlot (c : Config) (i : SlotIdx) : Bool :=
  match i with
  | .zero => true
  | .one => c.nslots == 2

/-- Whether slot `i` is in the pool and in state `st`. -/
def slotIs (s : State) (i : SlotIdx) (st : SlotState) : Bool :=
  hasSlot s.cfg i && (slotAt s i).state == st

/-- `FILLIDX()` (R34). -/
def fillIdx (s : State) : Option SlotIdx :=
  if slotIs s .zero .filling then some .zero
  else if slotIs s .one .filling then some .one
  else none

/-- `READYSET()` (R34), lowest index first. -/
def readySet (s : State) : List SlotIdx :=
  [SlotIdx.zero, SlotIdx.one].filter fun i => slotIs s i .ready

/-- `OTHER(i)` (R34): the other slot when there are two. -/
def otherSlot (c : Config) (i : SlotIdx) : Option SlotIdx :=
  match i with
  | .zero => if c.nslots = 2 then some .one else none
  | .one => if c.nslots = 2 then some .zero else none

/-- Output `ready` (60_exceptions.md R199): some slot is `Ready`. -/
def readyOut (s : State) : Bool := slotIs s .zero .ready || slotIs s .one .ready

/-- Every slot of the pool is `Ready`. -/
def allReady (s : State) : Bool :=
  slotIs s .zero .ready && (!hasSlot s.cfg .one || slotIs s .one .ready)

/-- Output `pause_req` (R200): enabled, and every slot is `Ready`. -/
def pauseReqOut (s : State) : Bool := s.cfg.pauseEn && allReady s

end Sys2Proof.Machine
end

