-- ==== Sys2Proof/Machine/Memory.lean ====
section
/-! DEFINITION. The payload memory of a slot (spec/20_memory.md R60 to R64): reading and writing one byte
at an offset, and the canonical form of the list that holds the written bytes. -/

namespace Sys2Proof.Machine

/-- The byte written at an offset since reset, if any. -/
def Memory.read (m : Memory) (off : Nat) : Option Byte :=
  match m with
  | [] => none
  | (a, v) :: rest => if off = a then some v else Memory.read rest off

/-- `MemWrite` at an offset (R11, R60): replaces the byte and keeps the offsets strictly rising. -/
def Memory.write (m : Memory) (off : Nat) (v : Byte) : Memory :=
  match m with
  | [] => [(off, v)]
  | (a, w) :: rest =>
    if off < a then (off, v) :: (a, w) :: rest
    else if off = a then (off, v) :: rest
    else (a, w) :: Memory.write rest off v

/-- The canonical form: offsets strictly rising. An unlisted offset has no value of its own, so no entry
can equal it, and equal memories are equal lists (DESIGN CHOICE, log entry 5). -/
abbrev Memory.wf (m : Memory) : Prop := List.Pairwise (fun x y => x.1 < y.1) m

/-- Every listed offset is below `CAP` (R60). -/
abbrev Memory.below (m : Memory) (cap : Nat) : Prop := ∀ x ∈ m, x.1 < cap

/-- Offsets 0 to `n - 1` have all been written since reset (R64). -/
abbrev Memory.written (m : Memory) (n : Nat) : Prop := ∀ k < n, (Memory.read m k).isSome = true

end Sys2Proof.Machine
end

