-- ==== Sys2Proof/Machine/Ops.lean ====
section
/-! DEFINITION. The named operations over the registers, the slots and the payload memories that every
meaning uses: slot and counter updates, `MemRead` and `MemWrite` (spec/00_scope.md R11), the response of a
command (30_encoding.md R95), a refused command (60_exceptions.md R192), and the resynchronisation that
stands in the place of trap entry and return (60_exceptions.md R195, R196; 41_decoder.md R121, R123). -/

namespace Sys2Proof.Machine

/-! ## Slots -/

/-- The state with slot `i` replaced. -/
def setSlot (s : State) (i : SlotIdx) (x : Slot) : State :=
  match i with
  | .zero => { s with slot0 := x }
  | .one => { s with slot1 := x }

/-- `slot[i].state <- st` (R11). -/
def setSlotState (s : State) (i : SlotIdx) (st : SlotState) : State :=
  setSlot s i { slotAt s i with state := st }

/-- `slot[i].length <- n` (R11). -/
def setSlotLength (s : State) (i : SlotIdx) (n : Half) : State :=
  setSlot s i { slotAt s i with length := n }

/-! ## Payload memory (20_memory.md R60) -/

/-- What one byte of payload memory reads as: the byte written there since reset, or the free value. -/
def payloadByte (s : State) (i : SlotIdx) (off : Nat) : Byte :=
  match Memory.read (slotAt s i).mem off with
  | some v => v
  | none => Config.payloadAtReset (idxNat i) off

/-- `MemWrite(i, off, 1, v)`. -/
def memWrite (s : State) (i : SlotIdx) (off : Nat) (v : Byte) : State :=
  setSlot s i { slotAt s i with mem := Memory.write (slotAt s i).mem off v }

/-- `MemRead(i, off, 1)`: `none` where the location does not exist. -/
def memRead (s : State) (i : SlotIdx) (off : Nat) : Option Byte :=
  if hasSlot s.cfg i = true ∧ off < s.cfg.cap then some (payloadByte s i off) else none

/-! ## Event counters (10_state.md R40, R41) -/

/-- `cnt.ovf <- sat16(cnt.ovf + 1)`. -/
def countOvf (s : State) : State := { s with cnt := { s.cnt with ovf := satInc s.cnt.ovf } }

/-- `cnt.drop <- sat16(cnt.drop + 1)`. -/
def countDrop (s : State) : State := { s with cnt := { s.cnt with drop := satInc s.cnt.drop } }

/-- `cnt.ckerr <- sat16(cnt.ckerr + 1)`. -/
def countCkerr (s : State) : State := { s with cnt := { s.cnt with ckerr := satInc s.cnt.ckerr } }

/-- `cnt.malf <- sat16(cnt.malf + 1)`. -/
def countMalf (s : State) : State := { s with cnt := { s.cnt with malf := satInc s.cnt.malf } }

/-! ## Responses -/

/-- `respond(st, v)` (R11, R95): the one response of the command, on the port it came on. -/
def respond (s : State) (st : Status) (v : Half) : State :=
  { s with rsp := some { port := s.port, word := rspWord st v } }

/-- A refused command (60_exceptions.md R192): it leaves the whole state unchanged and responds with the
error status and value 0. -/
def commandError (s : State) (st : Status) : Host.Outcome State Fault Refusal :=
  .next (respond s st 0x0000#16)

/-- The port check of R94: run the meaning on its own port, answer `ERR_CONTEXT` on the other. -/
def onPort (port : Port) (s : State) (meaning : Host.Outcome State Fault Refusal) :
    Host.Outcome State Fault Refusal :=
  if s.port = port then meaning else commandError s .errContext

/-- An illegal command word (R94): `ERR_ILLEGAL`, no state changed. -/
def illegalCommand (s : State) : Host.Outcome State Fault Refusal := commandError s .errIllegal

/-! ## Resynchronisation: what this block has in the place of trap entry and trap return -/

/-- The idle phase (41_decoder.md R121). -/
def idlePhase (c : Config) : Phase := if c.useStart then .waitStart else .waitData

/-- The decoder registers cleared for a new attempt, in the given phase (R121, R123). -/
def clearedDec (c : Config) (ph : Phase) : Dec where
  phase := ph
  len := 0x0000#16
  ck := c.ckInit
  rx := 0x00#8
  ovf := false
  noslot := false

/-- `GO_IDLE()` (R121): end the attempt and return to the idle phase. No slot is touched. -/
def goIdle (s : State) : State := { s with dec := clearedDec s.cfg (idlePhase s.cfg) }

/-- `BEGIN_ATTEMPT()` (R123): start assembling a new frame. No slot is touched. -/
def beginAttempt (s : State) : State := { s with dec := clearedDec s.cfg .waitData }

end Sys2Proof.Machine
end

