-- ==== Sys2Proof/Machine/Consumer.lean ====
section
/-! DEFINITION. The consumer's commands on port C: `TAKE` and `RELEASE` (spec/42_arbiter.md section 2)
and `READ` (43_consumer_port.md R170). -/

namespace Sys2Proof.Machine

/-- `arb.held <- h` (10_state.md R36). -/
def setHeld (s : State) (h : Option SlotIdx) : State := { s with arb := { s.arb with held := h } }

/-- `TAKE` of slot `r` (R160): hold it and answer its length. -/
def takeSlot (s : State) (r : SlotIdx) : State := respond (setHeld s (some r)) .ok (slotAt s r).length

/-- `TAKE` (R160) when no slot is held: the only `Ready` slot, the older of two, or `EMPTY`. -/
def takeReady (s : State) : State :=
  match readySet s with
  | [] => respond s .empty 0x0000#16
  | [r] => takeSlot s r
  | _ :: _ :: _ => takeSlot s s.arb.older

/-- The effect of `TAKE` (R160): a second `TAKE` answers the same view again. -/
def takeStep (s : State) : State :=
  match s.arb.held with
  | some h => respond s .ok (slotAt s h).length
  | none => takeReady s

/-- `TAKE` (R160), port C only. -/
def execTake (s : State) : Host.Outcome State Fault Refusal := onPort .c s (.next (takeStep s))

/-- `READ off` of the held slot `h` (R170): the range check, then one byte, zero-extended. -/
def readHeld (s : State) (h : SlotIdx) (off : Half) : Host.Outcome State Fault Refusal :=
  if (slotAt s h).length ≤ off then commandError s .errRange
  else
    match memRead s h off.toNat with
    | some v => .next (respond s .ok (v.setWidth 16))
    | none => .fault (.payloadLocation h off.toNat)

/-- `READ off` (R170), port C only. -/
def execRead (off : Half) (s : State) : Host.Outcome State Fault Refusal :=
  onPort .c s
    (match s.arb.held with
     | none => commandError s .errNoheld
     | some h => readHeld s h off)

/-- `RELEASE` of the held slot `h` (R162): `Ready → Free`, and nothing held. -/
def releaseSlot (s : State) (h : SlotIdx) : State :=
  respond (setHeld (setSlotState s h .free) none) .ok 0x0000#16

/-- `RELEASE` (R162), port C only. -/
def execRelease (s : State) : Host.Outcome State Fault Refusal :=
  onPort .c s
    (match s.arb.held with
     | none => commandError s .errNoheld
     | some h => .next (releaseSlot s h))

end Sys2Proof.Machine
end

