-- ==== Sys2Proof/Machine/Arbiter.lean ====
section
/-! DEFINITION. The producer side of the handoff arbiter (spec/42_arbiter.md section 1): the internal
operations `ENSURE_FILL`, `RECLAIM`, `ACQUIRE_FOR_FILL` and `PUBLISH` that a `BYTE` step performs. -/

namespace Sys2Proof.Machine

/-- What `ACQUIRE_FOR_FILL` and `RECLAIM` give: the state, the slot (or none), and whether an unconsumed
frame was lost (`lost_old`). -/
structure Grant where
  st : State
  slot : Option SlotIdx
  lostOld : Bool
deriving DecidableEq, Repr

/-- What `PUBLISH` gives: the state, `pub` and `lost_old`. -/
structure Publication where
  st : State
  pub : Pub
  lostOld : Bool
deriving DecidableEq, Repr

/-- `ENSURE_FILL()` (R150): when no slot is `Filling`, the lowest-numbered `Free` slot becomes it. -/
def ensureFill (s : State) : State :=
  match fillIdx s with
  | some _ => s
  | none =>
    if slotIs s .zero .free then setSlotState s .zero .filling
    else if slotIs s .one .free then setSlotState s .one .filling
    else s

/-- The slots `RECLAIM` may take back (R153): `Ready` and not held. -/
def reclaimable (s : State) : List SlotIdx :=
  (readySet s).filter fun i => s.arb.held != some i

/-- Take slot `r` back for the new frame (R153): `Ready → Free → Filling`, the old frame lost whole. -/
def takeBack (s : State) (r : SlotIdx) : Grant where
  st := setSlotState (countDrop (setSlotState s r .free)) r .filling
  slot := some r
  lostOld := true

/-- `RECLAIM()` (R153). -/
def reclaim (s : State) : Grant :=
  match reclaimable s with
  | [] => { st := s, slot := none, lostOld := false }
  | [r] => takeBack s r
  | _ :: _ :: _ => takeBack s s.arb.older

/-- `ACQUIRE_FOR_FILL()` (R152). -/
def acquireForFill (s : State) : Grant :=
  match fillIdx s with
  | some f => { st := s, slot := some f, lostOld := false }
  | none =>
    if s.cfg.policy = .overwrite then reclaim s else { st := s, slot := none, lostOld := false }

/-- The other slot, when it is `Ready` (the `o` of R156). -/
def otherReady (s : State) (f : SlotIdx) : Option SlotIdx :=
  match otherSlot s.cfg f with
  | some o => if slotIs s o .ready then some o else none
  | none => none

/-- The writes that make a frame `Ready`: the length, then the state (R156, 20_memory.md R70). -/
def markReady (s : State) (f : SlotIdx) (n : Half) : State :=
  setSlotState (setSlotLength s f n) f .ready

/-- `arb.older <- o` (R37, R156). -/
def setOlder (s : State) (o : SlotIdx) : State := { s with arb := { s.arb with older := o } }

/-- The branches of `PUBLISH(f, n)` (R156), before its final `ENSURE_FILL()`. -/
def publishBranch (s : State) (f : SlotIdx) (n : Half) : Publication :=
  match otherReady s f with
  | none => { st := markReady s f n, pub := .published, lostOld := false }
  | some o =>
    if s.cfg.policy = .swap then
      { st := markReady (setOlder s o) f n, pub := .published, lostOld := false }
    else if s.cfg.policy = .overwrite ∧ s.arb.held ≠ some o then
      { st := markReady (countDrop (setSlotState s o .free)) f n, pub := .published, lostOld := true }
    else { st := countDrop s, pub := .dropped, lostOld := false }

/-- `PUBLISH(f, n)` (R156). -/
def publish (s : State) (f : SlotIdx) (n : Half) : Publication :=
  { publishBranch s f n with st := ensureFill (publishBranch s f n).st }

end Sys2Proof.Machine
end

