-- ==== Sys2Proof/Machine/Decoder.lean ====
section
/-! DEFINITION. The frame decoder (spec/41_decoder.md): `APPEND`, `COMPLETE`, the four phases, and the
command `BYTE`. Each function of a phase gives the state after the byte and the report of R97. -/

namespace Sys2Proof.Machine

/-- What a `BYTE` step has done: the state, and the temporaries `out`, `pub`, `lost_old` (R120). -/
structure ByteStep where
  st : State
  rep : Report
deriving DecidableEq, Repr

/-- `dec.len <- dec.len + 1; dec.ck <- FOLD(dec.ck, b)` (R126), with the given `dec.noslot`. -/
def acceptByte (s : State) (b : Byte) (noslot : Bool) : State :=
  { s with dec := { s.dec with len := s.dec.len + 1#16
                               ck := fold s.cfg.fold s.dec.ck b
                               noslot := noslot } }

/-- The accepting branch of `APPEND(b)` (R126): store the byte if there is a slot, then count and fold. -/
def storeByte (s : State) (b : Byte) : ByteStep :=
  if s.dec.noslot then { st := acceptByte s b true, rep := Report.only .none }
  else
    match (acquireForFill s).slot with
    | none => { st := acceptByte (acquireForFill s).st b true, rep := Report.only .none }
    | some f =>
      { st := acceptByte (memWrite (acquireForFill s).st f s.dec.len.toNat b) b false
        rep := { outcome := .none, pub := .nopub, lostOld := (acquireForFill s).lostOld } }

/-- The byte that finds the slot full (R126): `dec.ovf <- 1`, counted, the byte discarded. -/
def markOverflow (s : State) : State := countOvf { s with dec := { s.dec with ovf := true } }

/-- `APPEND(b)` (R126). The store is guarded by `dec.len < CAP`, as 10_state.md R48 asks (DEDUCED,
log entry 9). -/
def append (s : State) (b : Byte) : ByteStep :=
  if s.dec.ovf then { st := s, rep := Report.only .none }
  else if s.dec.len.toNat < s.cfg.cap then storeByte s b
  else { st := markOverflow s, rep := Report.only .overflow }

/-- A completed frame that is dropped for want of a slot (R128). -/
def dropFrame (s : State) : ByteStep :=
  { st := goIdle (countDrop s), rep := { outcome := .complete, pub := .dropped, lostOld := false } }

/-- `COMPLETE()` (R128). -/
def complete (s : State) : ByteStep :=
  if s.dec.noslot then dropFrame s
  else
    match (acquireForFill s).slot with
    | none => dropFrame (acquireForFill s).st
    | some f =>
      { st := goIdle (publish (acquireForFill s).st f s.dec.len).st
        rep :=
          { outcome := .complete
            pub := (publish (acquireForFill s).st f s.dec.len).pub
            lostOld := (acquireForFill s).lostOld
              || (publish (acquireForFill s).st f s.dec.len).lostOld } }

/-- A restart on a start delimiter inside an attempt (R125, R130, R131). -/
def restart (s : State) : ByteStep := { st := beginAttempt s, rep := Report.only .resync }

/-- An attempt abandoned for the idle phase (R127, R130, R131). -/
def abandon (s : State) : ByteStep := { st := goIdle s, rep := Report.only .resync }

/-- Phase `WaitStart` (R124). -/
def byteWaitStart (s : State) (b : Byte) : ByteStep :=
  if b = s.cfg.startByte then { st := beginAttempt s, rep := Report.only .none }
  else { st := s, rep := Report.only .none }

/-- Whether a byte restarts an attempt in `WaitData` (R125): a start delimiter, but not while an
overflowed attempt runs under `BOUNDARY_ONLY`. -/
def restarts (s : State) (b : Byte) : Bool :=
  isStart s.cfg b && !(s.dec.ovf && (s.cfg.ovfResync == .boundaryOnly))

/-- The boundary byte of an attempt in `WaitData` (R125, R127). -/
def byteBoundary (s : State) : ByteStep :=
  if s.dec.ovf then abandon s
  else
    match s.cfg.framing with
    | .cksum => { st := { s with dec := { s.dec with phase := .waitChecksumHi } }, rep := Report.only .none }
    | .delim => complete s

/-- Phase `WaitData` (R125). -/
def byteWaitData (s : State) (b : Byte) : ByteStep :=
  if restarts s b then restart s
  else if isBoundary s.cfg b then byteBoundary s
  else append s b

/-- A trailer byte that is no hex digit (R130, R131): a restart, or a malformed trailer. -/
def badTrailer (s : State) (b : Byte) : ByteStep :=
  if b = s.cfg.startByte then restart s else abandon (countMalf s)

/-- Phase `WaitChecksumHi` (R130). -/
def byteWaitHi (s : State) (b : Byte) : ByteStep :=
  match hexVal s.cfg.hexLower b with
  | some n =>
    { st := { s with dec := { s.dec with rx := rxHigh n, phase := .waitChecksumLo } }
      rep := Report.only .none }
  | none => badTrailer s b

/-- Phase `WaitChecksumLo` (R131): the whole received byte is compared with `dec.ck` (40_checksum.md R115). -/
def byteWaitLo (s : State) (b : Byte) : ByteStep :=
  match hexVal s.cfg.hexLower b with
  | some n =>
    if rxLow s.dec.rx n = s.dec.ck then complete { s with dec := { s.dec with rx := rxLow s.dec.rx n } }
    else abandon (countCkerr { s with dec := { s.dec with rx := rxLow s.dec.rx n } })
  | none => badTrailer s b

/-- The dispatch on `dec.phase` (R120). -/
def bytePhase (s : State) (b : Byte) : ByteStep :=
  match s.dec.phase with
  | .waitStart => byteWaitStart s b
  | .waitData => byteWaitData s b
  | .waitChecksumHi => byteWaitHi s b
  | .waitChecksumLo => byteWaitLo s b

/-- The whole `BYTE` step (R120): `ENSURE_FILL()`, then the phase. -/
def byteStep (s : State) (b : Byte) : ByteStep := bytePhase (ensureFill s) b

/-- `BYTE b` (R120), port P only. Its response is always `OK` (30_encoding.md R96). -/
def execByte (b : Byte) (s : State) : Host.Outcome State Fault Refusal :=
  onPort .p s (.next (respond (byteStep s b).st .ok (reportValue (byteStep s b).rep)))

end Sys2Proof.Machine
end

