-- ==== Sys2Proof/Machine/Status.lean ====
section
/-! DEFINITION. The status registers (spec/43_consumer_port.md R171 to R173), one definition each, and the
commands `STAT` and `NOP` (R174). -/

namespace Sys2Proof.Machine

/-- Selector 0, `DEC_PHASE`: bits 1:0 `dec.phase`, bit 2 `dec.ovf`, bit 3 `dec.noslot`. -/
def statDecPhase (s : State) : Half :=
  0#12 ++ BitVec.ofBool s.dec.noslot ++ BitVec.ofBool s.dec.ovf ++ phaseCode s.dec.phase

/-- The state bits of slot `i` in `ARB`: 0 when the slot is not in the pool. -/
def statSlotBits (s : State) (i : SlotIdx) : BitVec 2 :=
  if hasSlot s.cfg i then slotStateCode (slotAt s i).state else 0#2

/-- The held index bit of `ARB`: 0 when nothing is held. -/
def statHeldBit (s : State) : BitVec 1 :=
  match s.arb.held with
  | some h => idxBit h
  | none => 0#1

/-- Selector 4, `ARB`: bits 1:0 slot 0, 3:2 slot 1, bit 4 held, bit 5 the held index, bit 6 `arb.older`,
bit 7 `ready`, bit 8 `pause_req`. -/
def statArb (s : State) : Half :=
  0#7 ++ BitVec.ofBool (pauseReqOut s) ++ BitVec.ofBool (readyOut s) ++ idxBit s.arb.older
    ++ statHeldBit s ++ BitVec.ofBool s.arb.held.isSome ++ statSlotBits s .one ++ statSlotBits s .zero

/-- Selectors 5 and 6, `SLOT0_LEN` and `SLOT1_LEN`: the length register, 0 when the slot is not in the pool. -/
def statSlotLen (s : State) (i : SlotIdx) : Half :=
  if hasSlot s.cfg i then (slotAt s i).length else 0x0000#16

/-- Selector 12, `CFG0`: `CAP`. -/
def statCfg0 (c : Config) : Half := BitVec.ofNat 16 c.cap

/-- Selector 13, `CFG1`: bit 0 `NSLOTS - 1`, bit 1 `FRAMING`, bit 2 `USE_START`, bits 4:3 `POLICY`, bit 5
`OVF_RESYNC`, bit 6 `HEX_LOWER`, bit 7 `PAUSE_EN`. -/
def statCfg1 (c : Config) : Half :=
  0#8 ++ BitVec.ofBool c.pauseEn ++ BitVec.ofBool c.hexLower ++ ovfResyncCode c.ovfResync
    ++ policyCode c.policy ++ BitVec.ofBool c.useStart ++ framingCode c.framing
    ++ BitVec.ofNat 1 (c.nslots - 1)

/-- Selector 14, `CFG2`: bits 7:0 `START` (0 without a start delimiter), bits 15:8 `END` or `INTRO`. -/
def statCfg2 (c : Config) : Half :=
  boundaryByte c ++ (if c.useStart then c.startByte else 0x00#8)

/-- The register a selector reads (R172); `none` for the undefined selectors 7 and 15. -/
def statRegister (s : State) (sel : BitVec 4) : Option Half :=
  match sel.toNat with
  | 0 => some (statDecPhase s)
  | 1 => some s.dec.len
  | 2 => some (s.dec.ck.setWidth 16)
  | 3 => some (s.dec.rx.setWidth 16)
  | 4 => some (statArb s)
  | 5 => some (statSlotLen s .zero)
  | 6 => some (statSlotLen s .one)
  | 8 => some s.cnt.ovf
  | 9 => some s.cnt.drop
  | 10 => some s.cnt.ckerr
  | 11 => some s.cnt.malf
  | 12 => some (statCfg0 s.cfg)
  | 13 => some (statCfg1 s.cfg)
  | 14 => some (statCfg2 s.cfg)
  | _ => none

/-- `STAT sel` (R171): the undefined-selector test before the port test (R173). -/
def execStat (sel : BitVec 4) (s : State) : Host.Outcome State Fault Refusal :=
  match statRegister s sel with
  | none => commandError s .errIllegal
  | some v =>
    if selectorProducerOnly sel = true ∧ s.port = .c then commandError s .errContext
    else .next (respond s .ok v)

/-- `NOP` (R174), legal on both ports: it answers `OK` and writes nothing. -/
def execNop (s : State) : Host.Outcome State Fault Refusal := .next (respond s .ok 0x0000#16)

end Sys2Proof.Machine
end

