-- ==== Sys2Proof/Machine/Dispatch.lean ====
section
/-! DEFINITION. One arm per command of spec/opcode_table.json, each one direct call of its meaning. -/

namespace Sys2Proof.Machine

def exec (i : Instr) (s : State) : Host.Outcome State Fault Refusal :=
  match i with
  | .nop => Sys2Proof.Machine.execNop s
  | .byte b => Sys2Proof.Machine.execByte b s
  | .take => Sys2Proof.Machine.execTake s
  | .read off => Sys2Proof.Machine.execRead off s
  | .release => Sys2Proof.Machine.execRelease s
  | .stat sel => Sys2Proof.Machine.execStat sel s

end Sys2Proof.Machine
end

