-- ==== Sys2Proof/Decode.lean ====
section
/-! DEFINITION. Decoding and encoding of command words: format `CMD32` and the opcode map of
spec/30_encoding.md R91, R92 and R94. The decoder is total and rejects every illegal word by name. -/

namespace Sys2Proof

/-- Why a command word is illegal (R94). The machine answers each with `ERR_ILLEGAL`. -/
inductive DecodeError where
  /-- `op` is 0x6 to 0xF. -/
  | undefinedOp
  /-- `z` (bits 27:16) is not zero. -/
  | zNotZero
  /-- a must-be-zero part of `arg` is not zero. -/
  | argNotZero
deriving DecidableEq, Repr

/-- Field `op`, bits 31:28 (R91). -/
def opField (w : Word) : BitVec 4 := w.extractLsb' 28 4

/-- Field `z`, bits 27:16 (R91). -/
def zField (w : Word) : BitVec 12 := w.extractLsb' 16 12

/-- Field `arg`, bits 15:0 (R91). -/
def argField (w : Word) : Half := w.extractLsb' 0 16

/-- The word `op ‖ 0 ‖ arg` of format `CMD32` (R91). -/
def cmdWord (op : BitVec 4) (arg : Half) : Word := op ++ 0#12 ++ arg

/-- A command whose `arg` must be 0 (R92). -/
def decodePlain (i : Instr) (arg : Half) : Except DecodeError Instr :=
  if arg = 0#16 then .ok i else .error .argNotZero

/-- `BYTE`: `arg[7:0]` is the byte and `arg[15:8]` must be 0 (R92). -/
def decodeByte (arg : Half) : Except DecodeError Instr :=
  if arg.extractLsb' 8 8 = 0#8 then .ok (.byte (arg.extractLsb' 0 8)) else .error .argNotZero

/-- `STAT`: `arg[3:0]` is the selector and `arg[15:4]` must be 0 (R92). -/
def decodeStat (arg : Half) : Except DecodeError Instr :=
  if arg.extractLsb' 4 12 = 0#12 then .ok (.stat (arg.extractLsb' 0 4)) else .error .argNotZero

/-- The decoder: every 32-bit word is a command of R92 or is illegal by R94. -/
def decode (w : Word) : Except DecodeError Instr :=
  if zField w ≠ 0#12 then .error .zNotZero
  else
    match (opField w).toNat with
    | 0 => decodePlain .nop (argField w)
    | 1 => decodeByte (argField w)
    | 2 => decodePlain .take (argField w)
    | 3 => .ok (.read (argField w))
    | 4 => decodePlain .release (argField w)
    | 5 => decodeStat (argField w)
    | _ => .error .undefinedOp

/-- The operation code of a command (R92). -/
def opcode (i : Instr) : BitVec 4 :=
  match i with
  | .nop => 0x0#4
  | .byte _ => 0x1#4
  | .take => 0x2#4
  | .read _ => 0x3#4
  | .release => 0x4#4
  | .stat _ => 0x5#4

/-- The `arg` field of a command (R92). -/
def operand (i : Instr) : Half :=
  match i with
  | .nop => 0#16
  | .byte b => b.setWidth 16
  | .take => 0#16
  | .read off => off
  | .release => 0#16
  | .stat sel => sel.setWidth 16

/-- The encoder: the one command word of a command (R91, R92). -/
def encode (i : Instr) : Word := cmdWord (opcode i) (operand i)

/-- What the decoder reads from the instruction whose bits are `w` in the opcode table's numbering. A
command is one 32-bit word presented whole (20_memory.md R62 (d)), so the table's number is the word;
bits from `nbits` on are 0, and a number that does not fit 32 bits is no command word. -/
def decodeTableWord (nbits w : Nat) : Option Instr :=
  if w % 2 ^ nbits < 2 ^ 32 then
    match decode (BitVec.ofNat 32 (w % 2 ^ nbits)) with
    | .ok i => some i
    | .error _ => none
  else none

end Sys2Proof
end

