-- ==== Sys2Proof/Machine/Fetch.lean ====
section
/-! DEFINITION. How the next command reaches the machine: from the ports, in the total order of
spec/00_scope.md R12, with the producer first when both ports present a command at once
(60_exceptions.md R194), and the reset input (70_reset_and_hazards.md R215). -/

namespace Sys2Proof.Machine

/-- What the next input is. -/
inductive Fetched where
  /-- nothing is presented: no rule fires (41_decoder.md R136). -/
  | idle
  /-- `rst` is asserted; the state is the one after it, if the configuration has a reset state. -/
  | reset (st : Option State)
  /-- a command word; the state has its port and what is left of the input. -/
  | command (w : Word) (st : State)
deriving DecidableEq, Repr

/-- The state with the input advanced to `rest` and a command of the given port in progress. -/
def accept (s : State) (port : Port) (rest : List Input) : State :=
  { s with input := rest, port := port }

/-- The state after `rst` is asserted (R215 to R217), which only a well-formed configuration has (00_scope.md
R7): every piece of state at its reset value whatever it was, `cfg` kept, and the inputs that follow still to come (DESIGN CHOICE, log entry 15). -/
def afterReset (s : State) (rest : List Input) : Option State :=
  (State.resetOf s.cfg).map fun r => { r with input := rest }

/-- Take the next input (R12, R194, R215); the list of pending inputs is the model's (DESIGN CHOICE, log
entry 6). -/
def fetch (s : State) : Fetched :=
  match s.input with
  | [] => .idle
  | .rst :: rest => .reset (afterReset s rest)
  | .cmd port w :: rest => .command w (accept s port rest)
  | .both wp wc :: rest => .command wp (accept s .p (.cmd .c wc :: rest))

/-- A port on which a command word of the opcode table is legal (R92): port C for `TAKE`, `READ` and
`RELEASE`, port P for the others. -/
def fetchPort (w : Word) : Port :=
  match (opField w).toNat with
  | 2 => .c
  | 3 => .c
  | 4 => .c
  | _ => .p

/-- The input that presents the opcode table's number `w` of `nbits` bits as the next command
(DESIGN CHOICE, log entry 11). -/
def presentWord (nbits w : Nat) : Input :=
  .cmd (fetchPort (BitVec.ofNat 32 (w % 2 ^ nbits))) (BitVec.ofNat 32 (w % 2 ^ nbits))

end Sys2Proof.Machine
end

