-- ==== Sys2Proof/WellFormed.lean ====
section
/-! DEFINITION. What is well formed before the machine runs: a configuration (spec/00_scope.md R7) and a
command (30_encoding.md R94, 60_exceptions.md R193 (1): an undefined `STAT` selector is an encoding
error). The checks themselves are in Machine/Operands.lean. -/

namespace Sys2Proof

/-- A well-formed configuration (R7). One that is not is refused (R218). -/
abbrev Config.WellFormed (c : Config) : Prop := Machine.cfgOk c = true

/-- A well-formed command: its operands fit their fields by type, and a `STAT` selector is one that R172
defines. A `STAT` that is not well formed is still decoded and is answered `ERR_ILLEGAL` (R171). -/
def Instr.wellFormed (i : Instr) : Bool :=
  match i with
  | .nop => true
  | .byte _ => true
  | .take => true
  | .read _ => true
  | .release => true
  | .stat sel => Machine.selectorDefined sel

end Sys2Proof
end

