-- ==== Sys2Proof/Machine/Step.lean ====
section
/-! DEFINITION. One step of the block (spec/00_scope.md R12, R13): the next input is taken; a command word
is decoded and executed as one atomic step, an illegal one is answered `ERR_ILLEGAL`. -/

namespace Sys2Proof.Machine

/-- Decode a command word and execute it (30_encoding.md R94: the illegal-encoding test comes first).
An illegal word is answered, not refused (log entry 12). -/
def runWord (w : Word) (s : State) : Host.Outcome State Fault Refusal :=
  match decode w with
  | .ok i => exec i s
  | .error _ => illegalCommand s

/-- The step of a block whose configuration is well formed. -/
def stepInput (s : State) : Host.Outcome State Fault Refusal :=
  match fetch s with
  | .idle => .next s
  | .reset (some st) => .next st
  | .reset none => .refused .configNotWellFormed
  | .command w st => runWord w st

/-- The step. A configuration that is not well formed has no step (00_scope.md R7, R218; log entry 13). -/
def step (s : State) : Host.Outcome State Fault Refusal :=
  if cfgOk s.cfg then stepInput s else .refused .configNotWellFormed

/-- The state with one command word presented next, ahead of the inputs already pending. -/
def State.withFetchWord (s : State) (nbits w : Nat) : State :=
  { s with input := presentWord nbits w :: s.input }

end Sys2Proof.Machine
end

