-- ==== Sys2Proof/Safety.lean ====
section
/-! DEFINITION. What counts as a good state and a good run, in the terms the statements use: the
invariants of spec/10_state.md section 5, the illegal words of 30_encoding.md R94, where a `BYTE` stores,
what an attempt has accepted, and the delivery of a byte sequence. -/

namespace Sys2Proof

open Sys2Proof.Machine

/-! ## Words -/

/-- An illegal command word, bit by bit as R94 lists it: `op` 0x6 to 0xF, `z ≠ 0`, or a must-be-zero part of
`arg` (R92) not zero. Written on numbers, apart from the decoder. -/
def IllegalWord (w : Word) : Prop :=
  6 ≤ w.toNat / 2 ^ 28
    ∨ w.toNat / 2 ^ 16 % 2 ^ 12 ≠ 0
    ∨ ((w.toNat / 2 ^ 28 = 0 ∨ w.toNat / 2 ^ 28 = 2 ∨ w.toNat / 2 ^ 28 = 4) ∧ w.toNat % 2 ^ 16 ≠ 0)
    ∨ (w.toNat / 2 ^ 28 = 1 ∧ w.toNat / 2 ^ 8 % 2 ^ 8 ≠ 0)
    ∨ (w.toNat / 2 ^ 28 = 5 ∧ w.toNat / 2 ^ 4 % 2 ^ 12 ≠ 0)

/-! ## Invariants (10_state.md section 5) -/

/-- At most one slot is `Filling` (R45). -/
def AtMostOneFilling (s : State) : Prop :=
  ¬ (slotIs s .zero .filling = true ∧ slotIs s .one .filling = true)

/-- Every slot of the pool is `Ready`. -/
def EverySlotReady (s : State) : Prop := ∀ i, hasSlot s.cfg i = true → slotIs s i .ready = true

/-- The held index and the lengths are among the values the spec lists for these registers: `arb.held` is 1
only with two slots (R35), and a length is at most `CAP` (R30). -/
structure FieldsInRange (s : State) : Prop where
  heldInPool : ∀ h, s.arb.held = some h → hasSlot s.cfg h = true
  lengthCap : ∀ i, (slotAt s i).length.toNat ≤ s.cfg.cap

/-- What holds of the slots and the arbiter registers. -/
structure SlotInv (s : State) : Prop where
  /-- a payload memory is in canonical form. -/
  mem : ∀ i, Memory.wf (slotAt s i).mem
  /-- nothing is stored at an offset `CAP` or above (R48). -/
  below : ∀ i, Memory.below (slotAt s i).mem s.cfg.cap
  /-- `slot[i].length ≤ CAP` (R48). -/
  lengthCap : ∀ i, (slotAt s i).length.toNat ≤ s.cfg.cap
  /-- a slot outside the pool is never touched (R30, 00_scope.md R16). -/
  absent : s.cfg.nslots ≠ 2 → s.slot1 = Slot.atReset .free
  /-- at most one slot is `Filling` (R45). -/
  oneFilling : AtMostOneFilling s
  /-- the held slot is `Ready` (R49 (a)). -/
  heldReady : ∀ h, s.arb.held = some h → slotIs s h .ready = true
  /-- two slots are `Ready` only under `SWAP` (R49 (b)). -/
  oneReady : s.cfg.policy ≠ .swap → ¬ (slotIs s .zero .ready = true ∧ slotIs s .one .ready = true)
  /-- with two slots and no `SWAP`, some slot is `Filling` at every instant (R46). -/
  twoSlots : s.cfg.nslots = 2 → s.cfg.policy ≠ .swap → fillIdx s ≠ none
  /-- every readable byte of a `Ready` slot was written since reset (20_memory.md R64). -/
  readyWritten : ∀ i, slotIs s i .ready = true →
    Memory.written (slotAt s i).mem (slotAt s i).length.toNat

/-- What holds of the decoder registers. -/
structure DecInv (c : Config) (d : Dec) : Prop where
  /-- `dec.len ≤ CAP` (R48). -/
  lenCap : d.len.toNat ≤ c.cap
  /-- an overflowed attempt is full and in `WaitData` (R49 (d)). -/
  ovf : d.ovf = true → d.phase = .waitData ∧ d.len.toNat = c.cap
  /-- in `WaitStart` every register is cleared (R49 (e)). -/
  idle : d.phase = .waitStart → d = clearedDec c .waitStart
  /-- without a start delimiter `WaitStart` is never entered (R22). -/
  noStart : c.useStart = false → d.phase ≠ .waitStart
  /-- under delimiter framing the checksum phases are never entered (R22). -/
  noTrailer : c.framing = .delim → d.phase ≠ .waitChecksumHi ∧ d.phase ≠ .waitChecksumLo
  /-- `dec.noslot` is set by an accepted byte (R27, 41_decoder.md R126). -/
  noslot : d.noslot = true → 0 < d.len.toNat
  /-- before the first accepted byte the running checksum is `CK_INIT` (R24). -/
  emptyCk : d.len.toNat = 0 → d.ck = c.ckInit
  /-- until the first trailer digit the received checksum is 0 (R25). -/
  rxZero : d.phase ≠ .waitChecksumLo → d.rx = 0x00#8
  /-- after it the low nibble is 0 (R25). -/
  rxHigh : d.phase = .waitChecksumLo → d.rx.toNat % 16 = 0

/-- The bytes of the current attempt are stored (R49 (c)): with a byte accepted and a slot had, a slot is
`Filling` and its offsets 0 to `dec.len - 1` have been written. -/
def AttemptStored (s : State) : Prop :=
  0 < s.dec.len.toNat → s.dec.noslot = false →
    ∃ f, fillIdx s = some f ∧ Memory.written (slotAt s f).mem s.dec.len.toNat

/-- The invariant of the machine. -/
structure Inv (s : State) : Prop where
  /-- the configuration is well formed (00_scope.md R7). -/
  config : cfgOk s.cfg = true
  slots : SlotInv s
  dec : DecInv s.cfg s.dec
  stored : AttemptStored s

/-! ## What an attempt has accepted (R49 (c), (g)) -/

/-- The decoder and the `Filling` slot hold exactly the payload bytes `acc`, accepted in this order: their
number, their checksum and, if the attempt has a slot, the bytes themselves at offsets 0, 1, .... -/
structure Tracks (s : State) (acc : List Byte) : Prop where
  len : s.dec.len.toNat = acc.length
  ck : s.dec.ck = cksum s.cfg acc
  stored : acc ≠ [] → s.dec.noslot = false →
    ∃ f, fillIdx s = some f ∧ ∀ k (hk : k < acc.length), Memory.read (slotAt s f).mem k = some acc[k]

/-- What the attempt has accepted after byte `b`, from what it had accepted before, by the transition
table (41_decoder.md R122): a payload byte that fits is added; a byte that begins, ends or abandons an
attempt leaves nothing; every other byte leaves it as it was. -/
def acceptedAfter (s : State) (b : Byte) (acc : List Byte) : List Byte :=
  match s.dec.phase with
  | .waitStart => []
  | .waitData =>
    if restarts s b then []
    else if isBoundary s.cfg b then
      (if s.dec.ovf = false ∧ s.cfg.framing = .cksum then acc else [])
    else if s.dec.ovf then acc
    else if s.dec.len.toNat < s.cfg.cap then acc ++ [b]
    else acc
  | .waitChecksumHi => if isHex s.cfg b then acc else []
  | .waitChecksumLo => []

/-! ## Completed frames and lost frames -/

/-- Byte `b` completes a frame of an attempt that has not overflowed (41_decoder.md R128): the completion
byte under `DELIM`, or the trailer digit that makes the received checksum equal to the calculated one. -/
def Completes (s : State) (b : Byte) : Prop :=
  (s.dec.phase = .waitData ∧ s.cfg.framing = .delim ∧ b = s.cfg.endByte ∧ s.dec.ovf = false)
    ∨ (s.dec.phase = .waitChecksumLo
        ∧ ∃ n, hexVal s.cfg.hexLower b = some n ∧ rxLow s.dec.rx n = s.dec.ck)

/-- The registers of the decoder in the idle phase (R121), field by field. -/
def idleDec (c : Config) : Dec where
  phase := if c.useStart then .waitStart else .waitData
  len := 0x0000#16
  ck := c.ckInit
  rx := 0x00#8
  ovf := false
  noslot := false

/-- The registers of the decoder at the begin of an attempt (R123), field by field. -/
def freshDec (c : Config) : Dec where
  phase := .waitData
  len := 0x0000#16
  ck := c.ckInit
  rx := 0x00#8
  ovf := false
  noslot := false

/-! ## Where a BYTE stores -/

/-- Whether byte `b` is accepted by `APPEND` and asks for a slot (R125, R126). -/
def storesByte (s : State) (b : Byte) : Bool :=
  s.port == .p && s.dec.phase == .waitData && !restarts s b && !isBoundary s.cfg b && !s.dec.ovf
    && decide (s.dec.len.toNat < s.cfg.cap) && !s.dec.noslot

/-- The location `BYTE b` writes, if it writes one (R126): the slot that `ACQUIRE_FOR_FILL` gives after
`ENSURE_FILL`, at offset `dec.len`. -/
def storeLocation (s : State) (b : Byte) : Option (SlotIdx × Nat) :=
  if storesByte s b then (acquireForFill (ensureFill s)).slot.map fun f => (f, s.dec.len.toNat)
  else none

/-! ## Runs -/

/-- The state in which a command of a port is in progress. -/
def onPortOf (port : Port) (s : State) : State := { s with port := port }

/-- The `status` field of a response word (30_encoding.md R95). -/
def statusField (w : Word) : BitVec 4 := w.extractLsb' 28 4

/-- The `value` field of a response word (R95). -/
def valueField (w : Word) : Half := w.extractLsb' 0 16

/-- The response says `outcome = COMPLETE, pub = DROPPED` (R97): bits 3:0 are 1001. -/
def saysDropped (w : Word) : Prop := w.toNat % 16 = 9

/-- The response says `lost_old = 1` (R97): bit 4. -/
def saysLostOld (w : Word) : Prop := w.toNat / 16 % 2 = 1

/-- An input that neither resets the block nor is a `RELEASE` of the consumer. -/
def keepsHold (i : Input) : Prop :=
  match i with
  | .cmd .c w => w ≠ encode .release
  | .cmd .p _ => True
  | .both _ wc => wc ≠ encode .release
  | .rst => False

/-- The state after the producer delivered the bytes in order, and the values of the responses; `none`
when a step stops, or is not answered `OK`. -/
def deliver (bytes : List Byte) (s : State) : Option (List Half × State) :=
  match bytes with
  | [] => some ([], s)
  | b :: rest =>
    match exec (.byte b) (onPortOf .p s) with
    | .next t =>
      match t.rsp with
      | some r =>
        if statusField r.word = 0x0#4 then
          (deliver rest t).map fun q => (valueField r.word :: q.1, q.2)
        else none
      | none => none
    | .fault _ => none
    | .refused _ => none

end Sys2Proof
end

