-- ==== Sys2Proof/Certificates/Slice0/Obligations.lean ====
section
/-! DEFINITION. The statements for the provers. Each is about every configuration that its hypotheses
admit; a statement names the rules of spec/ it formalises. `ensureFill s` is the state that `ENSURE_FILL()`,
the first action of every `BYTE` step (spec/41_decoder.md R120), leaves; it changes slot states only. -/

open Sys2Proof Sys2Proof.Machine

/-! ## Encoding -/

/-- The decoder reads back every command from its word, with every operand (30_encoding.md R91, R92). -/
def Obligations.DecodeOfEncodeIsInstruction : Prop := ∀ i : Instr, decode (encode i) = .ok i

/-- A word the decoder accepts is the encoding of what it reads: no bit of a word is dropped (R91, R92). -/
def Obligations.EncodeOfDecodedIsWord : Prop :=
  ∀ (w : Word) (i : Instr), decode w = .ok i → encode i = w

/-- Words written out from the encodings of R92, one per command, decode to the commands they stand for. -/
def Obligations.WrittenOutWordsDecode : Prop :=
  decode 0b00000000000000000000000000000000#32 = .ok .nop
    ∧ decode 0b00010000000000000000000001000001#32 = .ok (.byte 0x41#8)
    ∧ decode 0b00100000000000000000000000000000#32 = .ok .take
    ∧ decode 0b00110000000000001000000000000010#32 = .ok (.read 0x8002#16)
    ∧ decode 0b01000000000000000000000000000000#32 = .ok .release
    ∧ decode 0b01010000000000000000000000001001#32 = .ok (.stat 9#4)

/-- R94: an illegal word is answered `ERR_ILLEGAL`; a legal one on a port it is not legal on is answered
`ERR_CONTEXT`; both change nothing, and the illegal-encoding test is made first. Every other word is a
command, whose meaning runs. -/
def Obligations.IllegalAndMisdirectedWordsAreRefused : Prop :=
  ∀ (s : State) (port : Port) (w : Word) (rest : List Input),
    cfgOk s.cfg = true → s.input = .cmd port w :: rest →
      (IllegalWord w →
        step s = .next { s with input := rest, port := port, rsp := some ⟨port, 0x50000000#32⟩ })
      ∧ (¬ IllegalWord w →
          ∃ i, encode i = w
            ∧ (legalOn i port = false →
                step s = .next { s with input := rest, port := port, rsp := some ⟨port, 0x40000000#32⟩ })
            ∧ (legalOn i port = true → step s = exec i { s with input := rest, port := port }))

/-! ## The step -/

/-- A step runs the decoded command: with a command word next on a port, the step is `exec` of what the
word decodes to, on the state whose input is the rest and whose port is the command's. That the pending
inputs and the port are fields of the state is the model's choice (log entries 6 and 7). -/
def Obligations.StepRunsDecodedCommand : Prop :=
  ∀ (s : State) (port : Port) (w : Word) (rest : List Input) (i : Instr),
    cfgOk s.cfg = true → s.input = .cmd port w :: rest → decode w = .ok i →
      step s = exec i { s with input := rest, port := port }

/-- R194: of two commands presented at once the producer's is ordered first, and the consumer's is the very
next command and sees its result: the step is that of the two commands presented one after the other. -/
def Obligations.ProducerCommandIsOrderedFirst : Prop :=
  ∀ (s : State) (wp wc : Word) (rest : List Input), s.input = .both wp wc :: rest →
    step s = step { s with input := .cmd .p wp :: .cmd .c wc :: rest }
    ∧ ∀ t, step s = .next t → t.input = .cmd .c wc :: rest

/-- No rule fires without a command: with nothing presented the step leaves the whole state (41_decoder.md
R136: the decoder leaves a phase only on a byte). That a step without an input exists is the model's choice
(log entry 6). -/
def Obligations.NothingHappensWithoutInput : Prop :=
  ∀ s : State, cfgOk s.cfg = true → s.input = [] → step s = .next s

/-- 00_scope.md R7, R218: which configurations are well formed, clause by clause, and that one that is not has
no reset state and no step: reset gives none, and a step of a block with it is refused. The clause on `fold` is the model's: a table lists the result for each of
the 65536 operand pairs (log entry 3). -/
def Obligations.IllFormedConfigurationIsRefused : Prop :=
  (∀ c : Config, cfgOk c = true ↔
    (1 ≤ c.cap ∧ c.cap ≤ 65535) ∧ (c.nslots = 1 ∨ c.nslots = 2) ∧ (c.policy = .swap → c.nslots = 2)
      ∧ (c.framing = .cksum → c.useStart = true)
      ∧ (c.useStart = true → c.framing = .delim → c.startByte ≠ c.endByte)
      ∧ (c.useStart = true → c.framing = .cksum → c.startByte ≠ c.introByte)
      ∧ (c.framing = .cksum → hexVal c.hexLower c.startByte = none)
      ∧ c.trailerWidth = 2
      ∧ (∀ results, c.fold = .table results → results.length = 65536))
  ∧ (∀ c : Config, cfgOk c = false → State.resetOf c = none)
  ∧ ∀ s : State, cfgOk s.cfg = false → step s = .refused .configNotWellFormed

/-- R8: `cfg` never changes, whatever the step, reset included. -/
def Obligations.ConfigurationNeverChanges : Prop :=
  ∀ s t : State, step s = .next t → t.cfg = s.cfg

/-! ## Reset -/

/-- 10_state.md R50: every well-formed configuration has a reset state, and the value of every piece of state
that R50 gives one. The payload memories, whose contents R50 leaves unspecified, stand in a statement of their
own, `PayloadIsFreeAfterReset`. -/
def Obligations.ResetValues : Prop :=
  ∀ c : Config, cfgOk c = true → ∃ r, State.resetOf c = some r
    ∧ r.dec.phase = (if c.useStart = true then .waitStart else .waitData)
    ∧ r.dec.len = 0x0000#16 ∧ r.dec.ck = c.ckInit ∧ r.dec.rx = 0x00#8
    ∧ r.dec.ovf = false ∧ r.dec.noslot = false
    ∧ r.slot0.state = .filling ∧ r.slot0.length = 0x0000#16
    ∧ (c.nslots = 2 → r.slot1.state = .free ∧ r.slot1.length = 0x0000#16)
    ∧ r.arb.held = none ∧ r.arb.older = .zero
    ∧ r.cnt = ⟨0x0000#16, 0x0000#16, 0x0000#16, 0x0000#16⟩
    ∧ readyOut r = false ∧ pauseReqOut r = false

/-- R51: reset leaves in the decoder registers exactly what `GO_IDLE()` leaves there, from any state of a block
with the same configuration. -/
def Obligations.ResetDecoderEqualsIdleDecoder : Prop :=
  ∀ s r : State, State.resetOf s.cfg = some r → r.dec = (goIdle s).dec

/-- 70_reset_and_hazards.md R215, R217: asserting `rst` puts every piece of state at its reset value,
whatever the state was; a `READ` or `RELEASE` that is the next command responds `ERR_NOHELD`. The values of
the model's own fields after reset are its choice (log entries 7, 8 and 15). -/
def Obligations.ResetInputRestoresResetState : Prop :=
  ∀ (s : State) (rest : List Input), cfgOk s.cfg = true → s.input = .rst :: rest →
    ∃ r, State.resetOf s.cfg = some r ∧ step s = .next { r with input := rest }
      ∧ ∀ (rest' : List Input) (i : Instr), (i = .release ∨ ∃ off, i = .read off) →
          rest = .cmd .c (encode i) :: rest' →
          step { r with input := rest }
            = .next { r with input := rest', port := .c, rsp := some ⟨.c, 0x20000000#32⟩ }

/-! ## NOP and STAT -/

/-- 43_consumer_port.md R174: `NOP` is the all-zero word; on either port it answers `OK` with value 0 and
writes nothing; a word of its operation code with any other bit set is answered `ERR_ILLEGAL`. -/
def Obligations.NopAnswersOkAndWritesNothing : Prop :=
  encode .nop = 0x00000000#32
  ∧ (∀ s : State, exec .nop s = .next { s with rsp := some ⟨s.port, 0x00000000#32⟩ })
  ∧ ∀ (s : State) (port : Port) (w : Word) (rest : List Input),
      cfgOk s.cfg = true → s.input = .cmd port w :: rest → w.toNat / 2 ^ 28 = 0 → w ≠ 0x00000000#32 →
        step s = .next { s with input := rest, port := port, rsp := some ⟨port, 0x50000000#32⟩ }

/-- R171, R173: `STAT` on an undefined selector is answered `ERR_ILLEGAL` on both ports; on a decoder
register, on port C, `ERR_CONTEXT`; else `OK` with the selected register. Nothing is written. A word of its
operation code with another bit set is illegal. -/
def Obligations.StatAnswersAndWritesNothing : Prop :=
  (∀ w : Word, w.toNat / 2 ^ 28 = 5 → w.toNat / 2 ^ 4 % 2 ^ 24 ≠ 0 → IllegalWord w ∧ ∀ i, decode w ≠ .ok i)
  ∧ ∀ (s : State) (sel : BitVec 4),
    ((sel = 7#4 ∨ sel = 15#4) →
      exec (.stat sel) s = .next { s with rsp := some ⟨s.port, 0x50000000#32⟩ })
    ∧ (sel.toNat < 4 → s.port = .c →
        exec (.stat sel) s = .next { s with rsp := some ⟨.c, 0x40000000#32⟩ })
    ∧ (sel ≠ 7#4 → sel ≠ 15#4 → ¬ (sel.toNat < 4 ∧ s.port = .c) →
        ∃ v, statRegister s sel = some v
          ∧ exec (.stat sel) s = .next { s with rsp := some ⟨s.port, 0x0000#16 ++ v⟩ })

/-- R172: the selector map, every register as the number its listed bits make (every other bit is 0), in
every state whose configuration has one or two slots. -/
def Obligations.StatSelectorMap : Prop :=
  ∀ s : State, (s.cfg.nslots = 1 ∨ s.cfg.nslots = 2) → s.cfg.cap ≤ 65535 →
    (statRegister s 0#4).map BitVec.toNat
      = some ((phaseCode s.dec.phase).toNat + 4 * s.dec.ovf.toNat + 8 * s.dec.noslot.toNat)
    ∧ (statRegister s 1#4).map BitVec.toNat = some s.dec.len.toNat
    ∧ (statRegister s 2#4).map BitVec.toNat = some s.dec.ck.toNat
    ∧ (statRegister s 3#4).map BitVec.toNat = some s.dec.rx.toNat
    ∧ (statRegister s 4#4).map BitVec.toNat
      = some ((slotStateCode s.slot0.state).toNat
          + 4 * (if s.cfg.nslots = 2 then (slotStateCode s.slot1.state).toNat else 0)
          + (if s.arb.held = none then 0 else 16) + (if s.arb.held = some .one then 32 else 0)
          + (if s.arb.older = .one then 64 else 0)
          + 128 * (readyOut s).toNat + 256 * (pauseReqOut s).toNat)
    ∧ (statRegister s 5#4).map BitVec.toNat = some s.slot0.length.toNat
    ∧ (statRegister s 6#4).map BitVec.toNat
      = some (if s.cfg.nslots = 2 then s.slot1.length.toNat else 0)
    ∧ statRegister s 7#4 = none
    ∧ (statRegister s 8#4).map BitVec.toNat = some s.cnt.ovf.toNat
    ∧ (statRegister s 9#4).map BitVec.toNat = some s.cnt.drop.toNat
    ∧ (statRegister s 10#4).map BitVec.toNat = some s.cnt.ckerr.toNat
    ∧ (statRegister s 11#4).map BitVec.toNat = some s.cnt.malf.toNat
    ∧ (statRegister s 12#4).map BitVec.toNat = some s.cfg.cap
    ∧ (statRegister s 13#4).map BitVec.toNat
      = some ((s.cfg.nslots - 1) + 2 * (framingCode s.cfg.framing).toNat + 4 * s.cfg.useStart.toNat
          + 8 * (policyCode s.cfg.policy).toNat + 32 * (ovfResyncCode s.cfg.ovfResync).toNat
          + 64 * s.cfg.hexLower.toNat + 128 * s.cfg.pauseEn.toNat)
    ∧ (statRegister s 14#4).map BitVec.toNat
      = some ((if s.cfg.useStart = true then s.cfg.startByte.toNat else 0)
          + 256 * (if s.cfg.framing = .delim then s.cfg.endByte.toNat else s.cfg.introByte.toNat))
    ∧ statRegister s 15#4 = none

/-! ## TAKE, READ and RELEASE -/

/-- 42_arbiter.md R160: what `TAKE` answers and holds, in each case; it writes `arb.held` only. On port P it
is answered `ERR_CONTEXT`, and its word has no other operand. -/
def Obligations.TakeHoldsTheOldestReadyFrame : Prop :=
  (∀ s : State, s.port = .c →
    (∀ h, s.arb.held = some h →
      exec .take s = .next { s with rsp := some ⟨.c, 0x0000#16 ++ (slotAt s h).length⟩ })
    ∧ (s.arb.held = none → (∀ i, slotIs s i .ready = false) →
        exec .take s = .next { s with rsp := some ⟨.c, 0x10000000#32⟩ })
    ∧ (∀ r, s.arb.held = none → slotIs s r .ready = true → (∀ i, slotIs s i .ready = true → i = r) →
        exec .take s = .next { s with arb := { s.arb with held := some r }
                                      rsp := some ⟨.c, 0x0000#16 ++ (slotAt s r).length⟩ })
    ∧ (s.arb.held = none → (∀ i, slotIs s i .ready = true) →
        exec .take s = .next { s with arb := { s.arb with held := some s.arb.older }
                                      rsp := some ⟨.c, 0x0000#16 ++ (slotAt s s.arb.older).length⟩ }))
  ∧ (∀ s : State, s.port = .p → exec .take s = .next { s with rsp := some ⟨.p, 0x40000000#32⟩ })
  ∧ ∀ w : Word, w.toNat / 2 ^ 28 = 2 → w ≠ 0x20000000#32 → IllegalWord w ∧ ∀ i, decode w ≠ .ok i

/-- 43_consumer_port.md R170: `READ` with nothing held is answered `ERR_NOHELD`; with an offset not below the
held slot's length, `ERR_RANGE`; else `OK` with the byte at the offset, zero-extended. It writes nothing. On
port P it is answered `ERR_CONTEXT`, and a word of its operation code with `z ≠ 0` is illegal. The byte is
the one written at that offset of the held slot. -/
def Obligations.ReadAnswersTheHeldByte : Prop :=
  (∀ w : Word, w.toNat / 2 ^ 28 = 3 → w.toNat / 2 ^ 16 % 2 ^ 12 ≠ 0 →
    IllegalWord w ∧ ∀ i, decode w ≠ .ok i)
  ∧ ∀ (s : State) (off : Half),
    (s.port = .c → s.arb.held = none →
      exec (.read off) s = .next { s with rsp := some ⟨.c, 0x20000000#32⟩ })
    ∧ (∀ h, s.port = .c → s.arb.held = some h → (slotAt s h).length.toNat ≤ off.toNat →
        exec (.read off) s = .next { s with rsp := some ⟨.c, 0x30000000#32⟩ })
    ∧ (∀ h, s.port = .c → s.arb.held = some h → off.toNat < (slotAt s h).length.toNat → SlotInv s →
        exec (.read off) s
            = .next { s with rsp := some ⟨.c, 0x000000#24 ++ payloadByte s h off.toNat⟩ }
        ∧ Memory.read (slotAt s h).mem off.toNat = some (payloadByte s h off.toNat))
    ∧ (s.port = .p → exec (.read off) s = .next { s with rsp := some ⟨.p, 0x40000000#32⟩ })

/-- 60_exceptions.md R185, 30_encoding.md R90, R95, R96: every 32-bit word on either port gets a next state
and one response on the same port, of format `RSP32`: a status of R96's table, zeros in bits 27:16, and value
0 unless the status is `OK`. It is so in every state whose held index and lengths are among the values that
10_state.md R30 and R35 list, reachable or not. -/
def Obligations.EveryWordGetsOneResponse : Prop :=
  ∀ (s : State) (port : Port) (w : Word) (rest : List Input),
    cfgOk s.cfg = true → FieldsInRange s → s.input = .cmd port w :: rest →
      ∃ t r, step s = .next t ∧ t.input = rest ∧ t.rsp = some ⟨port, r⟩
        ∧ r.toNat / 2 ^ 28 ≤ 5 ∧ r.toNat / 2 ^ 16 % 2 ^ 12 = 0
        ∧ (r.toNat / 2 ^ 28 ≠ 0 → r.toNat % 2 ^ 16 = 0)

/-- 42_arbiter.md R162: `RELEASE` with nothing held is answered `ERR_NOHELD` and changes nothing; else the
held slot becomes `Free`, nothing is held any more, and the answer is `OK`. On port P it is answered
`ERR_CONTEXT`, and its word has no other operand. -/
def Obligations.ReleaseFreesTheHeldSlot : Prop :=
  (∀ s : State, s.port = .c →
    (s.arb.held = none → exec .release s = .next { s with rsp := some ⟨.c, 0x20000000#32⟩ })
    ∧ (s.arb.held = some .zero →
        exec .release s = .next { s with slot0 := { s.slot0 with state := .free }
                                         arb := { s.arb with held := none }
                                         rsp := some ⟨.c, 0x00000000#32⟩ })
    ∧ (s.arb.held = some .one →
        exec .release s = .next { s with slot1 := { s.slot1 with state := .free }
                                         arb := { s.arb with held := none }
                                         rsp := some ⟨.c, 0x00000000#32⟩ }))
  ∧ (∀ s : State, s.port = .p → exec .release s = .next { s with rsp := some ⟨.p, 0x40000000#32⟩ })
  ∧ ∀ w : Word, w.toNat / 2 ^ 28 = 4 → w ≠ 0x40000000#32 → IllegalWord w ∧ ∀ i, decode w ≠ .ok i

/-! ## BYTE, phase by phase -/

/-- 30_encoding.md R96, R97: a `BYTE` on port P always completes and is answered `OK`; in a good state the
value is one of the seven that R97 lists, and `pub ≠ NOPUB` exactly when the outcome is `COMPLETE`. -/
def Obligations.ByteIsAlwaysAnsweredOk : Prop :=
  ∀ (s : State) (b : Byte), s.port = .p →
    ∃ (t : State) (v : Half), exec (.byte b) s = .next t ∧ t.rsp = some ⟨.p, 0x0000#16 ++ v⟩
      ∧ (Inv s → v ∈ [0x0000#16, 0x0010#16, 0x0002#16, 0x0003#16, 0x0005#16, 0x0015#16, 0x0009#16]
          ∧ (v.toNat / 4 % 4 ≠ 0 ↔ v.toNat % 4 = 1))

/-- 60_exceptions.md R192, R201: a command on a port it is not legal on is answered `ERR_CONTEXT` and changes
nothing: `BYTE` on port C; `TAKE`, `READ` and `RELEASE` on port P. -/
def Obligations.WrongPortIsAnsweredErrContext : Prop :=
  ∀ s : State,
    (s.port = .c → ∀ b, exec (.byte b) s = .next { s with rsp := some ⟨.c, 0x40000000#32⟩ })
    ∧ (s.port = .p → ∀ i, (i = .take ∨ i = .release ∨ ∃ off, i = .read off) →
        exec i s = .next { s with rsp := some ⟨.p, 0x40000000#32⟩ })

/-- R124: in `WaitStart` the start delimiter begins an attempt and every other byte is ignored; both answer
`NONE`. -/
def Obligations.WaitStartIgnoresAllButStart : Prop :=
  ∀ (s : State) (b : Byte), s.port = .p → s.dec.phase = .waitStart →
    (b = s.cfg.startByte →
      exec (.byte b) s = .next { ensureFill s with dec := freshDec s.cfg
                                                   rsp := some ⟨.p, 0x00000000#32⟩ })
    ∧ (b ≠ s.cfg.startByte →
        exec (.byte b) s = .next { ensureFill s with rsp := some ⟨.p, 0x00000000#32⟩ })

/-- A start delimiter outside `WaitStart` restarts frame assembly at once, with outcome `RESYNC` and no
counter moved; the one exception is an overflowed attempt under `BOUNDARY_ONLY` (R123, R125, R130, R131). -/
def Obligations.StartDelimiterRestartsTheAttempt : Prop :=
  ∀ (s : State) (b : Byte), Inv s → s.port = .p → s.dec.phase ≠ .waitStart → isStart s.cfg b = true →
    ¬ (s.dec.ovf = true ∧ s.cfg.ovfResync = .boundaryOnly) →
      exec (.byte b) s = .next { ensureFill s with dec := freshDec s.cfg
                                                   rsp := some ⟨.p, 0x00000002#32⟩ }

/-- R126: a payload byte in `WaitData`. An overflowed attempt discards it. A full attempt is marked and
counted, outcome `OVERFLOW`. Otherwise it is counted and folded, and stored at offset `dec.len` of the slot
that `ACQUIRE_FOR_FILL` gives, if it gives one; if it gives none the attempt is marked `noslot`. -/
def Obligations.PayloadByteIsAppended : Prop :=
  ∀ (s : State) (b : Byte), s.port = .p → s.dec.phase = .waitData → isPayload s.cfg b = true →
    (s.dec.ovf = true → exec (.byte b) s = .next { ensureFill s with rsp := some ⟨.p, 0x00000000#32⟩ })
    ∧ (s.dec.ovf = false → s.dec.len.toNat = s.cfg.cap →
        exec (.byte b) s
          = .next { ensureFill s with dec := { s.dec with ovf := true }
                                      cnt := { s.cnt with ovf := satInc s.cnt.ovf }
                                      rsp := some ⟨.p, 0x00000003#32⟩ })
    ∧ (s.dec.ovf = false → s.dec.len.toNat < s.cfg.cap → s.dec.noslot = true →
        exec (.byte b) s
          = .next { ensureFill s with dec := { s.dec with len := s.dec.len + 1#16
                                                          ck := fold s.cfg.fold s.dec.ck b }
                                      rsp := some ⟨.p, 0x00000000#32⟩ })
    ∧ (s.dec.ovf = false → s.dec.len.toNat < s.cfg.cap → s.dec.noslot = false →
        (acquireForFill (ensureFill s)).slot = none →
        exec (.byte b) s
          = .next { ensureFill s with dec := { s.dec with len := s.dec.len + 1#16
                                                          ck := fold s.cfg.fold s.dec.ck b
                                                          noslot := true }
                                      rsp := some ⟨.p, 0x00000000#32⟩ })
    ∧ (∀ f, s.dec.ovf = false → s.dec.len.toNat < s.cfg.cap → s.dec.noslot = false →
        (acquireForFill (ensureFill s)).slot = some f →
        exec (.byte b) s
          = .next { memWrite (acquireForFill (ensureFill s)).st f s.dec.len.toNat b with
              dec := { s.dec with len := s.dec.len + 1#16, ck := fold s.cfg.fold s.dec.ck b }
              rsp := some ⟨.p, if (acquireForFill (ensureFill s)).lostOld then 0x00000010#32
                               else 0x00000000#32⟩ })

/-- `BOUNDARY_ONLY` (R125, R126): while an overflowed attempt runs, a start delimiter is discarded like a
payload byte. -/
def Obligations.BoundaryOnlyDiscardsStart : Prop :=
  ∀ (s : State) (b : Byte), cfgOk s.cfg = true → s.port = .p → s.dec.phase = .waitData →
    s.dec.ovf = true → s.cfg.ovfResync = .boundaryOnly → isStart s.cfg b = true →
      exec (.byte b) s = .next { ensureFill s with rsp := some ⟨.p, 0x00000000#32⟩ }

/-- R127: a boundary byte on an overflowed attempt goes straight to the idle phase with outcome `RESYNC`;
nothing is published and no counter moves. -/
def Obligations.BoundaryEndsOverflowedAttempt : Prop :=
  ∀ (s : State) (b : Byte), cfgOk s.cfg = true → s.port = .p → s.dec.phase = .waitData →
    s.dec.ovf = true →
    ((s.cfg.framing = .delim ∧ b = s.cfg.endByte) ∨ (s.cfg.framing = .cksum ∧ b = s.cfg.introByte)) →
      exec (.byte b) s = .next { ensureFill s with dec := idleDec s.cfg
                                                   rsp := some ⟨.p, 0x00000002#32⟩ }

/-- The introducer on an attempt that has not overflowed moves to `WaitChecksumHi`; it is neither stored nor
folded (R125). -/
def Obligations.IntroducerOpensTheTrailer : Prop :=
  ∀ s : State, cfgOk s.cfg = true → s.port = .p → s.dec.phase = .waitData → s.dec.ovf = false →
    s.cfg.framing = .cksum →
      exec (.byte s.cfg.introByte) s
        = .next { ensureFill s with dec := { s.dec with phase := .waitChecksumHi }
                                    rsp := some ⟨.p, 0x00000000#32⟩ }

/-- R130: `WaitChecksumHi`. A hex digit is kept as the high nibble; a start delimiter restarts; any other byte
is a malformed trailer, counted, and the attempt is abandoned. -/
def Obligations.FirstTrailerCharacter : Prop :=
  ∀ (s : State) (b : Byte), s.port = .p → s.dec.phase = .waitChecksumHi →
    (∀ n, hexVal s.cfg.hexLower b = some n →
      exec (.byte b) s
        = .next { ensureFill s with dec := { s.dec with rx := n ++ 0x0#4, phase := .waitChecksumLo }
                                    rsp := some ⟨.p, 0x00000000#32⟩ })
    ∧ (hexVal s.cfg.hexLower b = none → b = s.cfg.startByte →
        exec (.byte b) s = .next { ensureFill s with dec := freshDec s.cfg
                                                     rsp := some ⟨.p, 0x00000002#32⟩ })
    ∧ (hexVal s.cfg.hexLower b = none → b ≠ s.cfg.startByte →
        exec (.byte b) s
          = .next { ensureFill s with dec := idleDec s.cfg
                                      cnt := { s.cnt with malf := satInc s.cnt.malf }
                                      rsp := some ⟨.p, 0x00000002#32⟩ })

/-- `WaitChecksumLo` without a match (R131, 40_checksum.md R115): a digit that makes a received checksum
different from the calculated one is a checksum mismatch, counted; a start delimiter restarts; any other byte
is a malformed trailer, counted. Nothing is published. -/
def Obligations.SecondTrailerCharacterWithoutMatch : Prop :=
  ∀ (s : State) (b : Byte), s.port = .p → s.dec.phase = .waitChecksumLo →
    (∀ n, hexVal s.cfg.hexLower b = some n → s.dec.rx ||| (0x0#4 ++ n) ≠ s.dec.ck →
      exec (.byte b) s
        = .next { ensureFill s with dec := idleDec s.cfg
                                    cnt := { s.cnt with ckerr := satInc s.cnt.ckerr }
                                    rsp := some ⟨.p, 0x00000002#32⟩ })
    ∧ (hexVal s.cfg.hexLower b = none → b = s.cfg.startByte →
        exec (.byte b) s = .next { ensureFill s with dec := freshDec s.cfg
                                                     rsp := some ⟨.p, 0x00000002#32⟩ })
    ∧ (hexVal s.cfg.hexLower b = none → b ≠ s.cfg.startByte →
        exec (.byte b) s
          = .next { ensureFill s with dec := idleDec s.cfg
                                      cnt := { s.cnt with malf := satInc s.cnt.malf }
                                      rsp := some ⟨.p, 0x00000002#32⟩ })

/-- R128: a byte that completes a frame. Without a slot the frame is dropped and counted; with one it goes to
`PUBLISH` with the length `dec.len`. The decoder is idle afterwards. -/
def Obligations.CompletedFrameIsPublishedOrDropped : Prop :=
  ∀ (s : State) (b : Byte), cfgOk s.cfg = true → s.port = .p → Completes s b →
    ((s.dec.noslot = true ∨ (acquireForFill (ensureFill s)).slot = none) →
      exec (.byte b) s
        = .next { ensureFill s with dec := idleDec s.cfg
                                    cnt := { s.cnt with drop := satInc s.cnt.drop }
                                    rsp := some ⟨.p, 0x00000009#32⟩ })
    ∧ (∀ f, s.dec.noslot = false → (acquireForFill (ensureFill s)).slot = some f →
        exec (.byte b) s
          = .next { (publish (acquireForFill (ensureFill s)).st f s.dec.len).st with
              dec := idleDec s.cfg
              rsp := some ⟨.p, 0x0000#16 ++ (0#11
                ++ BitVec.ofBool ((acquireForFill (ensureFill s)).lostOld
                  || (publish (acquireForFill (ensureFill s)).st f s.dec.len).lostOld)
                ++ pubCode (publish (acquireForFill (ensureFill s)).st f s.dec.len).pub ++ 1#2)⟩ })

/-! ## The arbiter -/

/-- R150: `ENSURE_FILL` makes the lowest-numbered `Free` slot `Filling` when no slot is, and does nothing
else; it is idempotent and never makes a second slot `Filling`. -/
def Obligations.EnsureFillClaimsLowestFreeSlot : Prop :=
  ∀ s : State,
    ((∃ i, slotIs s i .filling = true) → ensureFill s = s)
    ∧ ((∀ i, slotIs s i .filling = false) → s.slot0.state = .free →
        ensureFill s = { s with slot0 := { s.slot0 with state := .filling } })
    ∧ ((∀ i, slotIs s i .filling = false) → s.slot0.state ≠ .free → s.cfg.nslots = 2 →
        s.slot1.state = .free → ensureFill s = { s with slot1 := { s.slot1 with state := .filling } })
    ∧ ((∀ i, slotIs s i .free = false) → ensureFill s = s)
    ∧ ensureFill (ensureFill s) = ensureFill s
    ∧ (AtMostOneFilling s → AtMostOneFilling (ensureFill s))

/-- R152: inside a `BYTE` step of a good state `ACQUIRE_FOR_FILL` gives no slot exactly when every slot is
`Ready` and the policy does not allow one to be reclaimed, or allows it but each is held; a slot it gives is
`Filling`. -/
def Obligations.AcquireGivesNoneOnlyWhenAllReady : Prop :=
  ∀ s : State, Inv s →
    ((acquireForFill (ensureFill s)).slot = none ↔
      EverySlotReady s ∧ (s.cfg.policy = .overwrite → ∀ i, slotIs s i .ready = true → s.arb.held = some i))
    ∧ ∀ f, (acquireForFill (ensureFill s)).slot = some f →
        slotIs (acquireForFill (ensureFill s)).st f .filling = true

/-- R153 and R154, one slot: the first payload byte of an attempt while the only slot is `Ready`. Under
`OVERWRITE` with the slot not held it is reclaimed, the old frame counted as lost, and the byte stored at
offset 0; under `DROP`, or with the slot held, nothing is stored and the attempt has no slot. -/
def Obligations.OneSlotReclaimAtFirstPayloadByte : Prop :=
  ∀ (s : State) (b : Byte), Inv s → s.port = .p → s.cfg.nslots = 1 → s.slot0.state = .ready →
    s.dec.phase = .waitData → s.dec.len = 0x0000#16 → isPayload s.cfg b = true →
    (s.cfg.policy = .overwrite → s.arb.held = none →
      exec (.byte b) s
        = .next { s with dec := { s.dec with len := 1#16, ck := fold s.cfg.fold s.cfg.ckInit b }
                         slot0 := { s.slot0 with state := .filling, mem := Memory.write s.slot0.mem 0 b }
                         cnt := { s.cnt with drop := satInc s.cnt.drop }
                         rsp := some ⟨.p, 0x00000010#32⟩ })
    ∧ ((s.cfg.policy = .drop ∨ s.arb.held = some .zero) →
        exec (.byte b) s
          = .next { s with dec := { s.dec with len := 1#16, ck := fold s.cfg.fold s.cfg.ckInit b
                                               noslot := true }
                           rsp := some ⟨.p, 0x00000000#32⟩ })

/-- R154 and R156, two slots: what a completed frame in slot `f` does while the other slot `o` is `Ready`,
under each policy. Where the new frame is dropped, slot `f` stays `Filling` as it is; where it is published,
its length is `dec.len`. -/
def Obligations.TwoSlotCompletionFollowsPolicy : Prop :=
  ∀ (s : State) (b : Byte) (f o : SlotIdx), Inv s → s.port = .p → Completes s b → s.dec.noslot = false →
    slotIs s f .filling = true → slotIs s o .ready = true →
    ∃ t, exec (.byte b) s = .next t ∧ t.dec = idleDec s.cfg
      ∧ ((s.cfg.policy = .drop ∨ (s.cfg.policy = .overwrite ∧ s.arb.held = some o)) →
          slotAt t f = slotAt s f ∧ slotAt t o = slotAt s o ∧ t.arb = s.arb
            ∧ t.cnt = { s.cnt with drop := satInc s.cnt.drop } ∧ t.rsp = some ⟨.p, 0x00000009#32⟩)
      ∧ (s.cfg.policy = .overwrite → s.arb.held ≠ some o →
          slotAt t f = { slotAt s f with state := .ready, length := s.dec.len }
            ∧ slotAt t o = { slotAt s o with state := .filling } ∧ t.arb = s.arb
            ∧ t.cnt = { s.cnt with drop := satInc s.cnt.drop } ∧ t.rsp = some ⟨.p, 0x00000015#32⟩)
      ∧ (s.cfg.policy = .swap →
          slotAt t f = { slotAt s f with state := .ready, length := s.dec.len }
            ∧ slotAt t o = slotAt s o ∧ t.arb = { s.arb with older := o }
            ∧ t.cnt = s.cnt ∧ t.rsp = some ⟨.p, 0x00000005#32⟩)

/-- R154, R156: with no other frame `Ready` all policies behave alike: the completed frame in slot `f` is
published with its length, and with two slots the other slot becomes `Filling`. -/
def Obligations.CompletionWithNoReadyFrameIsPublished : Prop :=
  ∀ (s : State) (b : Byte) (f : SlotIdx), Inv s → s.port = .p → Completes s b → s.dec.noslot = false →
    slotIs s f .filling = true → readyOut s = false →
    ∃ t, exec (.byte b) s = .next t ∧ t.dec = idleDec s.cfg ∧ t.arb = s.arb ∧ t.cnt = s.cnt
      ∧ slotAt t f = { slotAt s f with state := .ready, length := s.dec.len }
      ∧ (∀ o, o ≠ f → s.cfg.nslots = 2 → slotAt t o = { slotAt s o with state := .filling })
      ∧ t.rsp = some ⟨.p, 0x00000005#32⟩

/-! ## Frames -/

/-- The frame of `BYTE` (20_memory.md R61, R67; 10_state.md R48): it leaves the configuration, the pending
input, the port and the hold; `arb.older` changes only under `SWAP`; a slot's length only when the slot is
`Ready` afterwards; and every byte of payload memory reads as before but the one at the location the step
stores to, which is inside the slot and reads as the byte. -/
def Obligations.ByteChangesOnlyItsLocation : Prop :=
  ∀ (s t : State) (b : Byte), exec (.byte b) s = .next t →
    t.cfg = s.cfg ∧ t.input = s.input ∧ t.port = s.port ∧ t.arb.held = s.arb.held
    ∧ (s.cfg.policy ≠ .swap → t.arb.older = s.arb.older)
    ∧ (∀ i, (slotAt t i).length ≠ (slotAt s i).length → slotIs t i .ready = true)
    ∧ (∀ i off, storeLocation s b ≠ some (i, off) → payloadByte t i off = payloadByte s i off)
    ∧ (∀ i off, storeLocation s b = some (i, off) → off < s.cfg.cap ∧ payloadByte t i off = b)

/-- 42_arbiter.md R163: what the consumer side never does. A command on port C never changes the decoder
registers, a payload byte, a length, a counter, `arb.older` or the configuration; it changes the state of no
slot it does not hold, and of the held one only to `Free`; it never makes a slot `Filling`; and it always
answers. -/
def Obligations.ConsumerNeverTouchesProducerState : Prop :=
  ∀ (s : State) (i : Instr), s.port = .c →
    (∀ t, exec i s = .next t →
      t.dec = s.dec ∧ t.cnt = s.cnt ∧ t.arb.older = s.arb.older ∧ t.cfg = s.cfg ∧ t.input = s.input
      ∧ t.port = s.port ∧ t.rsp ≠ none
      ∧ (∀ j, (slotAt t j).mem = (slotAt s j).mem ∧ (slotAt t j).length = (slotAt s j).length)
      ∧ (∀ j, (slotAt t j).state ≠ (slotAt s j).state →
          i = .release ∧ s.arb.held = some j ∧ (slotAt t j).state = .free))
    ∧ (Inv s → ∃ t, exec i s = .next t)

/-- 60_exceptions.md R192: a command that is answered with any status but `OK` leaves the whole state
unchanged and answers value 0. -/
def Obligations.RefusedCommandsChangeNothing : Prop :=
  ∀ (s t : State) (i : Instr) (r : Response), exec i s = .next t → t.rsp = some r →
    statusField r.word ≠ 0x0#4 →
      t = { s with rsp := some r } ∧ r.port = s.port ∧ r.word.toNat % 2 ^ 28 = 0

/-- 10_state.md R36: while a slot is held no producer-side operation changes it or its payload memory, under
any policy, and the hold stays. -/
def Obligations.HeldSlotIsUntouchedByProducer : Prop :=
  ∀ (s t : State) (i : Instr) (h : SlotIdx), Inv s → s.port = .p → s.arb.held = some h →
    exec i s = .next t → slotAt t h = slotAt s h ∧ t.arb.held = some h

/-- 10_state.md R47: under `DROP` and `SWAP` a `BYTE` never changes a `Ready` slot; under `OVERWRITE` it
changes one only by giving the frame up whole, which its response says (`lost_old`). -/
def Obligations.ReadySlotsAreImmutable : Prop :=
  ∀ (s t : State) (b : Byte) (j : SlotIdx) (r : Response), Inv s → exec (.byte b) s = .next t →
    t.rsp = some r → slotIs s j .ready = true →
    slotAt t j = slotAt s j
      ∨ (s.cfg.policy = .overwrite ∧ s.arb.held ≠ some j ∧ saysLostOld r.word
          ∧ t.cnt.drop = satInc s.cnt.drop)

/-- 10_state.md R32: a `BYTE` never makes a slot `Free`, never takes a slot from `Ready` but under
`OVERWRITE`, and never takes a slot outside the pool anywhere. -/
def Obligations.ByteMovesSlotsLegally : Prop :=
  ∀ (s t : State) (b : Byte) (j : SlotIdx), Inv s → exec (.byte b) s = .next t →
    ((slotAt t j).state = .free → (slotAt s j).state = .free)
    ∧ (slotIs s j .ready = true → s.cfg.policy ≠ .overwrite → slotIs t j .ready = true)
    ∧ (hasSlot s.cfg j = false → slotAt t j = slotAt s j)

/-! ## Invariants -/

/-- The invariant holds in the reset state of every configuration that has one. -/
def Obligations.InvariantHoldsAtReset : Prop :=
  ∀ (c : Config) (r : State), State.resetOf c = some r → Inv r

/-- The invariant of 10_state.md section 5 is kept by every step, whatever the input. -/
def Obligations.InvariantIsKeptByStep : Prop :=
  ∀ s t : State, Inv s → step s = .next t → Inv t

/-- 60_exceptions.md R185, 00_scope.md R15: in a good state the step always answers a next state: no trap,
no fault, no stop. -/
def Obligations.GoodStateNeverStops : Prop := ∀ s : State, Inv s → ∃ t, step s = .next t

/-- 10_state.md R45: at most one slot is `Filling`, for any interleaving: it is so after reset and every step
keeps it so, in any state. -/
def Obligations.AtMostOneSlotIsFilling : Prop :=
  (∀ (c : Config) (r : State), State.resetOf c = some r → AtMostOneFilling r)
  ∧ ∀ s t : State, AtMostOneFilling s → step s = .next t → AtMostOneFilling t

/-- 10_state.md R46: immediately after every `BYTE` step no slot is `Filling` if and only if every slot is
`Ready`; if some slot is not `Ready`, `ENSURE_FILL` makes the count of `Filling` slots one; with two slots under
`DROP` or `OVERWRITE` exactly one slot is `Filling` at every instant. -/
def Obligations.FillingSlotAfterEveryByte : Prop :=
  (∀ (s t : State) (b : Byte), Inv s → s.port = .p → exec (.byte b) s = .next t →
    (fillIdx t = none ↔ EverySlotReady t))
  ∧ (∀ s : State, Inv s → ¬ EverySlotReady s →
      (∃ f, slotIs (ensureFill s) f .filling = true) ∧ AtMostOneFilling (ensureFill s))
  ∧ ∀ s t : State, Inv s → step s = .next t → s.cfg.nslots = 2 → s.cfg.policy ≠ .swap →
      (∃ f, slotIs t f .filling = true) ∧ AtMostOneFilling t

/-- The decoder and the `Filling` slot hold exactly the payload bytes accepted in the current attempt, in
arrival order (10_state.md R49 (c) and (g)): it is so after reset with none accepted, each `BYTE` keeps it so
with the list the transition table gives, and no command of the consumer disturbs it. -/
def Obligations.AttemptTracksAcceptedBytes : Prop :=
  (∀ (c : Config) (r : State), State.resetOf c = some r → Tracks r [])
  ∧ (∀ (s t : State) (b : Byte) (acc : List Byte), Inv s → s.port = .p → Tracks s acc →
      exec (.byte b) s = .next t → Tracks t (acceptedAfter s b acc))
  ∧ ∀ (s t : State) (i : Instr) (acc : List Byte), Inv s → s.port = .c → Tracks s acc →
      exec i s = .next t → Tracks t acc

/-! ## Counters and outputs -/

/-- 10_state.md R40: the counters are bounded and never wrap: an increment is `min (x + 1) 0xFFFF`, and no
command makes a counter smaller. -/
def Obligations.CountersSaturate : Prop :=
  (∀ x : Half, (satInc x).toNat = min (x.toNat + 1) 0xFFFF)
  ∧ ∀ (s t : State) (i : Instr), exec i s = .next t →
      s.cnt.ovf.toNat ≤ t.cnt.ovf.toNat ∧ s.cnt.drop.toNat ≤ t.cnt.drop.toNat
      ∧ s.cnt.ckerr.toNat ≤ t.cnt.ckerr.toNat ∧ s.cnt.malf.toNat ≤ t.cnt.malf.toNat

/-- 10_state.md R41: the single cause of each counter's increment. `drop` counts a dropped frame and a lost
old frame, which the response of the `BYTE` reports. Nothing but a `BYTE` on port P moves a counter. -/
def Obligations.CounterCauses : Prop :=
  (∀ (s t : State) (i : Instr), (s.port = .c ∨ ∀ b, i ≠ .byte b) → exec i s = .next t → t.cnt = s.cnt)
  ∧ ∀ (s t : State) (b : Byte) (r : Response), Inv s → s.port = .p → exec (.byte b) s = .next t →
    t.rsp = some r →
    ((s.dec.phase = .waitData ∧ isPayload s.cfg b = true ∧ s.dec.len.toNat = s.cfg.cap
        ∧ s.dec.ovf = false) → t.cnt.ovf = satInc s.cnt.ovf)
    ∧ (¬ (s.dec.phase = .waitData ∧ isPayload s.cfg b = true ∧ s.dec.len.toNat = s.cfg.cap
        ∧ s.dec.ovf = false) → t.cnt.ovf = s.cnt.ovf)
    ∧ ((saysDropped r.word ∨ saysLostOld r.word) → t.cnt.drop = satInc s.cnt.drop)
    ∧ (¬ (saysDropped r.word ∨ saysLostOld r.word) → t.cnt.drop = s.cnt.drop)
    ∧ ((s.dec.phase = .waitChecksumLo ∧ isHex s.cfg b = true ∧ ¬ Completes s b) →
        t.cnt.ckerr = satInc s.cnt.ckerr)
    ∧ (¬ (s.dec.phase = .waitChecksumLo ∧ isHex s.cfg b = true ∧ ¬ Completes s b) →
        t.cnt.ckerr = s.cnt.ckerr)
    ∧ (((s.dec.phase = .waitChecksumHi ∨ s.dec.phase = .waitChecksumLo) ∧ isHex s.cfg b = false
        ∧ b ≠ s.cfg.startByte) → t.cnt.malf = satInc s.cnt.malf)
    ∧ (¬ ((s.dec.phase = .waitChecksumHi ∨ s.dec.phase = .waitChecksumLo) ∧ isHex s.cfg b = false
        ∧ b ≠ s.cfg.startByte) → t.cnt.malf = s.cnt.malf)

/-- 60_exceptions.md R199: `ready` is 1 exactly when some slot is `Ready`, which is exactly when a `TAKE`
would respond `OK`; when it is 0 a `TAKE` would respond `EMPTY`. -/
def Obligations.ReadyMeansTakeAnswersOk : Prop :=
  ∀ s : State, Inv s →
    (readyOut s = true ↔ ∃ i, slotIs s i .ready = true)
    ∧ ∃ (t : State) (r : Response), exec .take (onPortOf .c s) = .next t ∧ t.rsp = some r
        ∧ (readyOut s = true ↔ statusField r.word = 0x0#4)
        ∧ (readyOut s = false ↔ r.word = 0x10000000#32)

/-- 60_exceptions.md R200: `pause_req` is 1 exactly when `PAUSE_EN` and every slot is `Ready`; with two slots
under `DROP` or `OVERWRITE` it is never 1; and the next `RELEASE` lowers it. -/
def Obligations.PauseRequestMeansEverySlotReady : Prop :=
  ∀ s : State, Inv s →
    (pauseReqOut s = true ↔ s.cfg.pauseEn = true ∧ EverySlotReady s)
    ∧ (s.cfg.nslots = 2 → s.cfg.policy ≠ .swap → pauseReqOut s = false)
    ∧ ∀ t, s.port = .c → s.arb.held ≠ none → exec .release s = .next t → pauseReqOut t = false

/-- 10_state.md R20: the consumer can neither read nor write the decoder registers: a command on port C leaves
them, and in a state that differs in them alone it gives the same next state, but for those registers. -/
def Obligations.ConsumerCannotObserveDecoder : Prop :=
  ∀ (s t : State) (d : Dec) (i : Instr), s.port = .c → exec i s = .next t →
    t.dec = s.dec ∧ exec i { s with dec := d } = .next { t with dec := d }

/-! ## Checksum and hex -/

/-- 40_checksum.md R112: the table of `HEXVAL`, for every byte. -/
def Obligations.HexDigitTable : Prop :=
  ∀ (lower : Bool) (b : Byte) (n : Nibble), hexVal lower b = some n ↔
    (0x30 ≤ b.toNat ∧ b.toNat ≤ 0x39 ∧ n.toNat = b.toNat - 0x30)
      ∨ (0x41 ≤ b.toNat ∧ b.toNat ≤ 0x46 ∧ n.toNat = b.toNat - 0x37)
      ∨ (lower = true ∧ 0x61 ≤ b.toNat ∧ b.toNat ≤ 0x66 ∧ n.toNat = b.toNat - 0x57)

/-- 40_checksum.md R113: what `HEXENC` writes is decoded to the same nibble under either setting of
`HEX_LOWER`, and a checksum byte written as two characters is assembled again. -/
def Obligations.TrailerRoundTrip : Prop :=
  (∀ n : Nibble, (hexEnc n).toNat = if n.toNat ≤ 9 then 0x30 + n.toNat else 0x37 + n.toNat)
  ∧ ∀ (lower : Bool) (c : Byte),
      ∃ hi lo, hexVal lower (hexEnc (c.extractLsb' 4 4)) = some hi
        ∧ hexVal lower (hexEnc (c.extractLsb' 0 4)) = some lo ∧ rxLow (rxHigh hi) lo = c

/-- `FOLD` is any total function of two bytes (40_checksum.md R110): every such function is the fold of some
well-formed configuration, and the default is the exclusive-or. That a fold is held as a table is the model's
choice (log entry 3). -/
def Obligations.EveryFoldIsConfigurable : Prop :=
  (∀ f : Byte → Byte → Byte, ∃ c : Config, cfgOk c = true ∧ ∀ acc input, fold c.fold acc input = f acc input)
  ∧ ∀ acc input : Byte, fold .xor acc input = acc ^^^ input

/-! ## Runs -/

/-- A well-formed frame (30_encoding.md R80 to R82) that arrives at an idle decoder with no frame waiting is
published: each byte is answered `OK`, the last with `COMPLETE, PUBLISHED` and the ones before with `NONE`;
afterwards the decoder is idle and a slot is `Ready` whose length and bytes are the payload's, in order. -/
def Obligations.WellFormedFrameIsPublished : Prop :=
  ∀ (s : State) (payload : List Byte), Inv s → s.dec = idleDec s.cfg → readyOut s = false →
    payloadOk s.cfg payload = true →
    ∃ (t : State) (f : SlotIdx),
      deliver (wireFrame s.cfg payload) s
        = some (List.replicate ((wireFrame s.cfg payload).length - 1) 0x0000#16 ++ [0x0005#16], t)
      ∧ t.dec = idleDec s.cfg ∧ slotIs t f .ready = true
      ∧ (slotAt t f).length.toNat = payload.length
      ∧ ∀ k (hk : k < payload.length), payloadByte t f k = payload[k]

/-- A payload longer than the capacity (41_decoder.md R126, R127): from the begin of an attempt every byte is
answered `OK`, exactly the one after the first `CAP` with `OVERFLOW`; the overflow is counted once, no frame
becomes `Ready`, and the boundary byte returns the decoder to its idle phase with `RESYNC`. -/
def Obligations.OversizedPayloadIsNeverPublished : Prop :=
  ∀ (s : State) (payload : List Byte), Inv s → s.dec = freshDec s.cfg → readyOut s = false →
    payload.all (isPayload s.cfg) = true → s.cfg.cap < payload.length →
    ∃ t : State,
      deliver (payload ++ [boundaryByte s.cfg]) s
        = some (List.replicate s.cfg.cap 0x0000#16 ++ [0x0003#16]
            ++ List.replicate (payload.length - s.cfg.cap - 1) 0x0000#16 ++ [0x0002#16], t)
      ∧ t.dec = idleDec s.cfg ∧ readyOut t = false
      ∧ t.cnt = { s.cnt with ovf := satInc s.cnt.ovf }

/-- The view of a held frame is stable (10_state.md R36, 43_consumer_port.md R170): whatever inputs arrive on
both ports, as long as none is a `RELEASE` on port C or a reset, the machine runs on, the hold stays, and the
held slot keeps its state, its length and every byte. -/
def Obligations.HeldFrameIsStableUntilRelease : Prop :=
  ∀ (k : Nat) (s : State) (h : SlotIdx), Inv s → s.arb.held = some h → (∀ i ∈ s.input, keepsHold i) →
    ∃ t, core.run k s = .next t ∧ t.arb.held = some h ∧ slotAt t h = slotAt s h

/-! ## Payload memory at reset -/

/-- What a payload byte reads as after reset: nothing has been written, and the byte is the free value of its
slot and offset, whatever that is. This is the model's choice (DESIGN CHOICE, log entry 5): 10_state.md R50 calls
the contents unspecified, says that reset does not clear them, and lets a model use any. -/
def Obligations.PayloadIsFreeAfterReset : Prop :=
  ∀ (c : Config) (r : State), State.resetOf c = some r → ∀ (i : SlotIdx) (off : Nat),
    Memory.read (slotAt r i).mem off = none ∧ payloadByte r i off = Config.payloadAtReset (idxNat i) off
end

