-- ==== Sys2Proof/Laws/Check.lean ====
section
/-! SUPPORT. A test that evaluates: a state that passes it meets the invariant. It is used to show that
concrete states meet the hypotheses of the statements. -/

namespace Sys2Proof.Laws

open Sys2Proof.Machine

/-- The test of one slot. -/
def slotCheck (s : State) (i : SlotIdx) : Bool :=
  decide (Memory.wf (slotAt s i).mem) && decide (Memory.below (slotAt s i).mem s.cfg.cap)
    && decide ((slotAt s i).length.toNat ≤ s.cfg.cap)
    && (s.arb.held != some i || slotIs s i .ready)
    && (!slotIs s i .ready || decide (Memory.written (slotAt s i).mem (slotAt s i).length.toNat))

/-- The test of the slots together. -/
def slotsCheck (s : State) : Bool :=
  slotCheck s .zero && slotCheck s .one
    && (s.cfg.nslots == 2 || s.slot1 == Slot.atReset .free)
    && !(slotIs s .zero .filling && slotIs s .one .filling)
    && (s.cfg.policy == .swap || !(slotIs s .zero .ready && slotIs s .one .ready))
    && (s.cfg.nslots != 2 || s.cfg.policy == .swap || fillIdx s != none)

/-- The test of the decoder registers. -/
def decCheck (c : Config) (d : Dec) : Bool :=
  decide (d.len.toNat ≤ c.cap)
    && (!d.ovf || (d.phase == .waitData && d.len.toNat == c.cap))
    && (d.phase != .waitStart || d == clearedDec c .waitStart)
    && (c.useStart || d.phase != .waitStart)
    && (c.framing != .delim || (d.phase != .waitChecksumHi && d.phase != .waitChecksumLo))
    && (!d.noslot || decide (0 < d.len.toNat))
    && (d.len.toNat != 0 || d.ck == c.ckInit)
    && (d.phase == .waitChecksumLo || d.rx == 0x00#8)
    && (d.phase != .waitChecksumLo || d.rx.toNat % 16 == 0)

/-- The test of the stored bytes of the attempt. -/
def storedCheck (s : State) : Bool :=
  s.dec.len.toNat == 0 || s.dec.noslot
    || match fillIdx s with
       | some f => decide (Memory.written (slotAt s f).mem s.dec.len.toNat)
       | none => false

/-- The test of a whole state. -/
def invCheck (s : State) : Bool :=
  cfgOk s.cfg && slotsCheck s && decCheck s.cfg s.dec && storedCheck s

theorem slotInv_of_check (s : State) (h : slotsCheck s = true) : SlotInv s := by
  simp only [slotsCheck, slotCheck, Bool.and_eq_true, decide_eq_true_eq] at h
  obtain ⟨⟨⟨⟨⟨⟨⟨⟨⟨w0, b0⟩, l0⟩, h0⟩, r0⟩, ⟨⟨⟨w1, b1⟩, l1⟩, h1⟩, r1⟩, ha⟩, hf⟩, hr⟩, ht⟩ := h
  refine ⟨?_, ?_, ?_, ?_, ?_, ?_, ?_, ?_, ?_⟩
  · intro i; cases i <;> assumption
  · intro i; cases i <;> assumption
  · intro i; cases i <;> assumption
  · intro hn; simpa [hn] using ha
  · rintro ⟨hz, ho⟩
    simp [hz, ho] at hf
  · intro i hi; cases i <;> simp_all
  · rintro hp ⟨hz, ho⟩
    simp [hp, hz, ho] at hr
  · intro h2 hp; simpa [h2, hp] using ht
  · intro i hi
    cases i
    · simp only [hi, Bool.not_true, Bool.or_eq_true, Bool.false_eq_true, false_or, decide_eq_true_eq] at r0
      exact r0
    · simp only [hi, Bool.not_true, Bool.or_eq_true, Bool.false_eq_true, false_or, decide_eq_true_eq] at r1
      exact r1

theorem decInv_of_check (c : Config) (d : Dec) (h : decCheck c d = true) : DecInv c d := by
  simp only [decCheck, Bool.and_eq_true, Bool.or_eq_true, Bool.not_eq_true', decide_eq_true_eq,
    beq_iff_eq, bne_iff_ne] at h
  obtain ⟨⟨⟨⟨⟨⟨⟨⟨h1, h2⟩, h3⟩, h4⟩, h5⟩, h6⟩, h7⟩, h8⟩, h9⟩ := h
  refine ⟨h1, ?_, ?_, ?_, ?_, ?_, ?_, ?_, ?_⟩ <;> intro hh
  · simpa [hh] using h2
  · simpa [hh] using h3
  · simpa [hh] using h4
  · simpa [hh] using h5
  · simpa [hh] using h6
  · simpa [hh] using h7
  · simpa [hh] using h8
  · simpa [hh] using h9

/-- A state that passes the test meets the invariant. -/
theorem inv_of_check (s : State) (h : invCheck s = true) : Inv s := by
  simp only [invCheck, Bool.and_eq_true] at h
  obtain ⟨⟨⟨hc, hs⟩, hd⟩, ha⟩ := h
  refine ⟨hc, slotInv_of_check s hs, decInv_of_check _ _ hd, ?_⟩
  intro hl hn
  simp only [storedCheck, Bool.or_eq_true, beq_iff_eq, hn] at ha
  rcases ha with (h0 | h0) | h0
  · omega
  · simp at h0
  · split at h0
    next f hf => exact ⟨f, hf, by simpa using h0⟩
    next => simp at h0

end Sys2Proof.Laws
end

