-- ==== Sys2Proof/Laws/Memory.lean ====
section
/-! SUPPORT. The laws of a payload memory: a read after a write, the canonical form kept by every write,
and equal reads of equal canonical forms. -/

namespace Sys2Proof.Laws

open Sys2Proof.Machine

@[simp] theorem read_nil (k : Nat) : Memory.read [] k = none := rfl

theorem read_cons (a : Nat) (w : Byte) (m : Memory) (k : Nat) :
    Memory.read ((a, w) :: m) k = if k = a then some w else Memory.read m k := rfl

/-- Below every listed offset nothing has been written. -/
theorem read_of_lt (m : Memory) (k : Nat) (h : ∀ x ∈ m, k < x.1) : Memory.read m k = none := by
  induction m with
  | nil => rfl
  | cons x m ih =>
    obtain ⟨a, w⟩ := x
    have ha : k < a := h (a, w) (by simp)
    have hne : k ≠ a := by omega
    rw [read_cons, if_neg hne]
    exact ih fun y hy => h y (by simp [hy])

/-- A read after a write gives the byte written there, and every other offset reads as before. -/
theorem read_write (m : Memory) (off : Nat) (v : Byte) (k : Nat) :
    Memory.read (Memory.write m off v) k = if k = off then some v else Memory.read m k := by
  induction m with
  | nil => rfl
  | cons x m ih =>
    obtain ⟨a, w⟩ := x
    simp only [Memory.write]
    split
    · rfl
    · split
      · subst a
        simp only [read_cons]
        split <;> simp_all
      · simp only [read_cons, ih]
        split
        · have hne : k ≠ off := by omega
          simp [hne]
        · rfl

@[simp] theorem read_write_same (m : Memory) (off : Nat) (v : Byte) :
    Memory.read (Memory.write m off v) off = some v := by simp [read_write]

theorem read_write_other (m : Memory) (off : Nat) (v : Byte) (k : Nat) (h : k ≠ off) :
    Memory.read (Memory.write m off v) k = Memory.read m k := by simp [read_write, h]

/-- What is listed after a write was written or was listed before. -/
theorem mem_write (m : Memory) (off : Nat) (v : Byte) (x : Host.Cell) (hx : x ∈ Memory.write m off v) :
    x = (off, v) ∨ x ∈ m := by
  induction m with
  | nil => simpa [Memory.write] using hx
  | cons y m ih =>
    obtain ⟨a, w⟩ := y
    simp only [Memory.write] at hx
    split at hx
    · simpa using hx
    · split at hx
      · rcases List.mem_cons.1 hx with h | h
        · exact .inl h
        · exact .inr (List.mem_cons_of_mem _ h)
      · rcases List.mem_cons.1 hx with h | h
        · exact .inr (by simp [h])
        · rcases ih h with h | h
          · exact .inl h
          · exact .inr (List.mem_cons_of_mem _ h)

/-- A write keeps the canonical form. -/
theorem write_wf (m : Memory) (off : Nat) (v : Byte) (h : Memory.wf m) :
    Memory.wf (Memory.write m off v) := by
  induction m with
  | nil => simp [Memory.write, Memory.wf]
  | cons y m ih =>
    obtain ⟨a, w⟩ := y
    obtain ⟨hlt, hm⟩ := List.pairwise_cons.1 h
    simp only [Memory.write]
    split
    next hoff =>
      refine List.pairwise_cons.2 ⟨fun x hx => ?_, h⟩
      rcases List.mem_cons.1 hx with rfl | hx
      · exact hoff
      · exact lt_trans hoff (hlt x hx)
    next hoff =>
      split
      next heq =>
        subst heq
        exact List.pairwise_cons.2 ⟨hlt, hm⟩
      next hne =>
        refine List.pairwise_cons.2 ⟨fun x hx => ?_, ih hm⟩
        rcases mem_write m off v x hx with rfl | hx
        · change a < off
          omega
        · exact hlt x hx

/-- A write below a bound keeps every listed offset below it. -/
theorem write_below (m : Memory) (off : Nat) (v : Byte) (cap : Nat) (h : Memory.below m cap)
    (hoff : off < cap) : Memory.below (Memory.write m off v) cap := by
  intro x hx
  rcases mem_write m off v x hx with rfl | hx
  · exact hoff
  · exact h x hx

/-- Writing at offset `n` extends a written stretch of `n` offsets by one. -/
theorem write_written (m : Memory) (n : Nat) (v : Byte) (h : Memory.written m n) :
    Memory.written (Memory.write m n v) (n + 1) := by
  intro k hk
  rw [read_write]
  split
  · rfl
  · exact h k (by omega)

theorem written_mono (m : Memory) (n k : Nat) (h : Memory.written m n) (hk : k ≤ n) :
    Memory.written m k := fun j hj => h j (by omega)

@[simp] theorem written_zero (m : Memory) : Memory.written m 0 := fun _ h => absurd h (by omega)

@[simp] theorem wf_nil : Memory.wf [] := List.Pairwise.nil

@[simp] theorem below_nil (cap : Nat) : Memory.below [] cap := by simp [Memory.below]

/-- The canonical form is canonical: memories that read the same everywhere are the same list. -/
theorem eq_of_reads (m n : Memory) (hm : Memory.wf m) (hn : Memory.wf n)
    (h : ∀ k, Memory.read m k = Memory.read n k) : m = n := by
  induction m generalizing n with
  | nil =>
    cases n with
    | nil => rfl
    | cons y n =>
      have hy := h y.1
      rw [show Memory.read (y :: n) y.1 = some y.2 from if_pos rfl] at hy
      simp at hy
  | cons x m ih =>
    obtain ⟨a, v⟩ := x
    obtain ⟨hltm, hm'⟩ := List.pairwise_cons.1 hm
    cases n with
    | nil =>
      have ha := h a
      simp [read_cons] at ha
    | cons y n =>
      obtain ⟨c, w⟩ := y
      obtain ⟨hltn, hn'⟩ := List.pairwise_cons.1 hn
      have ha := h a
      have hc := h c
      simp only [read_cons, if_true] at ha hc
      have hac : a = c := by
        rcases Nat.lt_trichotomy a c with hlt | heq | hgt
        · rw [if_neg (by omega), read_of_lt n a fun x hx => lt_trans hlt (hltn x hx)] at ha
          simp at ha
        · exact heq
        · rw [if_neg (by omega), read_of_lt m c fun x hx => lt_trans hgt (hltm x hx)] at hc
          simp at hc
      subst hac
      simp only [if_true, Option.some.injEq] at ha
      subst ha
      congr 1
      refine ih n hm' hn' fun k => ?_
      by_cases hk : k = a
      · subst hk
        rw [read_of_lt m k fun x hx => hltm x hx, read_of_lt n k fun x hx => hltn x hx]
      · have := h k
        simpa [read_cons, hk] using this

end Sys2Proof.Laws
end

