-- ==== Sys2Proof/Laws/State.lean ====
section
/-! SUPPORT. What each update of the state leaves in each of its fields: one lemma per field per update. -/

namespace Sys2Proof.Laws

open Sys2Proof.Machine

/-! Reset -/

/-- What reset gives: it asks for a well-formed configuration (00_scope.md R7), and the values are R50's. -/
theorem resetOf_some (c : Config) (r : State) (h : State.resetOf c = some r) :
    cfgOk c = true ∧ r.cfg = c ∧ r.dec = Dec.atReset c ∧ r.slot0 = Slot.atReset .filling
      ∧ r.slot1 = Slot.atReset .free ∧ r.arb = Arb.atReset ∧ r.cnt = Cnt.atReset
      ∧ r.input = [] ∧ r.port = .p ∧ r.rsp = none := by
  unfold State.resetOf at h
  split at h
  next hc =>
    simp only [Option.some.injEq] at h
    subst h
    exact ⟨hc, rfl, rfl, rfl, rfl, rfl, rfl, rfl, rfl, rfl⟩
  next => simp at h

/-- A well-formed configuration has a reset state. -/
theorem resetOf_isSome (c : Config) (h : cfgOk c = true) : ∃ r, State.resetOf c = some r := by
  simp [State.resetOf, h]

/-- What `rst` gives: the reset state of the same configuration, with the inputs that follow. -/
theorem afterReset_some (s t : State) (rest : List Input) (h : afterReset s rest = some t) :
    ∃ r, State.resetOf s.cfg = some r ∧ t = { r with input := rest } := by
  simp only [afterReset, Option.map_eq_some_iff] at h
  obtain ⟨r, hr, ht⟩ := h
  exact ⟨r, hr, ht.symm⟩

/-! `respond` -/

@[simp] theorem respond_cfg (s : State) (st : Status) (v : Half) :
    (respond s st v).cfg = s.cfg := rfl
@[simp] theorem respond_dec (s : State) (st : Status) (v : Half) :
    (respond s st v).dec = s.dec := rfl
@[simp] theorem respond_arb (s : State) (st : Status) (v : Half) :
    (respond s st v).arb = s.arb := rfl
@[simp] theorem respond_cnt (s : State) (st : Status) (v : Half) :
    (respond s st v).cnt = s.cnt := rfl
@[simp] theorem respond_input (s : State) (st : Status) (v : Half) :
    (respond s st v).input = s.input := rfl
@[simp] theorem respond_port (s : State) (st : Status) (v : Half) :
    (respond s st v).port = s.port := rfl
@[simp] theorem respond_rsp (s : State) (st : Status) (v : Half) :
    (respond s st v).rsp = some { port := s.port, word := rspWord st v } := rfl
@[simp] theorem respond_slotAt (s : State) (st : Status) (v : Half) (j : SlotIdx) :
    slotAt (respond s st v) j = slotAt s j := rfl
@[simp] theorem respond_slotIs (s : State) (st : Status) (v : Half) (j : SlotIdx) (st' : SlotState) :
    slotIs (respond s st v) j st' = slotIs s j st' := rfl
@[simp] theorem respond_fillIdx (s : State) (st : Status) (v : Half) :
    fillIdx (respond s st v) = fillIdx s := rfl
@[simp] theorem respond_readySet (s : State) (st : Status) (v : Half) :
    readySet (respond s st v) = readySet s := rfl

/-! `countOvf` -/

@[simp] theorem countOvf_cfg (s : State) :
    (countOvf s).cfg = s.cfg := rfl
@[simp] theorem countOvf_dec (s : State) :
    (countOvf s).dec = s.dec := rfl
@[simp] theorem countOvf_arb (s : State) :
    (countOvf s).arb = s.arb := rfl
@[simp] theorem countOvf_cnt (s : State) :
    (countOvf s).cnt = { s.cnt with ovf := satInc s.cnt.ovf } := rfl
@[simp] theorem countOvf_input (s : State) :
    (countOvf s).input = s.input := rfl
@[simp] theorem countOvf_port (s : State) :
    (countOvf s).port = s.port := rfl
@[simp] theorem countOvf_rsp (s : State) :
    (countOvf s).rsp = s.rsp := rfl
@[simp] theorem countOvf_slotAt (s : State) (j : SlotIdx) :
    slotAt (countOvf s) j = slotAt s j := rfl
@[simp] theorem countOvf_slotIs (s : State) (j : SlotIdx) (st' : SlotState) :
    slotIs (countOvf s) j st' = slotIs s j st' := rfl
@[simp] theorem countOvf_fillIdx (s : State) :
    fillIdx (countOvf s) = fillIdx s := rfl
@[simp] theorem countOvf_readySet (s : State) :
    readySet (countOvf s) = readySet s := rfl

/-! `countDrop` -/

@[simp] theorem countDrop_cfg (s : State) :
    (countDrop s).cfg = s.cfg := rfl
@[simp] theorem countDrop_dec (s : State) :
    (countDrop s).dec = s.dec := rfl
@[simp] theorem countDrop_arb (s : State) :
    (countDrop s).arb = s.arb := rfl
@[simp] theorem countDrop_cnt (s : State) :
    (countDrop s).cnt = { s.cnt with drop := satInc s.cnt.drop } := rfl
@[simp] theorem countDrop_input (s : State) :
    (countDrop s).input = s.input := rfl
@[simp] theorem countDrop_port (s : State) :
    (countDrop s).port = s.port := rfl
@[simp] theorem countDrop_rsp (s : State) :
    (countDrop s).rsp = s.rsp := rfl
@[simp] theorem countDrop_slotAt (s : State) (j : SlotIdx) :
    slotAt (countDrop s) j = slotAt s j := rfl
@[simp] theorem countDrop_slotIs (s : State) (j : SlotIdx) (st' : SlotState) :
    slotIs (countDrop s) j st' = slotIs s j st' := rfl
@[simp] theorem countDrop_fillIdx (s : State) :
    fillIdx (countDrop s) = fillIdx s := rfl
@[simp] theorem countDrop_readySet (s : State) :
    readySet (countDrop s) = readySet s := rfl

/-! `countCkerr` -/

@[simp] theorem countCkerr_cfg (s : State) :
    (countCkerr s).cfg = s.cfg := rfl
@[simp] theorem countCkerr_dec (s : State) :
    (countCkerr s).dec = s.dec := rfl
@[simp] theorem countCkerr_arb (s : State) :
    (countCkerr s).arb = s.arb := rfl
@[simp] theorem countCkerr_cnt (s : State) :
    (countCkerr s).cnt = { s.cnt with ckerr := satInc s.cnt.ckerr } := rfl
@[simp] theorem countCkerr_input (s : State) :
    (countCkerr s).input = s.input := rfl
@[simp] theorem countCkerr_port (s : State) :
    (countCkerr s).port = s.port := rfl
@[simp] theorem countCkerr_rsp (s : State) :
    (countCkerr s).rsp = s.rsp := rfl
@[simp] theorem countCkerr_slotAt (s : State) (j : SlotIdx) :
    slotAt (countCkerr s) j = slotAt s j := rfl
@[simp] theorem countCkerr_slotIs (s : State) (j : SlotIdx) (st' : SlotState) :
    slotIs (countCkerr s) j st' = slotIs s j st' := rfl
@[simp] theorem countCkerr_fillIdx (s : State) :
    fillIdx (countCkerr s) = fillIdx s := rfl
@[simp] theorem countCkerr_readySet (s : State) :
    readySet (countCkerr s) = readySet s := rfl

/-! `countMalf` -/

@[simp] theorem countMalf_cfg (s : State) :
    (countMalf s).cfg = s.cfg := rfl
@[simp] theorem countMalf_dec (s : State) :
    (countMalf s).dec = s.dec := rfl
@[simp] theorem countMalf_arb (s : State) :
    (countMalf s).arb = s.arb := rfl
@[simp] theorem countMalf_cnt (s : State) :
    (countMalf s).cnt = { s.cnt with malf := satInc s.cnt.malf } := rfl
@[simp] theorem countMalf_input (s : State) :
    (countMalf s).input = s.input := rfl
@[simp] theorem countMalf_port (s : State) :
    (countMalf s).port = s.port := rfl
@[simp] theorem countMalf_rsp (s : State) :
    (countMalf s).rsp = s.rsp := rfl
@[simp] theorem countMalf_slotAt (s : State) (j : SlotIdx) :
    slotAt (countMalf s) j = slotAt s j := rfl
@[simp] theorem countMalf_slotIs (s : State) (j : SlotIdx) (st' : SlotState) :
    slotIs (countMalf s) j st' = slotIs s j st' := rfl
@[simp] theorem countMalf_fillIdx (s : State) :
    fillIdx (countMalf s) = fillIdx s := rfl
@[simp] theorem countMalf_readySet (s : State) :
    readySet (countMalf s) = readySet s := rfl

/-! `goIdle` -/

@[simp] theorem goIdle_cfg (s : State) :
    (goIdle s).cfg = s.cfg := rfl
@[simp] theorem goIdle_dec (s : State) :
    (goIdle s).dec = clearedDec s.cfg (idlePhase s.cfg) := rfl
@[simp] theorem goIdle_arb (s : State) :
    (goIdle s).arb = s.arb := rfl
@[simp] theorem goIdle_cnt (s : State) :
    (goIdle s).cnt = s.cnt := rfl
@[simp] theorem goIdle_input (s : State) :
    (goIdle s).input = s.input := rfl
@[simp] theorem goIdle_port (s : State) :
    (goIdle s).port = s.port := rfl
@[simp] theorem goIdle_rsp (s : State) :
    (goIdle s).rsp = s.rsp := rfl
@[simp] theorem goIdle_slotAt (s : State) (j : SlotIdx) :
    slotAt (goIdle s) j = slotAt s j := rfl
@[simp] theorem goIdle_slotIs (s : State) (j : SlotIdx) (st' : SlotState) :
    slotIs (goIdle s) j st' = slotIs s j st' := rfl
@[simp] theorem goIdle_fillIdx (s : State) :
    fillIdx (goIdle s) = fillIdx s := rfl
@[simp] theorem goIdle_readySet (s : State) :
    readySet (goIdle s) = readySet s := rfl

/-! `beginAttempt` -/

@[simp] theorem beginAttempt_cfg (s : State) :
    (beginAttempt s).cfg = s.cfg := rfl
@[simp] theorem beginAttempt_dec (s : State) :
    (beginAttempt s).dec = clearedDec s.cfg .waitData := rfl
@[simp] theorem beginAttempt_arb (s : State) :
    (beginAttempt s).arb = s.arb := rfl
@[simp] theorem beginAttempt_cnt (s : State) :
    (beginAttempt s).cnt = s.cnt := rfl
@[simp] theorem beginAttempt_input (s : State) :
    (beginAttempt s).input = s.input := rfl
@[simp] theorem beginAttempt_port (s : State) :
    (beginAttempt s).port = s.port := rfl
@[simp] theorem beginAttempt_rsp (s : State) :
    (beginAttempt s).rsp = s.rsp := rfl
@[simp] theorem beginAttempt_slotAt (s : State) (j : SlotIdx) :
    slotAt (beginAttempt s) j = slotAt s j := rfl
@[simp] theorem beginAttempt_slotIs (s : State) (j : SlotIdx) (st' : SlotState) :
    slotIs (beginAttempt s) j st' = slotIs s j st' := rfl
@[simp] theorem beginAttempt_fillIdx (s : State) :
    fillIdx (beginAttempt s) = fillIdx s := rfl
@[simp] theorem beginAttempt_readySet (s : State) :
    readySet (beginAttempt s) = readySet s := rfl

/-! `acceptByte` -/

@[simp] theorem acceptByte_cfg (s : State) (b : Byte) (n : Bool) :
    (acceptByte s b n).cfg = s.cfg := rfl
@[simp] theorem acceptByte_dec (s : State) (b : Byte) (n : Bool) :
    (acceptByte s b n).dec = { s.dec with len := s.dec.len + 1#16, ck := fold s.cfg.fold s.dec.ck b, noslot := n } := rfl
@[simp] theorem acceptByte_arb (s : State) (b : Byte) (n : Bool) :
    (acceptByte s b n).arb = s.arb := rfl
@[simp] theorem acceptByte_cnt (s : State) (b : Byte) (n : Bool) :
    (acceptByte s b n).cnt = s.cnt := rfl
@[simp] theorem acceptByte_input (s : State) (b : Byte) (n : Bool) :
    (acceptByte s b n).input = s.input := rfl
@[simp] theorem acceptByte_port (s : State) (b : Byte) (n : Bool) :
    (acceptByte s b n).port = s.port := rfl
@[simp] theorem acceptByte_rsp (s : State) (b : Byte) (n : Bool) :
    (acceptByte s b n).rsp = s.rsp := rfl
@[simp] theorem acceptByte_slotAt (s : State) (b : Byte) (n : Bool) (j : SlotIdx) :
    slotAt (acceptByte s b n) j = slotAt s j := rfl
@[simp] theorem acceptByte_slotIs (s : State) (b : Byte) (n : Bool) (j : SlotIdx) (st' : SlotState) :
    slotIs (acceptByte s b n) j st' = slotIs s j st' := rfl
@[simp] theorem acceptByte_fillIdx (s : State) (b : Byte) (n : Bool) :
    fillIdx (acceptByte s b n) = fillIdx s := rfl
@[simp] theorem acceptByte_readySet (s : State) (b : Byte) (n : Bool) :
    readySet (acceptByte s b n) = readySet s := rfl

/-! `markOverflow` -/

@[simp] theorem markOverflow_cfg (s : State) :
    (markOverflow s).cfg = s.cfg := rfl
@[simp] theorem markOverflow_dec (s : State) :
    (markOverflow s).dec = { s.dec with ovf := true } := rfl
@[simp] theorem markOverflow_arb (s : State) :
    (markOverflow s).arb = s.arb := rfl
@[simp] theorem markOverflow_cnt (s : State) :
    (markOverflow s).cnt = { s.cnt with ovf := satInc s.cnt.ovf } := rfl
@[simp] theorem markOverflow_input (s : State) :
    (markOverflow s).input = s.input := rfl
@[simp] theorem markOverflow_port (s : State) :
    (markOverflow s).port = s.port := rfl
@[simp] theorem markOverflow_rsp (s : State) :
    (markOverflow s).rsp = s.rsp := rfl
@[simp] theorem markOverflow_slotAt (s : State) (j : SlotIdx) :
    slotAt (markOverflow s) j = slotAt s j := rfl
@[simp] theorem markOverflow_slotIs (s : State) (j : SlotIdx) (st' : SlotState) :
    slotIs (markOverflow s) j st' = slotIs s j st' := rfl
@[simp] theorem markOverflow_fillIdx (s : State) :
    fillIdx (markOverflow s) = fillIdx s := rfl
@[simp] theorem markOverflow_readySet (s : State) :
    readySet (markOverflow s) = readySet s := rfl

/-! `setHeld` -/

@[simp] theorem setHeld_cfg (s : State) (h : Option SlotIdx) :
    (setHeld s h).cfg = s.cfg := rfl
@[simp] theorem setHeld_dec (s : State) (h : Option SlotIdx) :
    (setHeld s h).dec = s.dec := rfl
@[simp] theorem setHeld_arb (s : State) (h : Option SlotIdx) :
    (setHeld s h).arb = { s.arb with held := h } := rfl
@[simp] theorem setHeld_cnt (s : State) (h : Option SlotIdx) :
    (setHeld s h).cnt = s.cnt := rfl
@[simp] theorem setHeld_input (s : State) (h : Option SlotIdx) :
    (setHeld s h).input = s.input := rfl
@[simp] theorem setHeld_port (s : State) (h : Option SlotIdx) :
    (setHeld s h).port = s.port := rfl
@[simp] theorem setHeld_rsp (s : State) (h : Option SlotIdx) :
    (setHeld s h).rsp = s.rsp := rfl
@[simp] theorem setHeld_slotAt (s : State) (h : Option SlotIdx) (j : SlotIdx) :
    slotAt (setHeld s h) j = slotAt s j := rfl
@[simp] theorem setHeld_slotIs (s : State) (h : Option SlotIdx) (j : SlotIdx) (st' : SlotState) :
    slotIs (setHeld s h) j st' = slotIs s j st' := rfl
@[simp] theorem setHeld_fillIdx (s : State) (h : Option SlotIdx) :
    fillIdx (setHeld s h) = fillIdx s := rfl
@[simp] theorem setHeld_readySet (s : State) (h : Option SlotIdx) :
    readySet (setHeld s h) = readySet s := rfl

/-! `setOlder` -/

@[simp] theorem setOlder_cfg (s : State) (o : SlotIdx) :
    (setOlder s o).cfg = s.cfg := rfl
@[simp] theorem setOlder_dec (s : State) (o : SlotIdx) :
    (setOlder s o).dec = s.dec := rfl
@[simp] theorem setOlder_arb (s : State) (o : SlotIdx) :
    (setOlder s o).arb = { s.arb with older := o } := rfl
@[simp] theorem setOlder_cnt (s : State) (o : SlotIdx) :
    (setOlder s o).cnt = s.cnt := rfl
@[simp] theorem setOlder_input (s : State) (o : SlotIdx) :
    (setOlder s o).input = s.input := rfl
@[simp] theorem setOlder_port (s : State) (o : SlotIdx) :
    (setOlder s o).port = s.port := rfl
@[simp] theorem setOlder_rsp (s : State) (o : SlotIdx) :
    (setOlder s o).rsp = s.rsp := rfl
@[simp] theorem setOlder_slotAt (s : State) (o : SlotIdx) (j : SlotIdx) :
    slotAt (setOlder s o) j = slotAt s j := rfl
@[simp] theorem setOlder_slotIs (s : State) (o : SlotIdx) (j : SlotIdx) (st' : SlotState) :
    slotIs (setOlder s o) j st' = slotIs s j st' := rfl
@[simp] theorem setOlder_fillIdx (s : State) (o : SlotIdx) :
    fillIdx (setOlder s o) = fillIdx s := rfl
@[simp] theorem setOlder_readySet (s : State) (o : SlotIdx) :
    readySet (setOlder s o) = readySet s := rfl

/-! `accept` -/

@[simp] theorem accept_cfg (s : State) (port : Port) (rest : List Input) :
    (accept s port rest).cfg = s.cfg := rfl
@[simp] theorem accept_dec (s : State) (port : Port) (rest : List Input) :
    (accept s port rest).dec = s.dec := rfl
@[simp] theorem accept_arb (s : State) (port : Port) (rest : List Input) :
    (accept s port rest).arb = s.arb := rfl
@[simp] theorem accept_cnt (s : State) (port : Port) (rest : List Input) :
    (accept s port rest).cnt = s.cnt := rfl
@[simp] theorem accept_input (s : State) (port : Port) (rest : List Input) :
    (accept s port rest).input = rest := rfl
@[simp] theorem accept_port (s : State) (port : Port) (rest : List Input) :
    (accept s port rest).port = port := rfl
@[simp] theorem accept_rsp (s : State) (port : Port) (rest : List Input) :
    (accept s port rest).rsp = s.rsp := rfl
@[simp] theorem accept_slotAt (s : State) (port : Port) (rest : List Input) (j : SlotIdx) :
    slotAt (accept s port rest) j = slotAt s j := rfl
@[simp] theorem accept_slotIs (s : State) (port : Port) (rest : List Input) (j : SlotIdx) (st' : SlotState) :
    slotIs (accept s port rest) j st' = slotIs s j st' := rfl
@[simp] theorem accept_fillIdx (s : State) (port : Port) (rest : List Input) :
    fillIdx (accept s port rest) = fillIdx s := rfl
@[simp] theorem accept_readySet (s : State) (port : Port) (rest : List Input) :
    readySet (accept s port rest) = readySet s := rfl

/-! `setSlot` -/

@[simp] theorem setSlot_cfg (s : State) (i : SlotIdx) (x : Slot) :
    (setSlot s i x).cfg = s.cfg := by cases i <;> rfl
@[simp] theorem setSlot_dec (s : State) (i : SlotIdx) (x : Slot) :
    (setSlot s i x).dec = s.dec := by cases i <;> rfl
@[simp] theorem setSlot_arb (s : State) (i : SlotIdx) (x : Slot) :
    (setSlot s i x).arb = s.arb := by cases i <;> rfl
@[simp] theorem setSlot_cnt (s : State) (i : SlotIdx) (x : Slot) :
    (setSlot s i x).cnt = s.cnt := by cases i <;> rfl
@[simp] theorem setSlot_input (s : State) (i : SlotIdx) (x : Slot) :
    (setSlot s i x).input = s.input := by cases i <;> rfl
@[simp] theorem setSlot_port (s : State) (i : SlotIdx) (x : Slot) :
    (setSlot s i x).port = s.port := by cases i <;> rfl
@[simp] theorem setSlot_rsp (s : State) (i : SlotIdx) (x : Slot) :
    (setSlot s i x).rsp = s.rsp := by cases i <;> rfl

/-! `setSlotState` -/

@[simp] theorem setSlotState_cfg (s : State) (i : SlotIdx) (st : SlotState) :
    (setSlotState s i st).cfg = s.cfg := by cases i <;> rfl
@[simp] theorem setSlotState_dec (s : State) (i : SlotIdx) (st : SlotState) :
    (setSlotState s i st).dec = s.dec := by cases i <;> rfl
@[simp] theorem setSlotState_arb (s : State) (i : SlotIdx) (st : SlotState) :
    (setSlotState s i st).arb = s.arb := by cases i <;> rfl
@[simp] theorem setSlotState_cnt (s : State) (i : SlotIdx) (st : SlotState) :
    (setSlotState s i st).cnt = s.cnt := by cases i <;> rfl
@[simp] theorem setSlotState_input (s : State) (i : SlotIdx) (st : SlotState) :
    (setSlotState s i st).input = s.input := by cases i <;> rfl
@[simp] theorem setSlotState_port (s : State) (i : SlotIdx) (st : SlotState) :
    (setSlotState s i st).port = s.port := by cases i <;> rfl
@[simp] theorem setSlotState_rsp (s : State) (i : SlotIdx) (st : SlotState) :
    (setSlotState s i st).rsp = s.rsp := by cases i <;> rfl

/-! `setSlotLength` -/

@[simp] theorem setSlotLength_cfg (s : State) (i : SlotIdx) (n : Half) :
    (setSlotLength s i n).cfg = s.cfg := by cases i <;> rfl
@[simp] theorem setSlotLength_dec (s : State) (i : SlotIdx) (n : Half) :
    (setSlotLength s i n).dec = s.dec := by cases i <;> rfl
@[simp] theorem setSlotLength_arb (s : State) (i : SlotIdx) (n : Half) :
    (setSlotLength s i n).arb = s.arb := by cases i <;> rfl
@[simp] theorem setSlotLength_cnt (s : State) (i : SlotIdx) (n : Half) :
    (setSlotLength s i n).cnt = s.cnt := by cases i <;> rfl
@[simp] theorem setSlotLength_input (s : State) (i : SlotIdx) (n : Half) :
    (setSlotLength s i n).input = s.input := by cases i <;> rfl
@[simp] theorem setSlotLength_port (s : State) (i : SlotIdx) (n : Half) :
    (setSlotLength s i n).port = s.port := by cases i <;> rfl
@[simp] theorem setSlotLength_rsp (s : State) (i : SlotIdx) (n : Half) :
    (setSlotLength s i n).rsp = s.rsp := by cases i <;> rfl

/-! `memWrite` -/

@[simp] theorem memWrite_cfg (s : State) (i : SlotIdx) (off : Nat) (v : Byte) :
    (memWrite s i off v).cfg = s.cfg := by cases i <;> rfl
@[simp] theorem memWrite_dec (s : State) (i : SlotIdx) (off : Nat) (v : Byte) :
    (memWrite s i off v).dec = s.dec := by cases i <;> rfl
@[simp] theorem memWrite_arb (s : State) (i : SlotIdx) (off : Nat) (v : Byte) :
    (memWrite s i off v).arb = s.arb := by cases i <;> rfl
@[simp] theorem memWrite_cnt (s : State) (i : SlotIdx) (off : Nat) (v : Byte) :
    (memWrite s i off v).cnt = s.cnt := by cases i <;> rfl
@[simp] theorem memWrite_input (s : State) (i : SlotIdx) (off : Nat) (v : Byte) :
    (memWrite s i off v).input = s.input := by cases i <;> rfl
@[simp] theorem memWrite_port (s : State) (i : SlotIdx) (off : Nat) (v : Byte) :
    (memWrite s i off v).port = s.port := by cases i <;> rfl
@[simp] theorem memWrite_rsp (s : State) (i : SlotIdx) (off : Nat) (v : Byte) :
    (memWrite s i off v).rsp = s.rsp := by cases i <;> rfl

/-! `markReady` -/

@[simp] theorem markReady_cfg (s : State) (i : SlotIdx) (n : Half) :
    (markReady s i n).cfg = s.cfg := by cases i <;> rfl
@[simp] theorem markReady_dec (s : State) (i : SlotIdx) (n : Half) :
    (markReady s i n).dec = s.dec := by cases i <;> rfl
@[simp] theorem markReady_arb (s : State) (i : SlotIdx) (n : Half) :
    (markReady s i n).arb = s.arb := by cases i <;> rfl
@[simp] theorem markReady_cnt (s : State) (i : SlotIdx) (n : Half) :
    (markReady s i n).cnt = s.cnt := by cases i <;> rfl
@[simp] theorem markReady_input (s : State) (i : SlotIdx) (n : Half) :
    (markReady s i n).input = s.input := by cases i <;> rfl
@[simp] theorem markReady_port (s : State) (i : SlotIdx) (n : Half) :
    (markReady s i n).port = s.port := by cases i <;> rfl
@[simp] theorem markReady_rsp (s : State) (i : SlotIdx) (n : Half) :
    (markReady s i n).rsp = s.rsp := by cases i <;> rfl

/-! Reading one slot after a slot was written -/

@[simp] theorem setSlot_slotAt (s : State) (i : SlotIdx) (x : Slot) (j : SlotIdx) :
    slotAt (setSlot s i x) j = if i = j then x else slotAt s j := by
  cases i <;> cases j <;> rfl

@[simp] theorem setSlotState_slotAt (s : State) (i : SlotIdx) (st : SlotState) (j : SlotIdx) :
    slotAt (setSlotState s i st) j
      = if i = j then { slotAt s i with state := st } else slotAt s j := by
  cases i <;> cases j <;> rfl

@[simp] theorem setSlotLength_slotAt (s : State) (i : SlotIdx) (n : Half) (j : SlotIdx) :
    slotAt (setSlotLength s i n) j
      = if i = j then { slotAt s i with length := n } else slotAt s j := by
  cases i <;> cases j <;> rfl

@[simp] theorem memWrite_slotAt (s : State) (i : SlotIdx) (off : Nat) (v : Byte) (j : SlotIdx) :
    slotAt (memWrite s i off v) j
      = if i = j then { slotAt s i with mem := Memory.write (slotAt s i).mem off v }
        else slotAt s j := by
  cases i <;> cases j <;> rfl

@[simp] theorem markReady_slotAt (s : State) (i : SlotIdx) (n : Half) (j : SlotIdx) :
    slotAt (markReady s i n) j
      = if i = j then { slotAt s i with state := .ready, length := n } else slotAt s j := by
  cases i <;> cases j <;> rfl

/-- A slot index is in the pool after a slot was written exactly when it was before. -/
@[simp] theorem setSlot_slotIs (s : State) (i : SlotIdx) (x : Slot) (j : SlotIdx) (st : SlotState) :
    slotIs (setSlot s i x) j st
      = if i = j then hasSlot s.cfg i && x.state == st else slotIs s j st := by
  cases i <;> cases j <;> rfl

@[simp] theorem setSlotState_slotIs (s : State) (i : SlotIdx) (x : SlotState) (j : SlotIdx)
    (st : SlotState) :
    slotIs (setSlotState s i x) j st = if i = j then hasSlot s.cfg i && x == st else slotIs s j st := by
  cases i <;> cases j <;> rfl

@[simp] theorem setSlotLength_slotIs (s : State) (i : SlotIdx) (n : Half) (j : SlotIdx)
    (st : SlotState) : slotIs (setSlotLength s i n) j st = slotIs s j st := by
  cases i <;> cases j <;> rfl

@[simp] theorem memWrite_slotIs (s : State) (i : SlotIdx) (off : Nat) (v : Byte) (j : SlotIdx)
    (st : SlotState) : slotIs (memWrite s i off v) j st = slotIs s j st := by
  cases i <;> cases j <;> rfl

@[simp] theorem markReady_slotIs (s : State) (i : SlotIdx) (n : Half) (j : SlotIdx) (st : SlotState) :
    slotIs (markReady s i n) j st
      = if i = j then hasSlot s.cfg i && SlotState.ready == st else slotIs s j st := by
  cases i <;> cases j <;> rfl

/-- Two states with the same slots and the same further fields are the same state. -/
theorem state_ext (s t : State) (hcfg : s.cfg = t.cfg) (hdec : s.dec = t.dec)
    (hslot : ∀ i, slotAt s i = slotAt t i) (harb : s.arb = t.arb) (hcnt : s.cnt = t.cnt)
    (hin : s.input = t.input) (hport : s.port = t.port) (hrsp : s.rsp = t.rsp) : s = t := by
  have h0 := hslot .zero
  have h1 := hslot .one
  cases s; cases t
  simp_all [slotAt]

end Sys2Proof.Laws
end

