-- ==== Sys2Proof/Laws/Ops.lean ====
section
/-! SUPPORT. What each shared operation can do, said once: the slot queries, `ENSURE_FILL`,
`ACQUIRE_FOR_FILL` with `RECLAIM`, and `PUBLISH`. -/

namespace Sys2Proof.Laws

open Sys2Proof.Machine

/-! ## Queries -/

theorem slotIs_iff (s : State) (i : SlotIdx) (st : SlotState) :
    slotIs s i st = true ↔ hasSlot s.cfg i = true ∧ (slotAt s i).state = st := by
  simp [slotIs]

theorem slotIs_unique (s : State) (i : SlotIdx) (x y : SlotState) (hx : slotIs s i x = true)
    (hy : slotIs s i y = true) : x = y := by
  rw [slotIs_iff] at hx hy
  rw [← hx.2, ← hy.2]

/-- The slot `FILLIDX` gives is `Filling`. -/
theorem fillIdx_some (s : State) (f : SlotIdx) (h : fillIdx s = some f) : slotIs s f .filling = true := by
  simp only [fillIdx] at h
  split at h
  · simp_all
  · split at h <;> simp_all

theorem fillIdx_none_iff (s : State) :
    fillIdx s = none ↔ slotIs s .zero .filling = false ∧ slotIs s .one .filling = false := by
  simp only [fillIdx]
  split
  · simp_all
  · split <;> simp_all

theorem fillIdx_none (s : State) (i : SlotIdx) (h : fillIdx s = none) : slotIs s i .filling = false := by
  obtain ⟨h0, h1⟩ := (fillIdx_none_iff s).1 h
  cases i <;> assumption

/-- With at most one slot `Filling`, `FILLIDX` gives every slot that is. -/
theorem fillIdx_of_filling (s : State) (f : SlotIdx) (hone : AtMostOneFilling s)
    (h : slotIs s f .filling = true) : fillIdx s = some f := by
  cases f
  · simp [fillIdx, h]
  · have h0 : slotIs s .zero .filling = false := by
      rw [Bool.eq_false_iff]
      exact fun h0 => hone ⟨h0, h⟩
    simp [fillIdx, h, h0]

theorem mem_readySet (s : State) (i : SlotIdx) : i ∈ readySet s ↔ slotIs s i .ready = true := by
  cases i <;> simp [readySet, List.mem_filter]

theorem readySet_cases (s : State) :
    (readySet s = [] ∧ slotIs s .zero .ready = false ∧ slotIs s .one .ready = false)
    ∨ (readySet s = [.zero] ∧ slotIs s .zero .ready = true ∧ slotIs s .one .ready = false)
    ∨ (readySet s = [.one] ∧ slotIs s .zero .ready = false ∧ slotIs s .one .ready = true)
    ∨ (readySet s = [.zero, .one] ∧ slotIs s .zero .ready = true ∧ slotIs s .one .ready = true) := by
  unfold readySet
  cases h0 : slotIs s .zero .ready <;> cases h1 : slotIs s .one .ready <;> simp [h0, h1]

theorem readyOut_iff (s : State) : readyOut s = true ↔ ∃ i, slotIs s i .ready = true := by
  simp only [readyOut, Bool.or_eq_true]
  constructor
  · rintro (h | h)
    · exact ⟨_, h⟩
    · exact ⟨_, h⟩
  · rintro ⟨i, h⟩
    cases i
    · exact .inl h
    · exact .inr h

theorem allReady_iff (s : State) : allReady s = true ↔ EverySlotReady s := by
  simp only [allReady, EverySlotReady, Bool.and_eq_true, Bool.or_eq_true, Bool.not_eq_true']
  constructor
  · rintro ⟨h0, h1⟩ i hi
    cases i
    · exact h0
    · rcases h1 with h | h
      · simp [h] at hi
      · exact h
  · intro h
    refine ⟨h .zero rfl, ?_⟩
    cases hh : hasSlot s.cfg .one
    · exact .inl rfl
    · exact .inr (h .one hh)

/-- A slot of the pool is `Free`, `Filling` or `Ready` (R31). -/
theorem slotIs_cases (s : State) (i : SlotIdx) (h : hasSlot s.cfg i = true) :
    slotIs s i .free = true ∨ slotIs s i .filling = true ∨ slotIs s i .ready = true := by
  cases hs : (slotAt s i).state <;> simp [slotIs_iff, h, hs]

theorem otherReady_some (s : State) (f o : SlotIdx) (h : otherReady s f = some o) :
    slotIs s o .ready = true ∧ o ≠ f ∧ s.cfg.nslots = 2 := by
  by_cases h2 : s.cfg.nslots = 2
  · cases f <;> simp only [otherReady, otherSlot, h2, if_true] at h <;> split at h <;>
      simp_all <;> subst h <;> simp
  · cases f <;> simp [otherReady, otherSlot, h2] at h

theorem otherReady_none (s : State) (f i : SlotIdx) (hf : hasSlot s.cfg f = true)
    (h : otherReady s f = none) (hi : i ≠ f) : slotIs s i .ready = false := by
  by_cases h2 : s.cfg.nslots = 2
  · cases f <;> cases i <;> simp_all [otherReady, otherSlot]
  · cases f <;> cases i <;> simp_all [slotIs, hasSlot]

/-! ## `ENSURE_FILL` (42_arbiter.md R150) -/

/-- What `ENSURE_FILL` can do: nothing, when a slot is `Filling` or none is `Free`, or make one `Free` slot
`Filling`. -/
theorem ensureFill_cases (s : State) :
    (ensureFill s = s ∧ (fillIdx s ≠ none ∨ ∀ i, slotIs s i .free = false))
    ∨ ∃ i, fillIdx s = none ∧ slotIs s i .free = true ∧ ensureFill s = setSlotState s i .filling := by
  unfold ensureFill
  cases hf : fillIdx s with
  | some f => simp
  | none =>
    cases h0 : slotIs s .zero .free
    · cases h1 : slotIs s .one .free
      · left
        refine ⟨by simp, .inr fun i => ?_⟩
        cases i <;> assumption
      · exact .inr ⟨.one, rfl, h1, by simp⟩
    · exact .inr ⟨.zero, rfl, h0, by simp⟩

/-- `ENSURE_FILL` writes slot states and nothing else. -/
theorem ensureFill_fields (s : State) :
    (ensureFill s).cfg = s.cfg ∧ (ensureFill s).dec = s.dec ∧ (ensureFill s).arb = s.arb
      ∧ (ensureFill s).cnt = s.cnt ∧ (ensureFill s).input = s.input ∧ (ensureFill s).port = s.port
      ∧ (ensureFill s).rsp = s.rsp := by
  rcases ensureFill_cases s with ⟨h, -⟩ | ⟨i, -, -, h⟩ <;> simp [h]

@[simp] theorem ensureFill_cfg (s : State) : (ensureFill s).cfg = s.cfg := (ensureFill_fields s).1
@[simp] theorem ensureFill_dec (s : State) : (ensureFill s).dec = s.dec := (ensureFill_fields s).2.1
@[simp] theorem ensureFill_arb (s : State) : (ensureFill s).arb = s.arb := (ensureFill_fields s).2.2.1
@[simp] theorem ensureFill_cnt (s : State) : (ensureFill s).cnt = s.cnt := (ensureFill_fields s).2.2.2.1
@[simp] theorem ensureFill_input (s : State) : (ensureFill s).input = s.input :=
  (ensureFill_fields s).2.2.2.2.1
@[simp] theorem ensureFill_port (s : State) : (ensureFill s).port = s.port :=
  (ensureFill_fields s).2.2.2.2.2.1
@[simp] theorem ensureFill_rsp (s : State) : (ensureFill s).rsp = s.rsp :=
  (ensureFill_fields s).2.2.2.2.2.2

/-- `ENSURE_FILL` leaves every length and payload memory. -/
theorem ensureFill_slot (s : State) (i : SlotIdx) :
    (slotAt (ensureFill s) i).length = (slotAt s i).length
      ∧ (slotAt (ensureFill s) i).mem = (slotAt s i).mem := by
  rcases ensureFill_cases s with ⟨h, -⟩ | ⟨j, -, -, h⟩ <;> rw [h]
  · simp
  · simp only [setSlotState_slotAt]
    split <;> simp_all

@[simp] theorem ensureFill_length (s : State) (i : SlotIdx) :
    (slotAt (ensureFill s) i).length = (slotAt s i).length := (ensureFill_slot s i).1
@[simp] theorem ensureFill_mem (s : State) (i : SlotIdx) :
    (slotAt (ensureFill s) i).mem = (slotAt s i).mem := (ensureFill_slot s i).2

/-- `ENSURE_FILL` never changes which slots are `Ready`. -/
@[simp] theorem ensureFill_ready (s : State) (i : SlotIdx) :
    slotIs (ensureFill s) i .ready = slotIs s i .ready := by
  rcases ensureFill_cases s with ⟨h, -⟩ | ⟨j, -, hfree, h⟩ <;> rw [h]
  simp only [setSlotState_slotIs]
  split
  next heq =>
    subst heq
    cases hr : slotIs s j .ready
    · simp
    · exact absurd (slotIs_unique s j _ _ hfree hr) (by simp)
  next => rfl

/-- A slot that is `Filling` stays so through `ENSURE_FILL`. -/
theorem ensureFill_keeps_filling (s : State) (f : SlotIdx) (h : fillIdx s = some f) :
    ensureFill s = s := by simp [ensureFill, h]

/-- After `ENSURE_FILL` no slot is `Filling` only if every slot is `Ready` (R46). -/
theorem ensureFill_none (s : State) (h : fillIdx (ensureFill s) = none) :
    ensureFill s = s ∧ ∀ i, hasSlot s.cfg i = true → slotIs s i .ready = true := by
  rcases ensureFill_cases s with ⟨he, hcase⟩ | ⟨j, -, hfree, he⟩
  · refine ⟨he, fun i hi => ?_⟩
    rw [he] at h
    rcases hcase with hc | hc
    · exact absurd h hc
    · rcases slotIs_cases s i hi with hf | hf | hf
      · simp [hc i] at hf
      · simp [fillIdx_none s i h] at hf
      · exact hf
  · have hj := fillIdx_none _ j h
    rw [he] at hj
    simp [((slotIs_iff s j _).1 hfree).1] at hj

theorem ensureFill_oneFilling (s : State) (h : AtMostOneFilling s) : AtMostOneFilling (ensureFill s) := by
  rcases ensureFill_cases s with ⟨he, -⟩ | ⟨j, hnone, -, he⟩ <;> rw [he]
  · exact h
  · have h0 := fillIdx_none s .zero hnone
    have h1 := fillIdx_none s .one hnone
    cases j <;> simp [AtMostOneFilling, h0, h1]

/-! ## `RECLAIM` and `ACQUIRE_FOR_FILL` (R152, R153) -/

/-- The two writes of `RECLAIM` come to one: the slot is `Filling` and the lost frame is counted. -/
theorem takeBack_eq (s : State) (r : SlotIdx) :
    takeBack s r = { st := setSlotState (countDrop s) r .filling, slot := some r, lostOld := true } := by
  cases r <;> rfl

theorem mem_reclaimable (s : State) (i : SlotIdx) :
    i ∈ reclaimable s ↔ slotIs s i .ready = true ∧ s.arb.held ≠ some i := by
  simp [reclaimable, List.mem_filter, mem_readySet]

/-- What `RECLAIM` can do: nothing, or take back a slot that is `Ready` and not held. -/
theorem reclaim_cases (s : State) :
    (reclaim s = { st := s, slot := none, lostOld := false } ∧ ∀ i, slotIs s i .ready = true → s.arb.held = some i)
    ∨ ∃ r, slotIs s r .ready = true ∧ s.arb.held ≠ some r ∧ reclaim s = takeBack s r := by
  unfold reclaim
  match hl : reclaimable s with
  | [] =>
    left
    refine ⟨rfl, fun i hi => ?_⟩
    by_contra hne
    have := (mem_reclaimable s i).2 ⟨hi, hne⟩
    simp [hl] at this
  | [r] =>
    have := (mem_reclaimable s r).1 (by simp [hl])
    exact .inr ⟨r, this.1, this.2, rfl⟩
  | a :: b :: l =>
    have hsub : (reclaimable s).length ≤ 2 := by
      unfold reclaimable readySet
      exact (List.length_filter_le _ _).trans ((List.length_filter_le _ _).trans (by simp))
    have hnd : (reclaimable s).Nodup := by
      unfold reclaimable readySet
      exact ((by decide : [SlotIdx.zero, SlotIdx.one].Nodup).filter _).filter _
    have hall : ∀ i, i ∈ reclaimable s := by
      rw [hl] at hsub hnd ⊢
      obtain rfl : l = [] := by
        cases l with
        | nil => rfl
        | cons => simp at hsub
      intro i
      revert hnd
      cases a <;> cases b <;> cases i <;> simp
    have := (mem_reclaimable s s.arb.older).1 (hall _)
    exact .inr ⟨s.arb.older, this.1, this.2, rfl⟩

/-- What `ACQUIRE_FOR_FILL` can do: give the `Filling` slot; give none, when no slot is `Filling` and the
policy or the hold forbids a reclaim; or reclaim an unheld `Ready` slot under `OVERWRITE`. -/
theorem acquire_cases (s : State) :
    (∃ f, fillIdx s = some f ∧ acquireForFill s = { st := s, slot := some f, lostOld := false })
    ∨ (fillIdx s = none ∧ acquireForFill s = { st := s, slot := none, lostOld := false }
        ∧ (s.cfg.policy = .overwrite → ∀ i, slotIs s i .ready = true → s.arb.held = some i))
    ∨ ∃ r, fillIdx s = none ∧ s.cfg.policy = .overwrite ∧ slotIs s r .ready = true
        ∧ s.arb.held ≠ some r
        ∧ acquireForFill s
          = { st := setSlotState (countDrop s) r .filling, slot := some r, lostOld := true } := by
  unfold acquireForFill
  cases hf : fillIdx s with
  | some f => exact .inl ⟨f, rfl, rfl⟩
  | none =>
    right
    by_cases hp : s.cfg.policy = .overwrite
    · simp only [hp, if_true]
      rcases reclaim_cases s with ⟨h, hall⟩ | ⟨r, hr, hh, h⟩
      · exact .inl ⟨trivial, h, fun _ => hall⟩
      · exact .inr ⟨r, trivial, trivial, hr, hh, by rw [h, takeBack_eq]⟩
    · simp [hp]

/-- The slot `ACQUIRE_FOR_FILL` gives is `Filling` in the state it gives. -/
theorem acquire_filling (s : State) (f : SlotIdx) (h : (acquireForFill s).slot = some f) :
    slotIs (acquireForFill s).st f .filling = true := by
  rcases acquire_cases s with ⟨g, hg, he⟩ | ⟨-, he, -⟩ | ⟨r, -, -, hr, -, he⟩
  · rw [he] at h ⊢
    simp only [Option.some.injEq] at h
    exact h ▸ fillIdx_some s g hg
  · simp [he] at h
  · rw [he] at h ⊢
    simp only [Option.some.injEq] at h
    subst h
    simp [((slotIs_iff s r _).1 hr).1]

/-- `ACQUIRE_FOR_FILL` leaves the decoder registers, `arb`, and every length and payload memory. -/
theorem acquire_fields (s : State) :
    (acquireForFill s).st.cfg = s.cfg ∧ (acquireForFill s).st.dec = s.dec
      ∧ (acquireForFill s).st.arb = s.arb ∧ (acquireForFill s).st.input = s.input
      ∧ (acquireForFill s).st.port = s.port ∧ (acquireForFill s).st.rsp = s.rsp
      ∧ ∀ i, (slotAt (acquireForFill s).st i).length = (slotAt s i).length
          ∧ (slotAt (acquireForFill s).st i).mem = (slotAt s i).mem := by
  rcases acquire_cases s with ⟨g, -, he⟩ | ⟨-, he, -⟩ | ⟨r, -, -, -, -, he⟩ <;> rw [he]
  · simp
  · simp
  · refine ⟨by simp, by simp, by simp, by simp, by simp, by simp, fun i => ?_⟩
    simp only [setSlotState_slotAt, countDrop_slotAt]
    split <;> simp_all

@[simp] theorem acquire_cfg (s : State) : (acquireForFill s).st.cfg = s.cfg := (acquire_fields s).1
@[simp] theorem acquire_dec (s : State) : (acquireForFill s).st.dec = s.dec := (acquire_fields s).2.1
@[simp] theorem acquire_arb (s : State) : (acquireForFill s).st.arb = s.arb := (acquire_fields s).2.2.1
@[simp] theorem acquire_input (s : State) : (acquireForFill s).st.input = s.input :=
  (acquire_fields s).2.2.2.1
@[simp] theorem acquire_port (s : State) : (acquireForFill s).st.port = s.port :=
  (acquire_fields s).2.2.2.2.1
@[simp] theorem acquire_rsp (s : State) : (acquireForFill s).st.rsp = s.rsp :=
  (acquire_fields s).2.2.2.2.2.1
@[simp] theorem acquire_length (s : State) (i : SlotIdx) :
    (slotAt (acquireForFill s).st i).length = (slotAt s i).length := ((acquire_fields s).2.2.2.2.2.2 i).1
@[simp] theorem acquire_mem (s : State) (i : SlotIdx) :
    (slotAt (acquireForFill s).st i).mem = (slotAt s i).mem := ((acquire_fields s).2.2.2.2.2.2 i).2

/-! ## `PUBLISH` (R156) -/

/-- What the branches of `PUBLISH` can do: publish beside no `Ready` slot; publish beside one under `SWAP`,
which becomes the older; replace an unheld one under `OVERWRITE`; or drop the new frame. -/
theorem publishBranch_cases (s : State) (f : SlotIdx) (n : Half) :
    (otherReady s f = none
      ∧ publishBranch s f n = { st := markReady s f n, pub := .published, lostOld := false })
    ∨ (∃ o, otherReady s f = some o ∧ s.cfg.policy = .swap
      ∧ publishBranch s f n
        = { st := markReady (setOlder s o) f n, pub := .published, lostOld := false })
    ∨ (∃ o, otherReady s f = some o ∧ s.cfg.policy = .overwrite ∧ s.arb.held ≠ some o
      ∧ publishBranch s f n
        = { st := markReady (countDrop (setSlotState s o .free)) f n, pub := .published
            lostOld := true })
    ∨ (∃ o, otherReady s f = some o ∧ s.cfg.policy ≠ .swap
      ∧ (s.cfg.policy = .overwrite → s.arb.held = some o)
      ∧ publishBranch s f n = { st := countDrop s, pub := .dropped, lostOld := false }) := by
  unfold publishBranch
  cases ho : otherReady s f with
  | none => simp
  | some o =>
    by_cases hs : s.cfg.policy = .swap
    · simp [hs]
    · by_cases hov : s.cfg.policy = .overwrite ∧ s.arb.held ≠ some o
      · simp [hov.1, hov.2]
      · right; right; right
        exact ⟨o, rfl, hs, fun h => by simpa [h] using hov, by simp [hs, hov]⟩

end Sys2Proof.Laws
end

