-- ==== Sys2Proof/Laws/Decoder.lean ====
section
/-! SUPPORT. What `PUBLISH`, `COMPLETE` and a `BYTE` step can do, said once: `publish_fields`,
`complete_cases`, `bytePhase_cases` and `byteStep_cases`. -/

namespace Sys2Proof.Laws

open Sys2Proof.Machine

/-! ## `PUBLISH` -/

/-- `PUBLISH` leaves the configuration, the decoder registers, the hold, the input, the port and the
response, and every payload memory; `arb.older` changes only under `SWAP`, a length only at slot `f`. -/
theorem publish_fields (s : State) (f : SlotIdx) (n : Half) :
    (publish s f n).st.cfg = s.cfg ∧ (publish s f n).st.dec = s.dec
      ∧ (publish s f n).st.arb.held = s.arb.held ∧ (publish s f n).st.input = s.input
      ∧ (publish s f n).st.port = s.port ∧ (publish s f n).st.rsp = s.rsp
      ∧ (s.cfg.policy ≠ .swap → (publish s f n).st.arb.older = s.arb.older)
      ∧ ∀ i, (slotAt (publish s f n).st i).mem = (slotAt s i).mem
          ∧ (i ≠ f → (slotAt (publish s f n).st i).length = (slotAt s i).length) := by
  unfold publish
  rcases publishBranch_cases s f n with ⟨-, h⟩ | ⟨o, -, hp, h⟩ | ⟨o, -, -, -, h⟩ | ⟨o, -, -, -, h⟩ <;>
    rw [h]
  · refine ⟨by simp, by simp, by simp, by simp, by simp, by simp, by simp, fun i => ⟨?_, fun hi => ?_⟩⟩
    · simp only [ensureFill_mem, markReady_slotAt]
      split <;> simp_all
    · simp [Ne.symm hi]
  · refine ⟨by simp, by simp, by simp, by simp, by simp, by simp, fun hn => absurd hp hn,
      fun i => ⟨?_, fun hi => ?_⟩⟩
    · simp only [ensureFill_mem, markReady_slotAt, setOlder_slotAt]
      split <;> simp_all
    · simp [Ne.symm hi]
  · refine ⟨by simp, by simp, by simp, by simp, by simp, by simp, by simp, fun i => ⟨?_, fun hi => ?_⟩⟩
    · simp only [ensureFill_mem, markReady_slotAt, countDrop_slotAt, setSlotState_slotAt]
      split <;> split <;> simp_all
    · simp only [ensureFill_length, markReady_slotAt, countDrop_slotAt, setSlotState_slotAt,
        if_neg (Ne.symm hi)]
      split <;> simp_all
  · refine ⟨by simp, by simp, by simp, by simp, by simp, by simp, by simp, fun i => ⟨by simp, by simp⟩⟩

/-! ## The decoder registers do not matter to the arbiter -/

theorem ensureFill_withDec (s : State) (d : Dec) :
    ensureFill { s with dec := d } = { ensureFill s with dec := d } := by
  have hf : fillIdx { s with dec := d } = fillIdx s := rfl
  have h0 : slotIs { s with dec := d } .zero .free = slotIs s .zero .free := rfl
  have h1 : slotIs { s with dec := d } .one .free = slotIs s .one .free := rfl
  unfold ensureFill
  rw [hf, h0, h1]
  split
  · rfl
  · split
    · rfl
    · split <;> rfl

theorem acquire_withDec (s : State) (d : Dec) :
    acquireForFill { s with dec := d }
      = { acquireForFill s with st := { (acquireForFill s).st with dec := d } } := by
  have hf : fillIdx { s with dec := d } = fillIdx s := rfl
  have hr : reclaimable { s with dec := d } = reclaimable s := rfl
  unfold acquireForFill
  rw [hf]
  split
  · rfl
  · simp only
    split
    · unfold reclaim
      rw [hr]
      split
      · rfl
      next r _ => cases r <;> rfl
      · change takeBack _ s.arb.older = _
        cases s.arb.older <;> rfl
    · rfl

theorem publish_withDec (s : State) (d : Dec) (f : SlotIdx) (n : Half) :
    publish { s with dec := d } f n
      = { publish s f n with st := { (publish s f n).st with dec := d } } := by
  have hb : publishBranch { s with dec := d } f n
      = { publishBranch s f n with st := { (publishBranch s f n).st with dec := d } } := by
    have ho : otherReady { s with dec := d } f = otherReady s f := rfl
    unfold publishBranch
    rw [ho]
    split
    · cases f <;> rfl
    next o _ =>
      simp only
      split
      · cases f <;> rfl
      · split
        · cases f <;> cases o <;> rfl
        · rfl
  unfold publish
  rw [hb]
  simp only [ensureFill_withDec]

theorem complete_withDec (s : State) (d : Dec) (hlen : d.len = s.dec.len)
    (hns : d.noslot = s.dec.noslot) : complete { s with dec := d } = complete s := by
  unfold complete
  simp only [acquire_withDec, hns, hlen]
  split
  · rfl
  · split
    · rfl
    · simp only [publish_withDec]
      rfl

/-! ## One `BYTE` step -/

/-- What `COMPLETE` can do: drop the frame, leaving every slot, or publish it in the slot that
`ACQUIRE_FOR_FILL` gives. -/
theorem complete_cases (s : State) :
    ((s.dec.noslot = true ∨ (acquireForFill s).slot = none)
      ∧ complete s = { st := goIdle (countDrop s)
                       rep := { outcome := .complete, pub := .dropped, lostOld := false } })
    ∨ ∃ f, s.dec.noslot = false ∧ (acquireForFill s).slot = some f
      ∧ complete s = { st := goIdle (publish (acquireForFill s).st f s.dec.len).st
                       rep := { outcome := .complete
                                pub := (publish (acquireForFill s).st f s.dec.len).pub
                                lostOld := (acquireForFill s).lostOld
                                  || (publish (acquireForFill s).st f s.dec.len).lostOld } } := by
  unfold complete
  cases hns : s.dec.noslot
  · cases hsl : (acquireForFill s).slot with
    | none =>
      left
      refine ⟨.inr rfl, ?_⟩
      rcases acquire_cases s with ⟨g, -, he⟩ | ⟨-, he, -⟩ | ⟨r, -, -, -, -, he⟩
      · simp [he] at hsl
      · simp [he, dropFrame]
      · simp [he] at hsl
    | some f => exact .inr ⟨f, rfl, rfl, by simp⟩
  · exact .inl ⟨.inl rfl, by simp [dropFrame]⟩

/-- In a well-formed configuration a byte that restarts an attempt in `WaitData` completes no frame. -/
theorem restarts_not_completes (s : State) (b : Byte) (hc : cfgOk s.cfg = true)
    (hp : s.dec.phase = .waitData) (hr : restarts s b = true) : ¬ Completes s b := by
  rintro (⟨-, hf, hb, -⟩ | ⟨h, -⟩)
  · simp only [cfgOk, delimitersOk, boundaryByte, hf, Bool.and_eq_true, Bool.not_eq_true'] at hc
    simp only [restarts, isStart, Bool.and_eq_true] at hr
    simp_all
  · simp [hp] at h

/-- The transitions of a `BYTE` step that touch no slot (41_decoder.md R122): the decoder registers, the
counters and the outcome after byte `b` in state `u`. -/
inductive Quiet (u : State) (b : Byte) : Dec → Cnt → ByteOutcome → Prop where
  /-- R124: a byte ignored in `WaitStart`. -/
  | ignored (hp : u.dec.phase = .waitStart) (hb : b ≠ u.cfg.startByte) : Quiet u b u.dec u.cnt .none
  /-- R124: the start delimiter in `WaitStart`. -/
  | begins (hp : u.dec.phase = .waitStart) (hb : b = u.cfg.startByte) :
      Quiet u b (clearedDec u.cfg .waitData) u.cnt .none
  /-- R125: a restart in `WaitData`. -/
  | restartsData (hp : u.dec.phase = .waitData) (hr : restarts u b = true) :
      Quiet u b (clearedDec u.cfg .waitData) u.cnt .resync
  /-- R130, R131: a restart in the trailer. -/
  | restartsTrailer (hp : u.dec.phase = .waitChecksumHi ∨ u.dec.phase = .waitChecksumLo)
      (hx : hexVal u.cfg.hexLower b = none) (hb : b = u.cfg.startByte) :
      Quiet u b (clearedDec u.cfg .waitData) u.cnt .resync
  /-- R127: the boundary byte of an overflowed attempt. -/
  | endsOverflowed (hp : u.dec.phase = .waitData) (hr : restarts u b = false)
      (hb : isBoundary u.cfg b = true) (ho : u.dec.ovf = true) :
      Quiet u b (clearedDec u.cfg (idlePhase u.cfg)) u.cnt .resync
  /-- R125: the introducer. -/
  | introduces (hp : u.dec.phase = .waitData) (hr : restarts u b = false)
      (hb : isBoundary u.cfg b = true) (ho : u.dec.ovf = false) (hf : u.cfg.framing = .cksum) :
      Quiet u b { u.dec with phase := .waitChecksumHi } u.cnt .none
  /-- R126: a byte discarded by an overflowed attempt. -/
  | discarded (hp : u.dec.phase = .waitData) (hr : restarts u b = false)
      (hb : isBoundary u.cfg b = false) (ho : u.dec.ovf = true) : Quiet u b u.dec u.cnt .none
  /-- R126: the byte that finds the attempt full. -/
  | overflows (hp : u.dec.phase = .waitData) (hr : restarts u b = false)
      (hb : isBoundary u.cfg b = false) (ho : u.dec.ovf = false) (hl : ¬ u.dec.len.toNat < u.cfg.cap) :
      Quiet u b { u.dec with ovf := true } { u.cnt with ovf := satInc u.cnt.ovf } .overflow
  /-- R126: a payload byte of an attempt without a slot. -/
  | unstored (hp : u.dec.phase = .waitData) (hr : restarts u b = false)
      (hb : isBoundary u.cfg b = false) (ho : u.dec.ovf = false) (hl : u.dec.len.toNat < u.cfg.cap)
      (hs : u.dec.noslot = true ∨ (acquireForFill u).slot = none) :
      Quiet u b { u.dec with len := u.dec.len + 1#16, ck := fold u.cfg.fold u.dec.ck b, noslot := true }
        u.cnt .none
  /-- R130: the first trailer digit. -/
  | firstDigit (n : Nibble) (hp : u.dec.phase = .waitChecksumHi) (hx : hexVal u.cfg.hexLower b = some n) :
      Quiet u b { u.dec with rx := rxHigh n, phase := .waitChecksumLo } u.cnt .none
  /-- R131: a checksum mismatch. -/
  | mismatch (n : Nibble) (hp : u.dec.phase = .waitChecksumLo) (hx : hexVal u.cfg.hexLower b = some n)
      (hn : rxLow u.dec.rx n ≠ u.dec.ck) :
      Quiet u b (clearedDec u.cfg (idlePhase u.cfg)) { u.cnt with ckerr := satInc u.cnt.ckerr } .resync
  /-- R130, R131: a malformed trailer. -/
  | malformed (hp : u.dec.phase = .waitChecksumHi ∨ u.dec.phase = .waitChecksumLo)
      (hx : hexVal u.cfg.hexLower b = none) (hb : b ≠ u.cfg.startByte) :
      Quiet u b (clearedDec u.cfg (idlePhase u.cfg)) { u.cnt with malf := satInc u.cnt.malf } .resync

/-- A transition that touches no slot leaves `cnt.drop` and completes nothing. -/
theorem Quiet.facts {u : State} {b : Byte} {d : Dec} {c : Cnt} {o : ByteOutcome} (h : Quiet u b d c o) :
    c.drop = u.cnt.drop ∧ o ≠ .complete ∧ (cfgOk u.cfg = true → ¬ Completes u b) := by
  cases h with
  | ignored hp hb => simp [Completes, hp]
  | begins hp hb => simp [Completes, hp]
  | restartsData hp hr => exact ⟨rfl, by simp, fun hc => restarts_not_completes u b hc hp hr⟩
  | restartsTrailer hp hx hb => rcases hp with hp | hp <;> simp [Completes, hp, hx]
  | endsOverflowed hp hr hb ho => simp [Completes, hp, ho]
  | introduces hp hr hb ho hf => simp [Completes, hp, hf]
  | discarded hp hr hb ho => simp [Completes, hp, ho]
  | overflows hp hr hb ho hl =>
    refine ⟨rfl, by simp, fun _ => ?_⟩
    rintro (⟨-, hf, rfl, -⟩ | ⟨h, -⟩)
    · simp [isBoundary, boundaryByte, hf] at hb
    · simp [hp] at h
  | unstored hp hr hb ho hl hs =>
    refine ⟨rfl, by simp, fun _ => ?_⟩
    rintro (⟨-, hf, rfl, -⟩ | ⟨h, -⟩)
    · simp [isBoundary, boundaryByte, hf] at hb
    · simp [hp] at h
  | firstDigit n hp hx => simp [Completes, hp]
  | mismatch n hp hx hn => simp [Completes, hp, hx, hn]
  | malformed hp hx hb => rcases hp with hp | hp <;> simp [Completes, hp, hx]

/-- What the dispatch on the phase can do (41_decoder.md R122). Either no slot is touched, and the change is
`Quiet`; or the byte is stored in the slot that `ACQUIRE_FOR_FILL` gives; or a frame completes, and the step
is `COMPLETE`. -/
theorem bytePhase_cases (u : State) (b : Byte) :
    (∃ d c o, Quiet u b d c o
      ∧ bytePhase u b = { st := { u with dec := d, cnt := c }, rep := Report.only o })
    ∨ (∃ f, u.dec.phase = .waitData ∧ restarts u b = false ∧ isBoundary u.cfg b = false
      ∧ u.dec.ovf = false ∧ u.dec.len.toNat < u.cfg.cap ∧ u.dec.noslot = false
      ∧ (acquireForFill u).slot = some f
      ∧ bytePhase u b
        = { st := acceptByte (memWrite (acquireForFill u).st f u.dec.len.toNat b) b false
            rep := { outcome := .none, pub := .nopub, lostOld := (acquireForFill u).lostOld } })
    ∨ (Completes u b ∧ bytePhase u b = complete u) := by
  unfold bytePhase
  match hph : u.dec.phase with
  | .waitStart =>
    left
    simp only [byteWaitStart]
    split
    next hb => exact ⟨_, _, _, .begins hph hb, rfl⟩
    next hb => exact ⟨_, _, _, .ignored hph hb, rfl⟩
  | .waitData =>
    simp only [byteWaitData]
    split
    next hr => exact .inl ⟨_, _, _, .restartsData hph hr, rfl⟩
    next hr =>
      rw [Bool.not_eq_true] at hr
      split
      next hb =>
        simp only [byteBoundary]
        split
        next ho => exact .inl ⟨_, _, _, .endsOverflowed hph hr hb ho, rfl⟩
        next ho =>
          rw [Bool.not_eq_true] at ho
          split
          next hf => exact .inl ⟨_, _, _, .introduces hph hr hb ho hf, rfl⟩
          next hf => exact .inr (.inr ⟨.inl ⟨hph, hf, by simpa [isBoundary, boundaryByte, hf] using hb, ho⟩,
              rfl⟩)
      next hb =>
        rw [Bool.not_eq_true] at hb
        simp only [append]
        split
        next ho => exact .inl ⟨_, _, _, .discarded hph hr hb ho, rfl⟩
        next ho =>
          rw [Bool.not_eq_true] at ho
          split
          next hl =>
            simp only [storeByte]
            split
            next hs => exact .inl ⟨_, _, _, .unstored hph hr hb ho hl (.inl hs), rfl⟩
            next hs =>
              rw [Bool.not_eq_true] at hs
              split
              next hsl =>
                refine .inl ⟨_, _, _, .unstored hph hr hb ho hl (.inr hsl), ?_⟩
                rcases acquire_cases u with ⟨g, -, he⟩ | ⟨-, he, -⟩ | ⟨r, -, -, -, -, he⟩
                · simp [he] at hsl
                · simp only [he, acceptByte]
                · simp [he] at hsl
              next f hsl => exact .inr (.inl ⟨f, trivial, hr, hb, ho, hl, hs, hsl, rfl⟩)
          next hl => exact .inl ⟨_, _, _, .overflows hph hr hb ho hl, rfl⟩
  | .waitChecksumHi =>
    left
    simp only [byteWaitHi]
    split
    next n hn => exact ⟨_, _, _, .firstDigit n hph hn, rfl⟩
    next hn =>
      simp only [badTrailer]
      split
      next hb => exact ⟨_, _, _, .restartsTrailer (.inl hph) hn hb, rfl⟩
      next hb => exact ⟨_, _, _, .malformed (.inl hph) hn hb, rfl⟩
  | .waitChecksumLo =>
    simp only [byteWaitLo]
    split
    next n hn =>
      split
      next he => exact .inr (.inr ⟨.inr ⟨hph, n, hn, he⟩, complete_withDec _ _ rfl rfl⟩)
      next he => exact .inl ⟨_, _, _, .mismatch n hph hn he, rfl⟩
    next hn =>
      left
      simp only [badTrailer]
      split
      next hb => exact ⟨_, _, _, .restartsTrailer (.inr hph) hn hb, rfl⟩
      next hb => exact ⟨_, _, _, .malformed (.inr hph) hn hb, rfl⟩

@[simp] theorem ensureFill_restarts (s : State) (b : Byte) : restarts (ensureFill s) b = restarts s b := by
  simp [restarts]

@[simp] theorem ensureFill_completes (s : State) (b : Byte) :
    Completes (ensureFill s) b ↔ Completes s b := by simp [Completes]

/-- What a `BYTE` step can do: `bytePhase_cases` on the state that its `ENSURE_FILL` leaves. -/
theorem byteStep_cases (s : State) (b : Byte) :
    (∃ d c o, Quiet (ensureFill s) b d c o
      ∧ byteStep s b = { st := { ensureFill s with dec := d, cnt := c }, rep := Report.only o })
    ∨ (∃ f, s.dec.phase = .waitData ∧ restarts s b = false ∧ isBoundary s.cfg b = false
      ∧ s.dec.ovf = false ∧ s.dec.len.toNat < s.cfg.cap ∧ s.dec.noslot = false
      ∧ (acquireForFill (ensureFill s)).slot = some f
      ∧ byteStep s b
        = { st := acceptByte (memWrite (acquireForFill (ensureFill s)).st f s.dec.len.toNat b) b false
            rep := { outcome := .none, pub := .nopub
                     lostOld := (acquireForFill (ensureFill s)).lostOld } })
    ∨ (Completes s b ∧ byteStep s b = complete (ensureFill s)) := by
  rcases bytePhase_cases (ensureFill s) b with h | ⟨f, h⟩ | h
  · exact .inl h
  · exact .inr (.inl ⟨f, by simpa [byteStep] using h⟩)
  · exact .inr (.inr ⟨(ensureFill_completes s b).1 h.1, h.2⟩)

end Sys2Proof.Laws
end

