-- ==== Sys2Proof/Laws/PerInstr.lean ====
section
/-! SUPPORT. The families of statements made per command. -/

namespace Sys2Proof.Laws

/-- The fields of a command's word (30_encoding.md R91, R92): its operation code, the zero field and its
operand stand where format `CMD32` has them. -/
def EncodeFields.Statement (i : Instr) : Prop :=
  opField (encode i) = opcode i ∧ zField (encode i) = 0#12 ∧ argField (encode i) = operand i

theorem cmdWord_fields (op : BitVec 4) (arg : Half) :
    opField (cmdWord op arg) = op ∧ zField (cmdWord op arg) = 0#12 ∧ argField (cmdWord op arg) = arg := by
  refine ⟨?_, ?_, ?_⟩ <;> apply BitVec.eq_of_getLsbD_eq <;> intro k hk <;>
    simp only [opField, zField, argField, cmdWord, BitVec.getLsbD_extractLsb', BitVec.getLsbD_append, hk]
  · simp [show ¬ 28 + k < 16 by omega, show ¬ 28 + k - 16 < 12 by omega,
      show 28 + k - 16 - 12 = k by omega]
  · simp [show ¬ 16 + k < 16 by omega]
    omega
  · simp [hk]

theorem EncodeFields.nop : EncodeFields.Statement .nop := cmdWord_fields _ _
theorem EncodeFields.byte (b : Byte) : EncodeFields.Statement (.byte b) := cmdWord_fields _ _
theorem EncodeFields.take : EncodeFields.Statement .take := cmdWord_fields _ _
theorem EncodeFields.read (off : Half) : EncodeFields.Statement (.read off) := cmdWord_fields _ _
theorem EncodeFields.release : EncodeFields.Statement .release := cmdWord_fields _ _
theorem EncodeFields.stat (sel : BitVec 4) : EncodeFields.Statement (.stat sel) := cmdWord_fields _ _

end Sys2Proof.Laws
end

