-- ==== Sys2Proof/Laws/Step.lean ====
section
/-! SUPPORT. What a command and a step can do, said once: one lemma per command that opens its port check,
and `step_cases`, the inversion of a step that gives a next state. -/

namespace Sys2Proof.Laws

open Sys2Proof.Machine

/-- What the port check can give: the meaning on its own port, `ERR_CONTEXT` on the other. -/
theorem onPort_next (port : Port) (s t : State) (m : Host.Outcome State Fault Refusal)
    (h : onPort port s m = .next t) :
    (s.port = port ∧ m = .next t) ∨ (s.port ≠ port ∧ t = respond s .errContext 0x0000#16) := by
  unfold onPort at h
  split at h
  next hp => exact .inl ⟨hp, h⟩
  next hp =>
    simp only [commandError, Host.Outcome.next.injEq] at h
    exact .inr ⟨hp, h.symm⟩

/-- What a `BYTE` can do (41_decoder.md R120). -/
theorem execByte_next (b : Byte) (s t : State) (h : execByte b s = .next t) :
    (s.port = .p ∧ t = respond (byteStep s b).st .ok (reportValue (byteStep s b).rep))
    ∨ (s.port ≠ .p ∧ t = respond s .errContext 0x0000#16) := by
  rcases onPort_next _ _ _ _ h with ⟨hp, h⟩ | h
  · simp only [Host.Outcome.next.injEq] at h
    exact .inl ⟨hp, h.symm⟩
  · exact .inr h

/-- What `TAKE` can do on port C (42_arbiter.md R160): answer the held slot's length again, answer `EMPTY`
with no slot `Ready`, or hold a `Ready` slot, `arb.older` if both are. -/
theorem takeStep_cases (s : State) :
    (∃ h, s.arb.held = some h ∧ takeStep s = respond s .ok (slotAt s h).length)
    ∨ (s.arb.held = none ∧ readySet s = [] ∧ takeStep s = respond s .empty 0x0000#16)
    ∨ ∃ r, s.arb.held = none ∧ slotIs s r .ready = true
        ∧ ((∀ i, slotIs s i .ready = true) → r = s.arb.older) ∧ takeStep s = takeSlot s r := by
  unfold takeStep takeReady
  cases hh : s.arb.held with
  | some h => simp
  | none =>
    rcases readySet_cases s with ⟨hr, h0, h1⟩ | ⟨hr, h0, h1⟩ | ⟨hr, h0, h1⟩ | ⟨hr, h0, h1⟩ <;> rw [hr]
    · simp
    · refine .inr (.inr ⟨.zero, rfl, h0, fun h => ?_, rfl⟩)
      simp [h .one] at h1
    · refine .inr (.inr ⟨.one, rfl, h1, fun h => ?_, rfl⟩)
      simp [h .zero] at h0
    · refine .inr (.inr ⟨s.arb.older, rfl, ?_, fun _ => rfl, rfl⟩)
      cases s.arb.older <;> assumption

/-- What a `TAKE` can do. -/
theorem execTake_next (s t : State) (h : execTake s = .next t) :
    (s.port = .c ∧ t = takeStep s) ∨ (s.port ≠ .c ∧ t = respond s .errContext 0x0000#16) := by
  rcases onPort_next _ _ _ _ h with ⟨hp, h⟩ | h
  · simp only [Host.Outcome.next.injEq] at h
    exact .inl ⟨hp, h.symm⟩
  · exact .inr h

/-- A `READ` never changes the state but for the response (43_consumer_port.md R170). -/
theorem execRead_next (off : Half) (s t : State) (h : execRead off s = .next t) :
    ∃ st v, t = respond s st v ∧ (st ≠ .ok → v = 0x0000#16) := by
  rcases onPort_next _ _ _ _ h with ⟨-, h⟩ | ⟨-, h⟩
  · split at h
    · simp only [commandError, Host.Outcome.next.injEq] at h
      exact ⟨.errNoheld, 0x0000#16, h.symm, fun _ => rfl⟩
    · unfold readHeld at h
      split at h
      · simp only [commandError, Host.Outcome.next.injEq] at h
        exact ⟨.errRange, 0x0000#16, h.symm, fun _ => rfl⟩
      · split at h
        · simp only [Host.Outcome.next.injEq] at h
          exact ⟨.ok, _, h.symm, fun hn => absurd rfl hn⟩
        · simp at h
  · exact ⟨.errContext, 0x0000#16, h, fun _ => rfl⟩

/-- What a `RELEASE` can do (42_arbiter.md R162). -/
theorem execRelease_next (s t : State) (h : execRelease s = .next t) :
    (∃ st, st ≠ .ok ∧ t = respond s st 0x0000#16)
    ∨ ∃ j, s.port = .c ∧ s.arb.held = some j ∧ t = releaseSlot s j := by
  rcases onPort_next _ _ _ _ h with ⟨hp, h⟩ | ⟨-, h⟩
  · split at h
    · simp only [commandError, Host.Outcome.next.injEq] at h
      exact .inl ⟨.errNoheld, by simp, h.symm⟩
    next j hj =>
      simp only [Host.Outcome.next.injEq] at h
      exact .inr ⟨j, hp, hj, h.symm⟩
  · exact .inl ⟨.errContext, by simp, h⟩

/-- A `STAT` always gives a next state and changes nothing but the response (43_consumer_port.md R171). -/
theorem execStat_next (sel : BitVec 4) (s : State) :
    ∃ st v, execStat sel s = .next (respond s st v) ∧ (st ≠ .ok → v = 0x0000#16) := by
  unfold execStat
  split
  · exact ⟨.errIllegal, 0x0000#16, rfl, fun _ => rfl⟩
  · split
    · exact ⟨.errContext, 0x0000#16, rfl, fun _ => rfl⟩
    · exact ⟨.ok, _, rfl, fun h => absurd rfl h⟩

/-- What a step that gives a next state can do: stay, with no input; reset; or take a command word, which is
illegal and answered so, or is decoded and executed. -/
theorem step_cases (s t : State) (h : step s = .next t) :
    cfgOk s.cfg = true
    ∧ ((s.input = [] ∧ t = s)
      ∨ (∃ rest, s.input = .rst :: rest ∧ afterReset s rest = some t)
      ∨ ∃ port w rest,
          (s.input.head? = some (.cmd port w)
            ∨ ∃ wc, s.input.head? = some (.both w wc) ∧ port = .p)
          ∧ ((∃ e, decode w = .error e ∧ t = respond (accept s port rest) .errIllegal 0x0000#16)
            ∨ ∃ i, decode w = .ok i ∧ exec i (accept s port rest) = .next t)
          ∧ (s.input = .cmd port w :: rest
            ∨ ∃ wc l, s.input = .both w wc :: l ∧ rest = .cmd .c wc :: l)) := by
  unfold step at h
  split at h
  next hc =>
    refine ⟨hc, ?_⟩
    have run (w : Word) (st : State) (hr : runWord w st = .next t) :
        (∃ e, decode w = .error e ∧ t = respond st .errIllegal 0x0000#16)
        ∨ ∃ i, decode w = .ok i ∧ exec i st = .next t := by
      unfold runWord at hr
      split at hr
      next i hi => exact .inr ⟨i, hi, hr⟩
      next e he =>
        simp only [illegalCommand, commandError, Host.Outcome.next.injEq] at hr
        exact .inl ⟨e, he, hr.symm⟩
    unfold stepInput fetch at h
    match hi : s.input with
    | [] =>
      simp only [hi, Host.Outcome.next.injEq] at h
      exact .inl ⟨rfl, h.symm⟩
    | .rst :: rest =>
      simp only [hi] at h
      cases hr : afterReset s rest with
      | some st =>
        simp only [hr, Host.Outcome.next.injEq] at h
        exact .inr (.inl ⟨rest, rfl, by rw [hr, h]⟩)
      | none => simp [hr] at h
    | .cmd port w :: rest =>
      simp only [hi] at h
      exact .inr (.inr ⟨port, w, rest, .inl rfl, run _ _ h, .inl rfl⟩)
    | .both wp wc :: l =>
      simp only [hi] at h
      exact .inr (.inr ⟨.p, wp, .cmd .c wc :: l, .inr ⟨wc, rfl, rfl⟩, run _ _ h, .inr ⟨wc, l, rfl, rfl⟩⟩)
  next => simp at h

end Sys2Proof.Laws
end

