-- ==== Sys2Proof/Machine/Asm.lean ====
section
/-! DEFINITION. The textual form of a command trace (spec/30_encoding.md R100) and the pseudo-commands
(R101): one line of text is read as a command, and each line is expanded into the inputs it presents. What R100 leaves
open of the text is DESIGN CHOICE, log entry 16. -/

namespace Sys2Proof.Machine

/-- One line of a trace (R100, R101). `POLL` is read as the `TAKE` it stands for. -/
inductive AsmLine where
  /-- nothing, or only a comment. -/
  | empty
  /-- one command on a port. -/
  | command (port : Port) (i : Instr)
  /-- `P: STR "text"`. -/
  | str (bytes : List Byte)
  /-- `C: DRAIN`. -/
  | drain
deriving DecidableEq, Repr

/-- The single quote, the double quote and the backslash. -/
def asmQuote : Char := Char.ofNat 39
@[inherit_doc asmQuote] def asmDoubleQuote : Char := Char.ofNat 34
@[inherit_doc asmQuote] def asmBackslash : Char := Char.ofNat 92

/-- Drop leading blanks. -/
def skipBlanks (cs : List Char) : List Char :=
  cs.dropWhile fun c => c == ' ' || c == Char.ofNat 9

/-- A character of a mnemonic, a number or a selector name. -/
def isNameChar (c : Char) : Bool := c.isAlphanum || c == '_'

/-- Nothing follows but blanks and a comment (R100: a semicolon starts one). -/
def lineEnds (cs : List Char) : Bool :=
  match skipBlanks cs with
  | [] => true
  | c :: _ => c == ';'

/-- The value of a digit character, at most 15. -/
def digitValue (c : Char) : Option Nat :=
  if 48 ≤ c.toNat ∧ c.toNat ≤ 57 then some (c.toNat - 48)
  else if 65 ≤ c.toNat ∧ c.toNat ≤ 70 then some (c.toNat - 55)
  else if 97 ≤ c.toNat ∧ c.toNat ≤ 102 then some (c.toNat - 87)
  else none

/-- The value of a digit string in a base, from an accumulator. -/
def digitsValue (base acc : Nat) (cs : List Char) : Option Nat :=
  match cs with
  | [] => some acc
  | c :: rest =>
    match digitValue c with
    | some d => if d < base then digitsValue base (acc * base + d) rest else none
    | none => none

/-- A number (R100): decimal, or hexadecimal after `0x`. -/
def numberValue (cs : List Char) : Option Nat :=
  match cs with
  | [] => none
  | '0' :: 'x' :: c :: rest => digitsValue 16 0 (c :: rest)
  | c :: rest => digitsValue 10 0 (c :: rest)

/-- The byte of a character: its code, when it is a byte (00_scope.md R10). -/
def charByte (c : Char) : Option Byte :=
  if c.toNat < 256 then some (BitVec.ofNat 8 c.toNat) else none

/-- The byte of an escape (R100): `\n`, `\r`, `\\` and `\'`. -/
def escapeByte (c : Char) : Option Byte :=
  if c = 'n' then some 0x0A#8
  else if c = 'r' then some 0x0D#8
  else if c = asmBackslash then some 0x5C#8
  else if c = asmQuote then some 0x27#8
  else none

/-- The character after an opening single quote, and what follows the closing one. -/
def quotedChar (cs : List Char) : Option (Byte × List Char) :=
  match cs with
  | c :: d :: rest =>
    if c = asmBackslash then
      match rest with
      | e :: after => if e = asmQuote then (escapeByte d).map fun b => (b, after) else none
      | [] => none
    else if d = asmQuote then (charByte c).map fun b => (b, rest) else none
  | _ => none

/-- The bytes of a text up to its closing double quote, and what follows. `esc` says that the last
character was an unused backslash. -/
def quotedText (esc : Bool) (cs : List Char) : Option (List Byte × List Char) :=
  match cs with
  | [] => none
  | c :: rest =>
    if esc then
      match escapeByte c, quotedText false rest with
      | some b, some (bs, after) => some (b :: bs, after)
      | _, _ => none
    else if c = asmDoubleQuote then some ([], rest)
    else if c = asmBackslash then quotedText true rest
    else
      match charByte c, quotedText false rest with
      | some b, some (bs, after) => some (b :: bs, after)
      | _, _ => none

/-- The selector names of 43_consumer_port.md R172. -/
def selectorNames : List (String × Nat) :=
  [("DEC_PHASE", 0), ("DEC_LEN", 1), ("DEC_CK", 2), ("DEC_RX", 3), ("ARB", 4), ("SLOT0_LEN", 5),
    ("SLOT1_LEN", 6), ("OVF_CNT", 8), ("DROP_CNT", 9), ("CKERR_CNT", 10), ("MALF_CNT", 11),
    ("CFG0", 12), ("CFG1", 13), ("CFG2", 14)]

/-- The number a selector name stands for. -/
def selectorNumber (cs : List Char) : Option Nat :=
  (selectorNames.find? fun e => e.1.toList == cs).map fun e => e.2

/-- A numeric operand below `bound`, and what follows: a number or a quoted character. -/
def numericOperand (bound : Nat) (cs : List Char) : Option (Nat × List Char) :=
  match cs with
  | [] => none
  | c :: rest =>
    if c = asmQuote then
      match quotedChar rest with
      | some (b, after) => if b.toNat < bound then some (b.toNat, after) else none
      | none => none
    else
      match numberValue ((c :: rest).takeWhile isNameChar) with
      | some n => if n < bound then some (n, (c :: rest).dropWhile isNameChar) else none
      | none => none

/-- A `STAT` operand (R100): a selector number or its name. -/
def selectorOperand (cs : List Char) : Option (Nat × List Char) :=
  match selectorNumber (cs.takeWhile isNameChar) with
  | some n => some (n, cs.dropWhile isNameChar)
  | none => numericOperand 16 cs

/-- A line without an operand. -/
def plainLine (line : AsmLine) (rest : List Char) : Option AsmLine :=
  if lineEnds rest then some line else none

/-- A line with a numeric operand. -/
def operandLine (make : Nat → AsmLine) (operand : Option (Nat × List Char)) : Option AsmLine :=
  match operand with
  | some (n, rest) => if lineEnds rest then some (make n) else none
  | none => none

/-- The text line of `STR`, after its mnemonic. -/
def textLine (cs : List Char) : Option AsmLine :=
  match cs with
  | [] => none
  | c :: rest =>
    if c = asmDoubleQuote then
      match quotedText false rest with
      | some (bs, after) => if lineEnds after then some (.str bs) else none
      | none => none
    else none

/-- The mnemonic and operand of a line, after its port letter. The pseudo-commands stand on the ports
R101 gives them. -/
def parseCommand (port : Port) (mnemonic : String) (rest : List Char) : Option AsmLine :=
  if mnemonic = "NOP" then plainLine (.command port .nop) rest
  else if mnemonic = "BYTE" then
    operandLine (fun n => .command port (.byte (BitVec.ofNat 8 n))) (numericOperand 256 (skipBlanks rest))
  else if mnemonic = "TAKE" then plainLine (.command port .take) rest
  else if mnemonic = "READ" then
    operandLine (fun n => .command port (.read (BitVec.ofNat 16 n))) (numericOperand 65536 (skipBlanks rest))
  else if mnemonic = "RELEASE" then plainLine (.command port .release) rest
  else if mnemonic = "STAT" then
    operandLine (fun n => .command port (.stat (BitVec.ofNat 4 n))) (selectorOperand (skipBlanks rest))
  else if mnemonic = "STR" ∧ port = .p then textLine (skipBlanks rest)
  else if mnemonic = "POLL" ∧ port = .c then plainLine (.command .c .take) rest
  else if mnemonic = "DRAIN" ∧ port = .c then plainLine .drain rest
  else none

/-- What follows the port letter and its colon. -/
def parseOnPort (port : Port) (cs : List Char) : Option AsmLine :=
  parseCommand port (String.ofList ((skipBlanks cs).takeWhile isNameChar)) ((skipBlanks cs).dropWhile isNameChar)

/-- One line of a trace (R100); `none` when it is no line of that form. -/
def parseLine (line : String) : Option AsmLine :=
  match skipBlanks line.toList with
  | [] => some .empty
  | ';' :: _ => some .empty
  | 'P' :: ':' :: rest => parseOnPort .p rest
  | 'C' :: ':' :: rest => parseOnPort .c rest
  | _ => none

/-- The command input of an instruction on a port. -/
def presentInstr (port : Port) (i : Instr) : Input := .cmd port (encode i)

/-- The inputs a line presents at once (R101); for `DRAIN` its first command, `TAKE`. -/
def expandLine (line : AsmLine) : List Input :=
  match line with
  | .empty => []
  | .command port i => [presentInstr port i]
  | .str bytes => bytes.map fun b => presentInstr .p (.byte b)
  | .drain => [presentInstr .c .take]

/-- The rest of `DRAIN` after the response to its `TAKE` (R101): for `OK` with length `n` the `n` reads and
the `RELEASE`, for `EMPTY` nothing more. -/
def drainRest (rsp : Word) : List Input :=
  if rsp.extractLsb' 28 4 = 0x0#4 then
    (List.range (rsp.extractLsb' 0 16).toNat).map (fun k => presentInstr .c (.read (BitVec.ofNat 16 k)))
      ++ [presentInstr .c .release]
  else []

end Sys2Proof.Machine
end

