-- ==== Sys2Proof/Tests/Slice0.lean ====
section
/-! SUPPORT. Tests of the model. Section 1: the check that refuses each kind of ill-formed term. Section 2:
command words written out from spec/30_encoding.md. Section 3: one-step tests whose expected values are the
spec's worked examples. Section 4: for each statement with hypotheses, a state and operands that meet them. -/

namespace Sys2Proof.Tests

open Sys2Proof.Machine Sys2Proof.Laws

/-! ## 1. Well-formedness (00_scope.md R7, R9): one ill-formed configuration for each check -/

theorem test_wf_cfgA : cfgOk Config.cfgA = true := by decide
theorem test_wf_cfgB : cfgOk Config.cfgB = true := by decide
theorem test_wf_capZero : cfgOk { Config.cfgA with cap := 0 } = false := by decide
theorem test_wf_capTooLarge : cfgOk { Config.cfgA with cap := 65536 } = false := by decide
theorem test_wf_nslots : cfgOk { Config.cfgA with nslots := 3 } = false := by decide
theorem test_wf_swapOneSlot : cfgOk { Config.cfgA with policy := .swap } = false := by decide
theorem test_wf_cksumNoStart : cfgOk { Config.cfgB with useStart := false } = false := by decide
theorem test_wf_startIsEnd : cfgOk { Config.cfgA with useStart := true, startByte := 0x0A#8 } = false := by
  decide
theorem test_wf_startIsIntro : cfgOk { Config.cfgB with introByte := 0x24#8 } = false := by decide
theorem test_wf_startIsHex : cfgOk { Config.cfgB with startByte := 0x41#8 } = false := by decide
theorem test_wf_trailerWidth : cfgOk { Config.cfgA with trailerWidth := 4 } = false := by decide
theorem test_wf_foldTable : cfgOk { Config.cfgA with fold := .table [] } = false := by decide
theorem test_wf_noReset : State.resetOf { Config.cfgA with nslots := 3 } = none := by decide
theorem test_wf_reset : State.resetOf Config.cfgA = some State.reset := by decide
theorem test_wf_statSelector : Instr.wellFormed (.stat 7#4) = false := by decide

/-! ## 2. Decoding (30_encoding.md R91, R92, R94) -/

theorem test_decode_nop : decode 0b00000000000000000000000000000000#32 = .ok .nop := rfl
theorem test_decode_byte : decode 0b00010000000000000000000010100101#32 = .ok (.byte 0xA5#8) := rfl
theorem test_decode_take : decode 0b00100000000000000000000000000000#32 = .ok .take := rfl
theorem test_decode_read : decode 0b00110000000000001000000000000001#32 = .ok (.read 0x8001#16) := rfl
theorem test_decode_release : decode 0b01000000000000000000000000000000#32 = .ok .release := rfl
theorem test_decode_stat : decode 0b01010000000000000000000000001100#32 = .ok (.stat 12#4) := rfl
theorem test_decode_op6 : decode 0x60000000#32 = .error .undefinedOp := rfl
theorem test_decode_z : decode 0x38000000#32 = .error .zNotZero := rfl
theorem test_decode_byteArg : decode 0x10000141#32 = .error .argNotZero := rfl
theorem test_decode_statArg : decode 0x50000014#32 = .error .argNotZero := rfl
theorem test_decode_takeArg : decode 0x20000001#32 = .error .argNotZero := rfl
theorem test_table_word : decodeTableWord 32 0x10000041 = some (.byte 0x41#8) := rfl

/-- R100: `C: READ 0x10 ; a comment`. -/
theorem test_asm_read : parseLine "C: READ 0x10 ; a comment" = some (.command .c (.read 0x10#16)) := by
  decide
/-- R101: `P: STR "$A\n"`. -/
theorem test_asm_str :
    parseLine "P: STR \"$A\\n\"" = some (.str [0x24#8, 0x41#8, 0x0A#8]) := by decide

/-! ## 3. One step each -/

/-- The next state of a command, or the same state if it stops. -/
def after (i : Instr) (s : State) : State :=
  match exec i s with
  | .next t => t
  | .fault _ => s
  | .refused _ => s

/-- The reset state of a well-formed configuration. -/
def start (c : Config) : State := (State.resetOf c).getD State.reset

/-- The state after a list of commands, each on its port. -/
def go (cmds : List (Port × Instr)) (s : State) : State :=
  cmds.foldl (fun s c => after c.2 (onPortOf c.1 s)) s

/-- The commands that deliver bytes. -/
def bytes (l : List Nat) : List (Port × Instr) := l.map fun n => (.p, .byte (BitVec.ofNat 8 n))

/-- The response word of a command given on a port. -/
def answer (port : Port) (i : Instr) (s : State) : Option Word :=
  (after i (onPortOf port s)).rsp.map fun r => r.word

/-- The word of the response that a state holds. -/
def lastWord (s : State) : Word :=
  match s.rsp with
  | some r => r.word
  | none => 0xFFFFFFFF#32

/-- `CFG_A` after `"ABC\n"`. -/
def readyAbc : State := go (bytes [0x41, 0x42, 0x43, 0x0A]) (start Config.cfgA)
/-- and taken. -/
def heldAbc : State := go [(.c, .take)] readyAbc
/-- `CFG_B` after `"$GPS,1,2*4"`. -/
def gpsLo : State :=
  go (bytes [0x24, 0x47, 0x50, 0x53, 0x2C, 0x31, 0x2C, 0x32, 0x2A, 0x34]) (start Config.cfgB)

/-- R174: `P: NOP` responds 0x00000000. -/
theorem test_nop : answer .p .nop readyAbc = some 0x00000000#32 := by decide
/-- R120: `CFG_A`, reset, `P: BYTE 'A'`. -/
theorem test_byte_first : (after (.byte 0x41#8) State.reset).slot0.mem = [(0, 0x41#8)]
    ∧ (after (.byte 0x41#8) State.reset).dec.len = 1#16 ∧ answer .p (.byte 0x41#8) State.reset = some 0#32 := by
  decide
/-- R131: payload `"GPS,1,2"`, `dec.rx = 0x40`, `P: BYTE '7'` responds 0x05; `'6'` responds 0x02. -/
theorem test_byte_trailer : gpsLo.dec.ck = 0x47#8 ∧ gpsLo.dec.rx = 0x40#8
    ∧ answer .p (.byte 0x37#8) gpsLo = some 5#32 ∧ answer .p (.byte 0x36#8) gpsLo = some 2#32 := by decide
/-- R160: slot 0 `Ready` with length 3: `OK`, value 3, and the slot is held. -/
theorem test_take : answer .c .take readyAbc = some 3#32 ∧ heldAbc.arb.held = some .zero := by decide
/-- R160: nothing ready. -/
theorem test_take_empty : answer .c .take State.reset = some 0x10000000#32 := by decide
/-- R170: `C: READ 2` is `OK` 0x43, `C: READ 3` is `ERR_RANGE`. -/
theorem test_read : answer .c (.read 2#16) heldAbc = some 0x43#32
    ∧ answer .c (.read 3#16) heldAbc = some 0x30000000#32 := by decide
/-- R170: nothing held. -/
theorem test_read_nohold : answer .c (.read 0#16) readyAbc = some 0x20000000#32 := by decide
/-- R162: the slot is `Free`, nothing is held. -/
theorem test_release : (go [(.c, .release)] heldAbc).slot0.state = .free
    ∧ (go [(.c, .release)] heldAbc).arb.held = none := by decide
/-- R162: nothing held. -/
theorem test_release_nohold : answer .c .release readyAbc = some 0x20000000#32 := by decide
/-- R172: `ARB` of slot 0 `Ready` and held. -/
theorem test_stat_arb : answer .c (.stat 4#4) heldAbc = some 0x92#32 := by decide
/-- R173: `C: STAT 7` is `ERR_ILLEGAL`, not `ERR_CONTEXT`; `C: STAT 0` is `ERR_CONTEXT`. -/
theorem test_stat_rights : answer .c (.stat 7#4) readyAbc = some 0x50000000#32
    ∧ answer .c (.stat 0#4) readyAbc = some 0x40000000#32 := by decide
/-- A presented word is the next command that the step runs. -/
theorem test_step_runs : step (State.reset.withFetchWord 32 0x10000041)
    = exec (.byte 0x41#8) State.reset := rfl

/-! ## 4. The hypotheses of the statements are met

Capacity 2 throughout. `0x41`, `0x42` are payload, `0x0A` ends a frame under delimiter framing, `0x24` starts
one and `0x2A` introduces the trailer under checksum framing. -/

def cDrop : Config := { Config.cfgA with cap := 2 }
def cOver : Config := { cDrop with policy := .overwrite }
def cTwo (p : Policy) : Config := { cDrop with nslots := 2, policy := p }
def cSum : Config := { Config.cfgB with cap := 2 }
def cBound : Config := { cSum with ovfResync := .boundaryOnly }

/-- After `"A\n"`: the first slot `Ready`. -/
def ready (c : Config) : State := go (bytes [0x41, 0x0A]) (start c)
/-- and held, on port C. -/
def held (c : Config) : State := onPortOf .c (go [(.c, .take)] (ready c))
/-- After `"AB"`: an attempt that is full. -/
def full : State := go (bytes [0x41, 0x42]) (start cDrop)
/-- and overflowed. -/
def overfull : State := go (bytes [0x41]) full
/-- An attempt of one byte without a slot. -/
def noslot : State := go (bytes [0x41]) (ready cDrop)
/-- Two slots, after `"A\nB"`: one `Ready`, the other `Filling` with a byte. -/
def two (p : Policy) : State := go (bytes [0x41, 0x0A, 0x42]) (start (cTwo p))
/-- with the `Ready` slot held, on port P. -/
def twoHeld (p : Policy) : State := onPortOf .p (go [(.c, .take)] (two p))
/-- Two slots `Ready`. -/
def bothReady : State := go (bytes [0x0A]) (two .swap)
/-- Checksum framing, in the four phases. -/
def sumStart : State := start cSum
def sumData : State := go (bytes [0x24, 0x41]) sumStart
def sumHi : State := go (bytes [0x2A]) sumData
def sumLo : State := go (bytes [0x34]) sumHi
/-- Checksum framing, overflowed. -/
def sumOver (c : Config) : State := go (bytes [0x24, 0x41, 0x42, 0x41]) (start c)
/-- Two slots, the second one held, on port C. -/
def heldOne : State := onPortOf .c (go [(.c, .take), (.c, .release), (.c, .take)] bothReady)
/-- A state with a list of inputs to come. -/
def withInput (l : List Input) (s : State) : State := { s with input := l }

theorem inv_reset_drop : Inv (start cDrop) := inv_of_check _ (by decide)
theorem inv_ready : Inv (ready cDrop) := inv_of_check _ (by decide)
theorem inv_ready_over : Inv (ready cOver) := inv_of_check _ (by decide)
theorem inv_held : Inv (held cDrop) := inv_of_check _ (by decide)
theorem inv_held_over : Inv (held cOver) := inv_of_check _ (by decide)
theorem inv_full : Inv full := inv_of_check _ (by decide)
theorem inv_over : Inv overfull := inv_of_check _ (by decide)
theorem inv_noslot : Inv noslot := inv_of_check _ (by decide)
theorem inv_two (p : Policy) : Inv (two p) := inv_of_check _ (by cases p <;> decide)
theorem inv_twoHeld (p : Policy) : Inv (twoHeld p) := inv_of_check _ (by cases p <;> decide)
theorem inv_bothReady : Inv bothReady := inv_of_check _ (by decide)
theorem inv_sumStart : Inv sumStart := inv_of_check _ (by decide)
theorem inv_sumData : Inv sumData := inv_of_check _ (by decide)
theorem inv_sumHi : Inv sumHi := inv_of_check _ (by decide)
theorem inv_sumLo : Inv sumLo := inv_of_check _ (by decide)
theorem inv_sumOver : Inv (sumOver cSum) := inv_of_check _ (by decide)
theorem inv_sumOverBound : Inv (sumOver cBound) := inv_of_check _ (by decide)

/-- A payload of two bytes of attempt `full` is tracked. -/
theorem tracks_full : Tracks full [0x41#8, 0x42#8] :=
  ⟨by decide, by decide, fun _ _ => ⟨.zero, by decide, by decide⟩⟩

theorem witness_EncodeOfDecodedIsWord : decode 0x3000FFFF#32 = .ok (.read 0xFFFF#16)
    ∧ decode 0x100000FF#32 = .ok (.byte 0xFF#8) := ⟨rfl, rfl⟩

theorem illegal_op6 : IllegalWord 0x60000000#32 := .inl (by decide)
theorem illegal_z : IllegalWord 0x00010000#32 := .inr (.inl (by decide))
theorem illegal_byte : IllegalWord 0x10000100#32 := .inr (.inr (.inr (.inl (by decide))))
theorem illegal_stat : IllegalWord 0x50000010#32 := .inr (.inr (.inr (.inr (by decide))))
theorem not_illegal_byte : ¬ IllegalWord (encode (.byte 0xFF#8)) := by unfold IllegalWord; decide

/-- A legal word on its port and on the other port; the illegal words above fill the other hypothesis. -/
theorem witness_IllegalAndMisdirectedWordsAreRefused (port : Port) : cfgOk cDrop = true
    ∧ (withInput [.cmd port (encode (.byte 0xFF#8))] (ready cDrop)).input
        = [.cmd port (encode (.byte 0xFF#8))]
    ∧ legalOn (.byte 0xFF#8) .c = false ∧ legalOn (.byte 0xFF#8) .p = true :=
  ⟨by decide, rfl, by decide, by decide⟩

theorem witness_StepRunsDecodedCommand : cfgOk (withInput [.cmd .c 0x20000000#32] (ready cDrop)).cfg = true
    ∧ decode 0x20000000#32 = .ok .take := ⟨by decide, rfl⟩

theorem witness_ProducerCommandIsOrderedFirst :
    (withInput [.both 0x1000000A#32 0x20000000#32] full).input = [.both 0x1000000A#32 0x20000000#32]
    ∧ ∃ t, step (withInput [.both 0x1000000A#32 0x20000000#32] full) = .next t := ⟨rfl, _, rfl⟩

theorem witness_NothingHappensWithoutInput : cfgOk full.cfg = true ∧ full.input = [] := by decide

theorem witness_IllFormedConfigurationIsRefused : cfgOk { cDrop with cap := 0 } = false := by decide

theorem witness_ConfigurationNeverChanges :
    ∃ t, step (withInput [.rst] (sumOver cBound)) = .next t := ⟨_, rfl⟩

theorem witness_ResetValues : cfgOk (cTwo .swap) = true ∧ (cTwo .swap).nslots = 2 := by decide

theorem witness_ResetDecoderEqualsIdleDecoder :
    State.resetOf (sumOver cBound).cfg = some (start cBound) := rfl

theorem witness_ResetInputRestoresResetState : cfgOk (held cDrop).cfg = true
    ∧ (withInput [.rst, .cmd .c (encode .release)] (held cDrop)).input
        = [.rst, .cmd .c (encode .release)] := ⟨by decide, rfl⟩

theorem witness_NopAnswersOkAndWritesNothing :
    cfgOk (withInput [.cmd .c 0x00000001#32] full).cfg = true ∧ 0x00000001#32 ≠ 0x00000000#32
    ∧ (0x00000001#32).toNat / 2 ^ 28 = 0 ∧ (0x0FFF0000#32).toNat / 2 ^ 28 = 0 := by decide

theorem witness_StatAnswersAndWritesNothing : (0x50000010#32).toNat / 2 ^ 28 = 5
    ∧ (0x50000010#32).toNat / 2 ^ 4 % 2 ^ 24 ≠ 0 ∧ (3#4).toNat < 4 ∧ (held cDrop).port = .c
    ∧ ¬ ((4#4).toNat < 4 ∧ (held cDrop).port = .c) ∧ ¬ ((3#4).toNat < 4 ∧ full.port = .c) := by decide

theorem witness_StatSelectorMap : (two .swap).cfg.nslots = 2 ∧ full.cfg.nslots = 1
    ∧ full.cfg.cap ≤ 65535 := by decide

theorem witness_TakeHoldsTheOldestReadyFrame :
    ((held cDrop).port = .c ∧ (held cDrop).arb.held = some .zero)
    ∧ (full.arb.held = none ∧ ∀ i, slotIs full i .ready = false)
    ∧ ((ready cDrop).arb.held = none ∧ slotIs (ready cDrop) .zero .ready = true
        ∧ ∀ i, slotIs (ready cDrop) i .ready = true → i = .zero)
    ∧ (bothReady.arb.held = none ∧ ∀ i, slotIs bothReady i .ready = true)
    ∧ ((0x20000001#32).toNat / 2 ^ 28 = 2 ∧ 0x20000001#32 ≠ 0x20000000#32) := by
  refine ⟨by decide, ⟨by decide, ?_⟩, ⟨by decide, by decide, ?_⟩, ⟨by decide, ?_⟩, by decide⟩ <;> intro i <;>
    cases i <;> decide

theorem witness_ReadAnswersTheHeldByte :
    ((0x3FFF0000#32).toNat / 2 ^ 28 = 3 ∧ (0x3FFF0000#32).toNat / 2 ^ 16 % 2 ^ 12 ≠ 0)
    ∧ ((onPortOf .c full).port = .c ∧ full.arb.held = none)
    ∧ ((held cDrop).port = .c ∧ (held cDrop).arb.held = some .zero
        ∧ (slotAt (held cDrop) .zero).length.toNat ≤ (1#16).toNat)
    ∧ ((0#16).toNat < (slotAt (held cDrop) .zero).length.toNat ∧ SlotInv (held cDrop)) :=
  ⟨by decide, by decide, by decide, by decide, inv_held.slots⟩

/-- A word for a state of a run with the one slot held, and for one with the second of two held. -/
theorem witness_EveryWordGetsOneResponse :
    (cfgOk (withInput [.cmd .c 0x30000000#32] (held cDrop)).cfg = true
      ∧ FieldsInRange (withInput [.cmd .c 0x30000000#32] (held cDrop)))
    ∧ (cfgOk (withInput [.cmd .p 0x1000000A#32] heldOne).cfg = true
      ∧ FieldsInRange (withInput [.cmd .p 0x1000000A#32] heldOne)) :=
  ⟨⟨by decide, fun h _ => by cases h <;> first | rfl | contradiction, fun i => by cases i <;> decide⟩,
    by decide, fun h _ => by cases h <;> rfl, fun i => by cases i <;> decide⟩

theorem witness_ReleaseFreesTheHeldSlot :
    ((held cDrop).port = .c ∧ (held cDrop).arb.held = some .zero)
    ∧ (heldOne.port = .c ∧ heldOne.arb.held = some .one)
    ∧ ((0x40000001#32).toNat / 2 ^ 28 = 4 ∧ 0x40000001#32 ≠ 0x40000000#32) := by decide

theorem witness_ByteIsAlwaysAnsweredOk : full.port = .p ∧ Inv full := ⟨by decide, inv_full⟩

theorem witness_WrongPortIsAnsweredErrContext : (held cDrop).port = .c ∧ (twoHeld .swap).port = .p := by
  decide

theorem witness_WaitStartIgnoresAllButStart : sumStart.port = .p ∧ sumStart.dec.phase = .waitStart
    ∧ 0x24#8 = sumStart.cfg.startByte ∧ 0x25#8 ≠ sumStart.cfg.startByte := by decide

theorem witness_StartDelimiterRestartsTheAttempt : Inv sumData ∧ Inv sumHi ∧ Inv sumLo
    ∧ Inv (sumOver cSum) ∧ sumData.dec.phase = .waitData ∧ sumHi.dec.phase = .waitChecksumHi
    ∧ sumLo.dec.phase = .waitChecksumLo ∧ isStart cSum 0x24#8 = true
    ∧ ¬ ((sumOver cSum).dec.ovf = true ∧ (sumOver cSum).cfg.ovfResync = .boundaryOnly)
    ∧ sumLo.port = .p :=
  ⟨inv_sumData, inv_sumHi, inv_sumLo, inv_sumOver, by decide, by decide, by decide, by decide, by decide,
    by decide⟩

theorem witness_PayloadByteIsAppended :
    (isPayload cDrop 0x41#8 = true ∧ full.port = .p ∧ full.dec.phase = .waitData)
    ∧ (overfull.dec.ovf = true ∧ overfull.dec.phase = .waitData)
    ∧ (full.dec.ovf = false ∧ full.dec.len.toNat = full.cfg.cap)
    ∧ (noslot.dec.ovf = false ∧ noslot.dec.len.toNat < noslot.cfg.cap ∧ noslot.dec.noslot = true)
    ∧ ((ready cDrop).dec.noslot = false ∧ (acquireForFill (ensureFill (ready cDrop))).slot = none)
    ∧ ((ready cOver).dec.noslot = false
        ∧ (acquireForFill (ensureFill (ready cOver))).slot = some .zero) := by decide

theorem witness_BoundaryOnlyDiscardsStart : cfgOk (sumOver cBound).cfg = true
    ∧ (sumOver cBound).port = .p ∧ (sumOver cBound).dec.phase = .waitData
    ∧ (sumOver cBound).dec.ovf = true ∧ (sumOver cBound).cfg.ovfResync = .boundaryOnly
    ∧ isStart cBound 0x24#8 = true := by decide

theorem witness_BoundaryEndsOverflowedAttempt :
    (cfgOk overfull.cfg = true ∧ overfull.port = .p ∧ overfull.dec.phase = .waitData ∧ overfull.dec.ovf = true
        ∧ overfull.cfg.framing = .delim ∧ 0x0A#8 = overfull.cfg.endByte)
    ∧ (cfgOk cSum = true ∧ (sumOver cSum).port = .p ∧ (sumOver cSum).dec.phase = .waitData
        ∧ (sumOver cSum).dec.ovf = true ∧ (sumOver cSum).cfg.framing = .cksum
        ∧ 0x2A#8 = (sumOver cSum).cfg.introByte) := by decide

theorem witness_IntroducerOpensTheTrailer : cfgOk sumData.cfg = true ∧ sumData.port = .p
    ∧ sumData.dec.phase = .waitData ∧ sumData.dec.ovf = false ∧ sumData.cfg.framing = .cksum := by decide

theorem witness_FirstTrailerCharacter : sumHi.port = .p ∧ sumHi.dec.phase = .waitChecksumHi
    ∧ hexVal sumHi.cfg.hexLower 0x46#8 = some 15#4 ∧ hexVal sumHi.cfg.hexLower 0x24#8 = none
    ∧ 0x24#8 = sumHi.cfg.startByte ∧ hexVal sumHi.cfg.hexLower 0x47#8 = none
    ∧ 0x47#8 ≠ sumHi.cfg.startByte := by decide

theorem witness_SecondTrailerCharacterWithoutMatch : sumLo.port = .p ∧ sumLo.dec.phase = .waitChecksumLo
    ∧ hexVal sumLo.cfg.hexLower 0x30#8 = some 0#4 ∧ sumLo.dec.rx ||| (0x0#4 ++ 0#4) ≠ sumLo.dec.ck
    ∧ hexVal sumLo.cfg.hexLower 0x24#8 = none ∧ 0x24#8 = sumLo.cfg.startByte
    ∧ hexVal sumLo.cfg.hexLower 0x2A#8 = none ∧ 0x2A#8 ≠ sumLo.cfg.startByte := by decide

theorem completes_newline (s : State) (hp : s.dec.phase = .waitData) (hf : s.cfg.framing = .delim)
    (he : s.cfg.endByte = 0x0A#8) (ho : s.dec.ovf = false) : Completes s 0x0A#8 := .inl ⟨hp, hf, he.symm, ho⟩

theorem witness_CompletedFrameIsPublishedOrDropped :
    (cfgOk cDrop = true ∧ noslot.port = .p ∧ Completes noslot 0x0A#8 ∧ noslot.dec.noslot = true)
    ∧ ((ready cDrop).port = .p ∧ Completes (ready cDrop) 0x0A#8
        ∧ (acquireForFill (ensureFill (ready cDrop))).slot = none)
    ∧ (sumLo.port = .p ∧ Completes sumLo 0x31#8 ∧ sumLo.dec.noslot = false
        ∧ (acquireForFill (ensureFill sumLo)).slot = some .zero) :=
  ⟨⟨by decide, by decide, completes_newline _ (by decide) (by decide) (by decide) (by decide), by decide⟩,
    ⟨by decide, completes_newline _ (by decide) (by decide) (by decide) (by decide), by decide⟩,
    ⟨by decide, .inr ⟨by decide, 1#4, by decide, by decide⟩, by decide, by decide⟩⟩

/-- One slot, `Free` after a `RELEASE`. -/
def freed (c : Config) : State := onPortOf .p (go [(.c, .release)] (held c))
/-- Two slots under `SWAP`: the first `Ready`, the second `Free`. -/
def secondFree : State := go [(.c, .take), (.c, .release), (.p, .nop)] bothReady
/-- The same with the slots exchanged. -/
def firstReady : State := { secondFree with slot0 := secondFree.slot1, slot1 := secondFree.slot0 }

theorem witness_EnsureFillClaimsLowestFreeSlot :
    slotIs full .zero .filling = true
    ∧ ((∀ i, slotIs (freed cDrop) i .filling = false) ∧ (freed cDrop).slot0.state = .free)
    ∧ ((∀ i, slotIs firstReady i .filling = false) ∧ firstReady.slot0.state ≠ .free
        ∧ firstReady.cfg.nslots = 2 ∧ firstReady.slot1.state = .free)
    ∧ (∀ i, slotIs (ready cDrop) i .free = false) ∧ AtMostOneFilling full := by
  refine ⟨by decide, ⟨?_, by decide⟩, ⟨?_, by decide, by decide, by decide⟩, ?_, inv_full.slots.oneFilling⟩ <;>
    intro i <;> cases i <;> decide

theorem witness_AcquireGivesNoneOnlyWhenAllReady : Inv (ready cDrop)
    ∧ (acquireForFill (ensureFill (ready cDrop))).slot = none ∧ Inv (ready cOver)
    ∧ (acquireForFill (ensureFill (ready cOver))).slot = some .zero :=
  ⟨inv_ready, by decide, inv_ready_over, by decide⟩

theorem witness_OneSlotReclaimAtFirstPayloadByte :
    (Inv (ready cOver) ∧ (ready cOver).port = .p ∧ (ready cOver).cfg.nslots = 1
        ∧ (ready cOver).slot0.state = .ready ∧ (ready cOver).dec.phase = .waitData
        ∧ (ready cOver).dec.len = 0x0000#16 ∧ isPayload cOver 0x42#8 = true
        ∧ (ready cOver).cfg.policy = .overwrite ∧ (ready cOver).arb.held = none)
    ∧ (Inv (ready cDrop) ∧ (ready cDrop).port = .p ∧ (ready cDrop).slot0.state = .ready
        ∧ (ready cDrop).dec.phase = .waitData ∧ (ready cDrop).cfg.policy = .drop)
    ∧ (Inv (onPortOf .p (held cOver)) ∧ (held cOver).cfg.policy = .overwrite
        ∧ (held cOver).arb.held = some .zero) :=
  ⟨⟨inv_ready_over, by decide⟩, ⟨inv_ready, by decide⟩, inv_of_check _ (by decide), by decide⟩

theorem witness_TwoSlotCompletionFollowsPolicy :
    (∀ p, Inv (two p) ∧ (two p).port = .p ∧ Completes (two p) 0x0A#8 ∧ (two p).dec.noslot = false
        ∧ slotIs (two p) .one .filling = true ∧ slotIs (two p) .zero .ready = true
        ∧ (two p).arb.held ≠ some .zero)
    ∧ (Inv (twoHeld .overwrite) ∧ (twoHeld .overwrite).port = .p
        ∧ Completes (twoHeld .overwrite) 0x0A#8 ∧ (twoHeld .overwrite).arb.held = some .zero) := by
  refine ⟨fun p => ⟨inv_two p, ?_⟩, inv_twoHeld _, by decide, ?_, by decide⟩
  · cases p <;>
      exact ⟨by decide, completes_newline _ (by decide) (by decide) (by decide) (by decide), by decide⟩
  · exact completes_newline _ (by decide) (by decide) (by decide) (by decide)

theorem witness_CompletionWithNoReadyFrameIsPublished :
    (Inv (start cDrop) ∧ Completes (start cDrop) 0x0A#8
        ∧ slotIs (start cDrop) .zero .filling = true ∧ readyOut (start cDrop) = false)
    ∧ (Inv sumLo ∧ sumLo.port = .p ∧ Completes sumLo 0x31#8 ∧ sumLo.dec.noslot = false
        ∧ slotIs sumLo .zero .filling = true ∧ readyOut sumLo = false) :=
  ⟨⟨inv_reset_drop, completes_newline _ (by decide) (by decide) (by decide) (by decide), by decide⟩,
    inv_sumLo, by decide, .inr ⟨by decide, 1#4, by decide, by decide⟩, by decide⟩

theorem witness_ByteChangesOnlyItsLocation :
    exec (.byte 0x42#8) (ready cOver) = .next (after (.byte 0x42#8) (ready cOver))
    ∧ storeLocation (ready cOver) 0x42#8 = some (.zero, 0) ∧ storeLocation (ready cOver) 0x42#8 ≠ some (.zero, 1)
    ∧ (ready cOver).cfg.policy ≠ .swap
    ∧ exec (.byte 0x0A#8) full = .next (after (.byte 0x0A#8) full)
    ∧ (slotAt (after (.byte 0x0A#8) full) .zero).length ≠ (slotAt full .zero).length :=
  ⟨rfl, by decide, by decide, by decide, rfl, by decide⟩

theorem witness_ConsumerNeverTouchesProducerState : (held cDrop).port = .c
    ∧ exec .release (held cDrop) = .next (after .release (held cDrop))
    ∧ (slotAt (after .release (held cDrop)) .zero).state ≠ (slotAt (held cDrop) .zero).state
    ∧ Inv (held cDrop) := ⟨by decide, rfl, by decide, inv_held⟩

theorem witness_RefusedCommandsChangeNothing :
    exec (.read 1#16) (held cDrop) = .next (after (.read 1#16) (held cDrop))
    ∧ (after (.read 1#16) (held cDrop)).rsp = some ⟨.c, 0x30000000#32⟩
    ∧ statusField 0x30000000#32 ≠ 0x0#4 := ⟨rfl, by decide, by decide⟩

theorem witness_HeldSlotIsUntouchedByProducer : Inv (twoHeld .overwrite)
    ∧ (twoHeld .overwrite).port = .p ∧ (twoHeld .overwrite).arb.held = some .zero
    ∧ exec (.byte 0x0A#8) (twoHeld .overwrite) = .next (after (.byte 0x0A#8) (twoHeld .overwrite)) :=
  ⟨inv_twoHeld _, by decide, by decide, rfl⟩

theorem witness_ReadySlotsAreImmutable : Inv (two .overwrite)
    ∧ exec (.byte 0x0A#8) (two .overwrite) = .next (after (.byte 0x0A#8) (two .overwrite))
    ∧ (after (.byte 0x0A#8) (two .overwrite)).rsp = some ⟨.p, 0x00000015#32⟩
    ∧ slotIs (two .overwrite) .zero .ready = true := ⟨inv_two _, rfl, by decide, by decide⟩

theorem witness_ByteMovesSlotsLegally :
    (Inv (two .drop) ∧ exec (.byte 0x0A#8) (two .drop) = .next (after (.byte 0x0A#8) (two .drop))
        ∧ slotIs (two .drop) .zero .ready = true ∧ (two .drop).cfg.policy ≠ .overwrite)
    ∧ (Inv full ∧ hasSlot full.cfg .one = false ∧ (slotAt (after (.byte 0x0A#8) full) .one).state = .free) :=
  ⟨⟨inv_two _, rfl, by decide, by decide⟩, inv_full, by decide⟩

theorem witness_InvariantHoldsAtReset : State.resetOf cBound = some (start cBound)
    ∧ State.resetOf (cTwo .swap) = some (start (cTwo .swap)) := ⟨rfl, rfl⟩

theorem witness_PayloadIsFreeAfterReset : State.resetOf (cTwo .swap) = some (start (cTwo .swap)) := rfl

theorem witness_InvariantIsKeptByStep : Inv (withInput [.cmd .p 0x1000000A#32] full)
    ∧ ∃ t, step (withInput [.cmd .p 0x1000000A#32] full) = .next t := ⟨inv_of_check _ (by decide), _, rfl⟩

theorem witness_GoodStateNeverStops : Inv (withInput [.cmd .c 0x30000000#32] (held cDrop)) :=
  inv_of_check _ (by decide)

theorem witness_AtMostOneSlotIsFilling : State.resetOf (cTwo .swap) = some (start (cTwo .swap))
    ∧ AtMostOneFilling (withInput [.cmd .p 0x1000000A#32] full)
    ∧ ∃ t, step (withInput [.cmd .p 0x1000000A#32] full) = .next t := 
  ⟨rfl, inv_full.slots.oneFilling, _, rfl⟩

theorem witness_FillingSlotAfterEveryByte :
    (Inv full ∧ full.port = .p ∧ exec (.byte 0x0A#8) full = .next (after (.byte 0x0A#8) full))
    ∧ (Inv (freed cDrop) ∧ ¬ EverySlotReady (freed cDrop))
    ∧ (Inv (two .drop) ∧ (∃ t, step (two .drop) = .next t) ∧ (two .drop).cfg.nslots = 2
        ∧ (two .drop).cfg.policy ≠ .swap) :=
  ⟨⟨inv_full, by decide, rfl⟩, ⟨inv_of_check _ (by decide), fun h => absurd (h .zero rfl) (by decide)⟩,
    inv_two _, ⟨_, rfl⟩, by decide⟩

theorem witness_AttemptTracksAcceptedBytes :
    State.resetOf cSum = some (start cSum) ∧ (Inv full ∧ full.port = .p ∧ Tracks full [0x41#8, 0x42#8]
        ∧ exec (.byte 0x41#8) full = .next (after (.byte 0x41#8) full))
    ∧ (Inv (onPortOf .c full) ∧ Tracks (onPortOf .c full) [0x41#8, 0x42#8]
        ∧ exec .take (onPortOf .c full) = .next (after .take (onPortOf .c full))) :=
  ⟨rfl, ⟨inv_full, by decide, tracks_full, rfl⟩, inv_of_check _ (by decide),
    ⟨tracks_full.len, tracks_full.ck, tracks_full.stored⟩, rfl⟩

theorem witness_CountersSaturate : exec (.byte 0x41#8) full = .next (after (.byte 0x41#8) full) := rfl

theorem witness_CounterCauses_overflow : Inv full ∧ full.port = .p
    ∧ exec (.byte 0x41#8) full = .next (after (.byte 0x41#8) full)
    ∧ (after (.byte 0x41#8) full).rsp = some ⟨.p, 3#32⟩ ∧ full.dec.phase = .waitData
    ∧ isPayload full.cfg 0x41#8 = true ∧ full.dec.len.toNat = full.cfg.cap ∧ full.dec.ovf = false :=
  ⟨inv_full, by decide, rfl, by decide⟩

theorem witness_CounterCauses_drop : Inv noslot
    ∧ exec (.byte 0x0A#8) noslot = .next (after (.byte 0x0A#8) noslot)
    ∧ (after (.byte 0x0A#8) noslot).rsp = some ⟨.p, 9#32⟩ ∧ saysDropped 9#32 ∧ saysLostOld 0x10#32
    ∧ (after (.byte 0x42#8) (ready cOver)).rsp = some ⟨.p, 0x10#32⟩ ∧ ¬ saysDropped 5#32 ∧ ¬ saysLostOld 5#32 :=
  ⟨inv_noslot, rfl, by decide, by unfold saysDropped; decide, by unfold saysLostOld; decide, by decide,
    by unfold saysDropped; decide, by unfold saysLostOld; decide⟩

theorem witness_CounterCauses_trailer : Inv sumLo ∧ isHex sumLo.cfg 0x30#8 = true ∧ ¬ Completes sumLo 0x30#8
    ∧ sumLo.dec.phase = .waitChecksumLo ∧ isHex sumLo.cfg 0x2A#8 = false ∧ 0x2A#8 ≠ sumLo.cfg.startByte
    ∧ sumHi.dec.phase = .waitChecksumHi := by
  refine ⟨inv_sumLo, by decide, ?_, by decide⟩
  rintro (⟨h, -⟩ | ⟨-, n, hn, he⟩)
  · exact absurd h (by decide)
  · have hn' : hexVal sumLo.cfg.hexLower 0x30#8 = some 0#4 := by decide
    rw [hn'] at hn
    simp only [Option.some.injEq] at hn
    subst hn
    exact absurd he (by decide)

theorem witness_ReadyMeansTakeAnswersOk : Inv full ∧ Inv (ready cDrop) := ⟨inv_full, inv_ready⟩

theorem witness_PauseRequestMeansEverySlotReady :
    (Inv (two .drop) ∧ (two .drop).cfg.nslots = 2 ∧ (two .drop).cfg.policy ≠ .swap)
    ∧ (Inv (held { cDrop with pauseEn := true }) ∧ (held { cDrop with pauseEn := true }).port = .c
        ∧ (held { cDrop with pauseEn := true }).arb.held ≠ none
        ∧ pauseReqOut (held { cDrop with pauseEn := true }) = true
        ∧ exec .release (held { cDrop with pauseEn := true })
            = .next (after .release (held { cDrop with pauseEn := true }))) :=
  ⟨⟨inv_two _, by decide⟩, inv_of_check _ (by decide), by decide, by decide, by decide, rfl⟩

theorem witness_ConsumerCannotObserveDecoder : (held cDrop).port = .c
    ∧ exec (.stat 0#4) (held cDrop) = .next (after (.stat 0#4) (held cDrop)) := ⟨by decide, rfl⟩

theorem witness_WellFormedFrameIsPublished :
    (Inv sumStart ∧ sumStart.dec = idleDec sumStart.cfg ∧ readyOut sumStart = false
        ∧ payloadOk sumStart.cfg [0x41#8, 0x42#8] = true ∧ payloadOk sumStart.cfg [] = true)
    ∧ (Inv (freed cDrop) ∧ (freed cDrop).dec = idleDec cDrop ∧ readyOut (freed cDrop) = false
        ∧ payloadOk cDrop [0x41#8, 0x42#8] = true) :=
  ⟨⟨inv_sumStart, by decide⟩, inv_of_check _ (by decide), by decide⟩

theorem witness_OversizedPayloadIsNeverPublished : Inv (start cDrop)
    ∧ (start cDrop).dec = freshDec cDrop ∧ readyOut (start cDrop) = false
    ∧ [0x41#8, 0x42#8, 0x41#8].all (isPayload cDrop) = true ∧ cDrop.cap < [0x41#8, 0x42#8, 0x41#8].length :=
  ⟨inv_reset_drop, by decide⟩

theorem witness_HeldFrameIsStableUntilRelease :
    Inv (withInput [.cmd .p (encode .release), .both (encode (.byte 0x0A#8)) (encode .take)] (twoHeld .overwrite))
    ∧ (twoHeld .overwrite).arb.held = some .zero
    ∧ ∀ i ∈ [Input.cmd .p (encode .release), .both (encode (.byte 0x0A#8)) (encode .take)], keepsHold i := by
  refine ⟨inv_of_check _ (by decide), by decide, fun i hi => ?_⟩
  simp only [List.mem_cons, List.not_mem_nil, or_false] at hi
  rcases hi with rfl | rfl
  · trivial
  · change encode .take ≠ encode .release
    decide

end Sys2Proof.Tests
end

/-! The statements about the state of the block (spec/10_state.md): its values at reset (R50, R51), the one
`Filling` slot (R45) and the single cause of each counter's increment (R41). -/

namespace Sys2Proof.Proofs.BlockState

open Sys2Proof.Machine Sys2Proof.Laws

/-! ## Reset (R50, R51) -/

section
variable {c : Config} {r : State}

theorem reset_slotAt_zero (h : State.resetOf c = some r) : slotAt r .zero = Slot.atReset .filling := by
  obtain ⟨-, -, -, h0, -⟩ := resetOf_some c r h
  exact h0

theorem reset_slotAt_one (h : State.resetOf c = some r) : slotAt r .one = Slot.atReset .free := by
  obtain ⟨-, -, -, -, h1, -⟩ := resetOf_some c r h
  exact h1

theorem reset_not_ready (h : State.resetOf c = some r) (i : SlotIdx) : slotIs r i .ready = false := by
  cases i with
  | zero => simp [slotIs, reset_slotAt_zero h, Slot.atReset]
  | one => simp [slotIs, reset_slotAt_one h, Slot.atReset]

theorem reset_one_not_filling (h : State.resetOf c = some r) : slotIs r .one .filling = false := by
  simp [slotIs, reset_slotAt_one h, Slot.atReset]

theorem reset_oneFilling (h : State.resetOf c = some r) : AtMostOneFilling r := by
  simp [AtMostOneFilling, reset_one_not_filling h]

end

/-- Settles O10: the values of `resetOf_some`, field by field, and no slot `Ready`. -/
theorem resetValues : Obligations.ResetValues := by
  intro c hc
  obtain ⟨r, hr⟩ := resetOf_isSome c hc
  obtain ⟨-, -, hdec, h0, h1, harb, hcnt, -⟩ := resetOf_some c r hr
  have hready : readyOut r = false := by simp [readyOut, reset_not_ready hr]
  have hpause : pauseReqOut r = false := by simp [pauseReqOut, allReady, reset_not_ready hr]
  refine ⟨r, hr, ?_⟩
  rw [hdec, h0, h1, harb, hcnt]
  exact ⟨rfl, rfl, rfl, rfl, rfl, rfl, rfl, rfl, fun _ => ⟨rfl, rfl⟩, rfl, rfl, rfl, hready, hpause⟩

/-- Settles O11: both are the cleared registers in the idle phase (R121). -/
theorem resetDecoderEqualsIdleDecoder : Obligations.ResetDecoderEqualsIdleDecoder := by
  intro s r hr
  obtain ⟨-, -, hdec, -⟩ := resetOf_some s.cfg r hr
  rw [hdec, goIdle_dec]
  rfl

/-! ## At most one slot is `Filling` (R45) -/

/-- An operation that makes no slot `Filling` keeps at most one `Filling`. -/
theorem oneFilling_of_imp {s t : State} (hs : AtMostOneFilling s)
    (h : ∀ i, slotIs t i .filling = true → slotIs s i .filling = true) : AtMostOneFilling t :=
  fun ⟨h0, h1⟩ => hs ⟨h _ h0, h _ h1⟩

theorem setSlotState_oneFilling {s : State} (i : SlotIdx) {x : SlotState} (hx : x ≠ .filling)
    (hs : AtMostOneFilling s) : AtMostOneFilling (setSlotState s i x) :=
  oneFilling_of_imp hs fun j => by
    rw [setSlotState_slotIs]
    split <;> simp [hx]

theorem markReady_oneFilling {s : State} (i : SlotIdx) (n : Half) (hs : AtMostOneFilling s) :
    AtMostOneFilling (markReady s i n) :=
  oneFilling_of_imp hs fun j => by
    rw [markReady_slotIs]
    split <;> simp

/-- A slot becomes `Filling` only when none is: this is what keeps R45. -/
theorem setFilling_oneFilling {s : State} (i : SlotIdx) (hnone : fillIdx s = none) :
    AtMostOneFilling (setSlotState s i .filling) := by
  have h0 := fillIdx_none s .zero hnone
  have h1 := fillIdx_none s .one hnone
  cases i <;> simp [AtMostOneFilling, h0, h1]

theorem acquire_oneFilling {s : State} (hs : AtMostOneFilling s) :
    AtMostOneFilling (acquireForFill s).st := by
  rcases acquire_cases s with ⟨f, -, he⟩ | ⟨-, he, -⟩ | ⟨r, hnone, -, -, -, he⟩ <;> rw [he]
  · exact hs
  · exact hs
  · exact setFilling_oneFilling (s := countDrop s) r hnone

theorem publish_oneFilling {s : State} (f : SlotIdx) (n : Half) (hs : AtMostOneFilling s) :
    AtMostOneFilling (publish s f n).st := by
  refine ensureFill_oneFilling _ ?_
  rcases publishBranch_cases s f n with ⟨-, he⟩ | ⟨o, -, -, he⟩ | ⟨o, -, -, -, he⟩ | ⟨o, -, -, -, he⟩ <;>
    rw [he]
  · exact markReady_oneFilling f n hs
  · exact markReady_oneFilling (s := setOlder s o) f n hs
  · exact markReady_oneFilling (s := countDrop (setSlotState s o .free)) f n
      (setSlotState_oneFilling (x := .free) o (by simp) hs)
  · exact hs

theorem complete_oneFilling {s : State} (hs : AtMostOneFilling s) : AtMostOneFilling (complete s).st := by
  rcases complete_cases s with ⟨-, he⟩ | ⟨f, -, -, he⟩ <;> rw [he]
  · exact hs
  · exact publish_oneFilling f s.dec.len (acquire_oneFilling hs)

theorem byteStep_oneFilling {s : State} (b : Byte) (hs : AtMostOneFilling s) :
    AtMostOneFilling (byteStep s b).st := by
  have hu := ensureFill_oneFilling s hs
  rcases byteStep_cases s b with ⟨d, c, o, -, he⟩ | ⟨f, -, -, -, -, -, -, -, he⟩ | ⟨-, he⟩ <;> rw [he]
  · exact hu
  · exact oneFilling_of_imp (acquire_oneFilling hu) fun i => by simp
  · exact complete_oneFilling hu

theorem takeStep_oneFilling {s : State} (hs : AtMostOneFilling s) : AtMostOneFilling (takeStep s) := by
  rcases takeStep_cases s with ⟨h, -, he⟩ | ⟨-, -, he⟩ | ⟨r, -, -, -, he⟩ <;> rw [he] <;> exact hs

/-- Every command, on either port, keeps at most one slot `Filling`. -/
theorem exec_oneFilling {s t : State} (i : Instr) (hs : AtMostOneFilling s) (h : exec i s = .next t) :
    AtMostOneFilling t := by
  cases i with
  | nop =>
    obtain rfl := Host.Outcome.next.inj h
    exact hs
  | byte b =>
    rcases execByte_next b s t h with ⟨-, rfl⟩ | ⟨-, rfl⟩
    · exact byteStep_oneFilling b hs
    · exact hs
  | take =>
    rcases execTake_next s t h with ⟨-, rfl⟩ | ⟨-, rfl⟩
    · exact takeStep_oneFilling hs
    · exact hs
  | read off =>
    obtain ⟨st, v, rfl, -⟩ := execRead_next off s t h
    exact hs
  | release =>
    rcases execRelease_next s t h with ⟨st, -, rfl⟩ | ⟨j, -, -, rfl⟩
    · exact hs
    · exact setSlotState_oneFilling (x := .free) j (by simp) hs
  | stat sel =>
    obtain ⟨st, v, he, -⟩ := execStat_next sel s
    obtain rfl := Host.Outcome.next.inj (he.symm.trans h)
    exact hs

theorem step_oneFilling {s t : State} (hs : AtMostOneFilling s) (h : step s = .next t) :
    AtMostOneFilling t := by
  obtain ⟨-, ⟨-, rfl⟩ | ⟨rest, -, hafter⟩ | ⟨port, w, rest, -, hrun, -⟩⟩ := step_cases s t h
  · exact hs
  · obtain ⟨r, hr, rfl⟩ := afterReset_some s t rest hafter
    have hone : AtMostOneFilling r := reset_oneFilling hr
    exact hone
  · rcases hrun with ⟨e, -, rfl⟩ | ⟨i, -, hi⟩
    · exact hs
    · exact exec_oneFilling (s := accept s port rest) i hs hi

/-- Settles O45: reset makes slot 0 the only `Filling` slot, and a step makes a slot `Filling` only when none
is (`setFilling_oneFilling`). -/
theorem atMostOneSlotIsFilling : Obligations.AtMostOneSlotIsFilling :=
  ⟨fun _ _ hr => reset_oneFilling hr, fun _ _ hs h => step_oneFilling hs h⟩

/-! ## The counters (R41)

Three counters count what the decoder finds in the byte; `cnt.drop` counts what the arbiter loses. The first
three have their cause in the state before the byte, the last in the report of the step. -/

/-- `y` is `x` counted up once when the cause `p` holds, and `x` otherwise. -/
def CountsOn (p : Prop) (x y : Half) : Prop := (p → y = satInc x) ∧ (¬ p → y = x)

theorem CountsOn.counted {p : Prop} {x : Half} (h : p) : CountsOn p x (satInc x) :=
  ⟨fun _ => rfl, fun hn => absurd h hn⟩

theorem CountsOn.kept {p : Prop} {x : Half} (h : ¬ p) : CountsOn p x x :=
  ⟨fun hp => absurd hp h, fun _ => rfl⟩

/-- The cause of `cnt.ovf`: a payload byte finds the attempt full. -/
def OvfCause (s : State) (b : Byte) : Prop :=
  s.dec.phase = .waitData ∧ isPayload s.cfg b = true ∧ s.dec.len.toNat = s.cfg.cap ∧ s.dec.ovf = false

/-- The cause of `cnt.ckerr`: the second trailer digit completes no frame. -/
def CkerrCause (s : State) (b : Byte) : Prop :=
  s.dec.phase = .waitChecksumLo ∧ isHex s.cfg b = true ∧ ¬ Completes s b

/-- The cause of `cnt.malf`: a trailer byte that is neither a hex digit nor the start delimiter. -/
def MalfCause (s : State) (b : Byte) : Prop :=
  (s.dec.phase = .waitChecksumHi ∨ s.dec.phase = .waitChecksumLo) ∧ isHex s.cfg b = false
    ∧ b ≠ s.cfg.startByte

/-- The decoder's three counters after byte `b` in state `s` are as R41 has them. -/
structure DecoderCounts (s : State) (b : Byte) (c : Cnt) : Prop where
  ovf : CountsOn (OvfCause s b) s.cnt.ovf c.ovf
  ckerr : CountsOn (CkerrCause s b) s.cnt.ckerr c.ckerr
  malf : CountsOn (MalfCause s b) s.cnt.malf c.malf

/-- `ENSURE_FILL` comes before the phase and touches nothing the causes speak of. -/
theorem DecoderCounts.of_ensureFill {s : State} {b : Byte} {c : Cnt}
    (h : DecoderCounts (ensureFill s) b c) : DecoderCounts s b c := by
  obtain ⟨ho, hk, hm⟩ := h
  simp only [OvfCause, CkerrCause, MalfCause, ensureFill_dec, ensureFill_cfg, ensureFill_cnt,
    ensureFill_completes] at ho hk hm
  exact ⟨ho, hk, hm⟩

/-! ### The causes, phase by phase -/

section
variable {s : State} {b : Byte}

theorem not_ovfCause_of_phase (h : s.dec.phase ≠ .waitData) : ¬ OvfCause s b := fun hc => h hc.1

theorem not_ckerrCause_of_phase (h : s.dec.phase ≠ .waitChecksumLo) : ¬ CkerrCause s b := fun hc => h hc.1

theorem not_malfCause_of_phase (hhi : s.dec.phase ≠ .waitChecksumHi) (hlo : s.dec.phase ≠ .waitChecksumLo) :
    ¬ MalfCause s b := fun ⟨hp, _⟩ => hp.elim hhi hlo

/-- Outside the trailer, only an overflow is counted. -/
theorem DecoderCounts.outside_trailer {c : Cnt}
    (hp : s.dec.phase = .waitStart ∨ s.dec.phase = .waitData)
    (hovf : CountsOn (OvfCause s b) s.cnt.ovf c.ovf) (hck : c.ckerr = s.cnt.ckerr)
    (hmalf : c.malf = s.cnt.malf) : DecoderCounts s b c := by
  have hhi : s.dec.phase ≠ .waitChecksumHi := by rcases hp with hp | hp <;> simp [hp]
  have hlo : s.dec.phase ≠ .waitChecksumLo := by rcases hp with hp | hp <;> simp [hp]
  exact ⟨hovf, hck ▸ .kept (not_ckerrCause_of_phase hlo),
    hmalf ▸ .kept (not_malfCause_of_phase hhi hlo)⟩

/-- A hex digit of the trailer is the cause of no malformed trailer. -/
theorem not_malfCause_of_hex {n : Nibble} (hx : hexVal s.cfg.hexLower b = some n) : ¬ MalfCause s b :=
  fun ⟨_, hh, _⟩ => by simp [isHex, hx] at hh

/-- A trailer byte that is no hex digit is the cause of no mismatch. -/
theorem not_ckerrCause_of_not_hex (hx : hexVal s.cfg.hexLower b = none) : ¬ CkerrCause s b :=
  fun ⟨_, hh, _⟩ => by simp [isHex, hx] at hh

/-- In an attempt that has not overflowed, a byte that neither restarts nor ends it is a payload byte. -/
theorem isPayload_of_appended (hr : restarts s b = false) (hb : isBoundary s.cfg b = false)
    (ho : s.dec.ovf = false) : isPayload s.cfg b = true := by
  have hs : isStart s.cfg b = false := by simpa [restarts, ho] using hr
  simp [isPayload, hs, hb]

theorem not_ovfCause_of_boundary (hb : isBoundary s.cfg b = true) : ¬ OvfCause s b :=
  fun ⟨_, hpay, _⟩ => by simp [isPayload, hb] at hpay

theorem not_ovfCause_of_restarts (hr : restarts s b = true) : ¬ OvfCause s b := by
  rintro ⟨-, hpay, -⟩
  simp only [restarts, Bool.and_eq_true] at hr
  simp [isPayload, hr.1] at hpay

theorem not_ovfCause_of_overflowed (ho : s.dec.ovf = true) : ¬ OvfCause s b :=
  fun ⟨_, _, _, hn⟩ => by simp [ho] at hn

theorem not_ovfCause_of_room (hl : s.dec.len.toNat < s.cfg.cap) : ¬ OvfCause s b :=
  fun ⟨_, _, hcap, _⟩ => absurd hcap (Nat.ne_of_lt hl)

/-- A byte that completes a frame is the cause of no error. -/
theorem decoderCounts_of_completes (hc : Completes s b) {c : Cnt} (hovf : c.ovf = s.cnt.ovf)
    (hck : c.ckerr = s.cnt.ckerr) (hmalf : c.malf = s.cnt.malf) : DecoderCounts s b c := by
  obtain ⟨hp, hf, rfl, -⟩ | ⟨hp, n, hx, he⟩ := hc
  · have hb : isBoundary s.cfg s.cfg.endByte = true := by simp [isBoundary, boundaryByte, hf]
    exact .outside_trailer (.inr hp) (hovf ▸ .kept (not_ovfCause_of_boundary hb)) hck hmalf
  · exact ⟨hovf ▸ .kept (not_ovfCause_of_phase (by simp [hp])),
      hck ▸ .kept fun ⟨_, _, hk⟩ => hk (.inr ⟨hp, n, hx, he⟩), hmalf ▸ .kept (not_malfCause_of_hex hx)⟩

/-- The transitions that touch no slot count as R41 has it, a restart nothing. -/
theorem decoderCounts_of_quiet {d : Dec} {c : Cnt} {o : ByteOutcome} (hcfg : cfgOk s.cfg = true)
    (hcap : s.dec.len.toNat ≤ s.cfg.cap) (h : Quiet s b d c o) : DecoderCounts s b c := by
  obtain ⟨-, -, hnc⟩ := Quiet.facts h
  cases h with
  | ignored hp hb =>
    exact .outside_trailer (.inl hp) (.kept (not_ovfCause_of_phase (by simp [hp]))) rfl rfl
  | begins hp hb =>
    exact .outside_trailer (.inl hp) (.kept (not_ovfCause_of_phase (by simp [hp]))) rfl rfl
  | restartsData hp hr =>
    exact .outside_trailer (.inr hp) (.kept (not_ovfCause_of_restarts hr)) rfl rfl
  | restartsTrailer hp hx hb =>
    have hd : s.dec.phase ≠ .waitData := by rcases hp with hp | hp <;> simp [hp]
    exact ⟨.kept (not_ovfCause_of_phase hd), .kept (not_ckerrCause_of_not_hex hx),
      .kept fun ⟨_, _, hm⟩ => hm hb⟩
  | endsOverflowed hp hr hb ho =>
    exact .outside_trailer (.inr hp) (.kept (not_ovfCause_of_overflowed ho)) rfl rfl
  | introduces hp hr hb ho hf =>
    exact .outside_trailer (.inr hp) (.kept (not_ovfCause_of_boundary hb)) rfl rfl
  | discarded hp hr hb ho =>
    exact .outside_trailer (.inr hp) (.kept (not_ovfCause_of_overflowed ho)) rfl rfl
  | overflows hp hr hb ho hl =>
    have hfull : s.dec.len.toNat = s.cfg.cap := Nat.le_antisymm hcap (Nat.le_of_not_lt hl)
    exact .outside_trailer (.inr hp)
      (.counted ⟨hp, isPayload_of_appended hr hb ho, hfull, ho⟩) rfl rfl
  | unstored hp hr hb ho hl hs =>
    exact .outside_trailer (.inr hp) (.kept (not_ovfCause_of_room hl)) rfl rfl
  | firstDigit n hp hx =>
    exact ⟨.kept (not_ovfCause_of_phase (by simp [hp])), .kept (not_ckerrCause_of_phase (by simp [hp])),
      .kept (not_malfCause_of_hex hx)⟩
  | mismatch n hp hx hn =>
    exact ⟨.kept (not_ovfCause_of_phase (by simp [hp])), .counted ⟨hp, by simp [isHex, hx], hnc hcfg⟩,
      .kept (not_malfCause_of_hex hx)⟩
  | malformed hp hx hb =>
    have hd : s.dec.phase ≠ .waitData := by rcases hp with hp | hp <;> simp [hp]
    exact ⟨.kept (not_ovfCause_of_phase hd), .kept (not_ckerrCause_of_not_hex hx),
      .counted ⟨hp, by simp [isHex, hx], hb⟩⟩

end

/-! ### Lost frames -/

/-- The counters after a step of the arbiter that lost a frame, or lost none. -/
def cntAfter (lost : Bool) (c : Cnt) : Cnt := if lost then { c with drop := satInc c.drop } else c

@[simp] theorem cntAfter_ovf (lost : Bool) (c : Cnt) : (cntAfter lost c).ovf = c.ovf := by cases lost <;> rfl
@[simp] theorem cntAfter_ckerr (lost : Bool) (c : Cnt) : (cntAfter lost c).ckerr = c.ckerr := by
  cases lost <;> rfl
@[simp] theorem cntAfter_malf (lost : Bool) (c : Cnt) : (cntAfter lost c).malf = c.malf := by
  cases lost <;> rfl

theorem countsOn_cntAfter (lost : Bool) (c : Cnt) :
    CountsOn (lost = true) c.drop (cntAfter lost c).drop := by
  cases lost with
  | true => exact .counted rfl
  | false => exact .kept (by simp)

/-- A step reports a lost frame (R97): the new one dropped at its completion, or an old one given up. -/
def losesFrame (r : Report) : Bool := (r.outcome == .complete && r.pub == .dropped) || r.lostOld

/-- The bits of the response say what the report says. -/
theorem rspWord_saysLost_iff (r : Report) :
    (saysDropped (rspWord .ok (reportValue r)) ∨ saysLostOld (rspWord .ok (reportValue r)))
      ↔ losesFrame r = true := by
  obtain ⟨o, p, l⟩ := r
  unfold saysDropped saysLostOld
  cases o <;> cases p <;> cases l <;> decide

/-- `ACQUIRE_FOR_FILL` counts a frame exactly when it reclaims one. -/
theorem acquire_cnt (s : State) :
    (acquireForFill s).st.cnt = cntAfter (acquireForFill s).lostOld s.cnt := by
  rcases acquire_cases s with ⟨f, -, he⟩ | ⟨-, he, -⟩ | ⟨r, -, -, -, -, he⟩ <;> rw [he]
  · rfl
  · rfl
  · simp [cntAfter]

/-- `PUBLISH` counts a frame exactly when it drops the new one or replaces the old one. -/
theorem publish_cnt (s : State) (f : SlotIdx) (n : Half) :
    (publish s f n).st.cnt = cntAfter ((publish s f n).pub == .dropped || (publish s f n).lostOld) s.cnt := by
  unfold publish
  rcases publishBranch_cases s f n with ⟨-, he⟩ | ⟨o, -, -, he⟩ | ⟨o, -, -, -, he⟩ | ⟨o, -, -, -, he⟩ <;>
    rw [he] <;> simp [cntAfter]

/-- `PUBLISH` loses no frame when the other slot is not `Ready`. -/
theorem publish_of_no_otherReady {s : State} {f : SlotIdx} (n : Half) (h : otherReady s f = none) :
    (publish s f n).pub = .published ∧ (publish s f n).lostOld = false := by
  unfold publish
  rcases publishBranch_cases s f n with ⟨-, he⟩ | ⟨o, ho, -⟩ | ⟨o, ho, -⟩ | ⟨o, ho, -⟩
  · simp [he]
  all_goals simp [h] at ho

/-- After a reclaim no other slot is `Ready`, as two slots are `Ready` only under `SWAP` (R49 (b)): a step
loses at most one frame. -/
theorem otherReady_of_reclaimed {s : State} {f : SlotIdx}
    (hone : s.cfg.policy ≠ .swap → ¬ (slotIs s .zero .ready = true ∧ slotIs s .one .ready = true))
    (hf : (acquireForFill s).slot = some f) (hlost : (acquireForFill s).lostOld = true) :
    otherReady (acquireForFill s).st f = none := by
  rcases acquire_cases s with ⟨g, -, he⟩ | ⟨-, he, -⟩ | ⟨r, -, hp, hr, -, he⟩ <;> rw [he] at hf hlost ⊢
  · simp at hlost
  · simp at hlost
  · obtain rfl := Option.some.inj hf
    cases ho : otherReady (setSlotState (countDrop s) r .filling) r with
    | none => rfl
    | some o =>
      obtain ⟨hready, hne, -⟩ := otherReady_some _ r o ho
      rw [setSlotState_slotIs, if_neg (Ne.symm hne), countDrop_slotIs] at hready
      have hboth := hone (by simp [hp])
      cases r <;> cases o <;> simp_all

/-- `COMPLETE` counts a frame exactly when it reports one lost. -/
theorem complete_cnt {s : State}
    (hone : s.cfg.policy ≠ .swap → ¬ (slotIs s .zero .ready = true ∧ slotIs s .one .ready = true)) :
    (complete s).st.cnt = cntAfter (losesFrame (complete s).rep) s.cnt := by
  rcases complete_cases s with ⟨-, he⟩ | ⟨f, -, hf, he⟩ <;> rw [he]
  · rfl
  · rw [goIdle_cnt, publish_cnt, acquire_cnt]
    cases hlost : (acquireForFill s).lostOld with
    | false => simp [losesFrame, cntAfter]
    | true =>
      obtain ⟨hpub, hold⟩ := publish_of_no_otherReady s.dec.len (otherReady_of_reclaimed hone hf hlost)
      simp [losesFrame, hpub, hold, cntAfter]

/-! ### The counters of a command -/

/-- The counters after a `BYTE` step: the decoder's three as their causes say, `cnt.drop` as the report says. -/
theorem byteStep_counts {s : State} (b : Byte) (hs : Inv s) :
    DecoderCounts s b (byteStep s b).st.cnt
      ∧ CountsOn (losesFrame (byteStep s b).rep = true) s.cnt.drop (byteStep s b).st.cnt.drop := by
  rcases byteStep_cases s b with ⟨d, c, o, hq, he⟩ | ⟨f, hp, -, -, -, hl, -, -, he⟩ | ⟨hc, he⟩ <;> rw [he]
  · obtain ⟨hdrop, ho, -⟩ := Quiet.facts hq
    rw [ensureFill_cnt] at hdrop
    have hcounts : DecoderCounts (ensureFill s) b c :=
      decoderCounts_of_quiet (by simpa using hs.config) (by simpa using hs.dec.lenCap) hq
    exact ⟨hcounts.of_ensureFill, hdrop ▸ .kept (by simp [losesFrame, Report.only, ho])⟩
  · simp only [acceptByte_cnt, memWrite_cnt, acquire_cnt, ensureFill_cnt]
    refine ⟨.outside_trailer (.inr hp) ?_ (by simp) (by simp), ?_⟩
    · rw [cntAfter_ovf]
      exact .kept (not_ovfCause_of_room hl)
    · simpa [losesFrame] using countsOn_cntAfter (acquireForFill (ensureFill s)).lostOld s.cnt
  · rw [complete_cnt (by simpa using hs.slots.oneReady), ensureFill_cnt]
    exact ⟨decoderCounts_of_completes hc (by simp) (by simp) (by simp), countsOn_cntAfter _ _⟩

theorem takeStep_cnt (s : State) : (takeStep s).cnt = s.cnt := by
  rcases takeStep_cases s with ⟨h, -, he⟩ | ⟨-, -, he⟩ | ⟨r, -, -, -, he⟩ <;> rw [he] <;> rfl

theorem releaseSlot_cnt (s : State) (j : SlotIdx) : (releaseSlot s j).cnt = s.cnt := by
  simp [releaseSlot]

/-- Nothing but a `BYTE` on port P moves a counter. -/
theorem exec_cnt_of_not_byte_on_p {s t : State} {i : Instr} (hi : s.port = .c ∨ ∀ b, i ≠ .byte b)
    (h : exec i s = .next t) : t.cnt = s.cnt := by
  cases i with
  | nop =>
    obtain rfl := Host.Outcome.next.inj h
    rfl
  | byte b =>
    rcases execByte_next b s t h with ⟨hp, -⟩ | ⟨-, rfl⟩
    · simp [hp] at hi
    · rfl
  | take =>
    rcases execTake_next s t h with ⟨-, rfl⟩ | ⟨-, rfl⟩
    · exact takeStep_cnt s
    · rfl
  | read off =>
    obtain ⟨st, v, rfl, -⟩ := execRead_next off s t h
    rfl
  | release =>
    rcases execRelease_next s t h with ⟨st, -, rfl⟩ | ⟨j, -, -, rfl⟩
    · rfl
    · exact releaseSlot_cnt s j
  | stat sel =>
    obtain ⟨st, v, he, -⟩ := execStat_next sel s
    obtain rfl := Host.Outcome.next.inj (he.symm.trans h)
    rfl

/-- Settles O49: the counters of a `BYTE` step (`byteStep_counts`), and `cnt.drop` read off the response. -/
theorem counterCauses : Obligations.CounterCauses := by
  refine ⟨fun s t i => exec_cnt_of_not_byte_on_p, fun s t b r hs hport h hrsp => ?_⟩
  obtain ⟨-, rfl⟩ | ⟨hn, -⟩ := execByte_next b s t h
  · obtain rfl := Option.some.inj hrsp
    obtain ⟨⟨hovf, hck, hmalf⟩, hdrop⟩ := byteStep_counts b hs
    rw [CountsOn, ← rspWord_saysLost_iff] at hdrop
    exact ⟨hovf.1, hovf.2, hdrop.1, hdrop.2, hck.1, hck.2, hmalf.1, hmalf.2⟩
  · exact absurd hport hn

end Sys2Proof.Proofs.BlockState

/-! The statements about the encoding of commands (spec/30_encoding.md R91, R92, R94): the decoder accepts
exactly the words of the commands, every other word is illegal, and a refused word changes nothing. -/

namespace Sys2Proof.Proofs.Encoding

open Sys2Proof.Machine Sys2Proof.Laws

/-! ## Words and their fields (R91) -/

theorem cmdWord_toNat (op : BitVec 4) (arg : Half) :
    (cmdWord op arg).toNat = op.toNat * 2 ^ 28 + arg.toNat := by
  unfold cmdWord
  rw [BitVec.toNat_append, ← Nat.shiftLeft_add_eq_or_of_lt arg.isLt, BitVec.toNat_append]
  simp only [Nat.shiftLeft_eq, BitVec.toNat_ofNat, Nat.zero_mod, Nat.or_zero]
  omega

theorem encode_nop_toNat : (encode .nop).toNat = 0 := rfl
theorem encode_byte_toNat (b : Byte) : (encode (.byte b)).toNat = 1 * 2 ^ 28 + b.toNat := by
  rw [encode, cmdWord_toNat, operand, BitVec.toNat_setWidth_of_le (by decide)]
  rfl
theorem encode_take_toNat : (encode .take).toNat = 2 * 2 ^ 28 := rfl
theorem encode_read_toNat (off : Half) : (encode (.read off)).toNat = 3 * 2 ^ 28 + off.toNat :=
  cmdWord_toNat _ _
theorem encode_release_toNat : (encode .release).toNat = 4 * 2 ^ 28 := rfl
theorem encode_stat_toNat (sel : BitVec 4) :
    (encode (.stat sel)).toNat = 5 * 2 ^ 28 + sel.toNat := by
  rw [encode, cmdWord_toNat, operand, BitVec.toNat_setWidth_of_le (by decide)]
  rfl

/-- A word whose zero field is 0 is made of its two other fields. -/
theorem cmdWord_opField_argField {w : Word} (hz : zField w = 0#12) :
    cmdWord (opField w) (argField w) = w := by
  have hzero : w.toNat / 2 ^ 16 % 2 ^ 12 = 0 := by
    simpa [zField, Nat.shiftRight_eq_div_pow] using congrArg BitVec.toNat hz
  apply BitVec.eq_of_toNat_eq
  rw [cmdWord_toNat]
  simp only [opField, argField, BitVec.extractLsb'_toNat, Nat.shiftRight_eq_div_pow]
  omega

/-- The must-be-zero part of an `arg` is 0 exactly when the `arg` is an operand of `k` bits. -/
theorem extractLsb'_high_eq_zero_iff {k m : Nat} (hkm : k + m = 16) (arg : Half) :
    arg.extractLsb' k m = 0#m ↔ ∃ x : BitVec k, arg = x.setWidth 16 := by
  constructor
  · intro h
    have hmod : arg.toNat / 2 ^ k % 2 ^ m = 0 := by
      simpa [Nat.shiftRight_eq_div_pow] using congrArg BitVec.toNat h
    have hdiv : arg.toNat / 2 ^ k < 2 ^ m :=
      Nat.div_lt_of_lt_mul (by rw [← pow_add, hkm]; exact arg.isLt)
    have harg : arg.toNat < 2 ^ k :=
      (Nat.div_eq_zero_iff_lt (Nat.two_pow_pos k)).mp (Nat.mod_eq_of_lt hdiv ▸ hmod)
    refine ⟨arg.setWidth k, BitVec.eq_of_toNat_eq ?_⟩
    simp [Nat.mod_eq_of_lt harg, Nat.mod_eq_of_lt arg.isLt]
  · rintro ⟨x, rfl⟩
    ext j hj
    simp

theorem extractLsb'_low_setWidth {k : Nat} (hk : k ≤ 16) (x : BitVec k) :
    (x.setWidth 16).extractLsb' 0 k = x := by
  ext j hj
  simp [Nat.lt_of_lt_of_le hj hk, BitVec.getLsbD_eq_getElem, hj]

/-! ## The decoder reads exactly the words of the commands (R92) -/

theorem decodePlain_eq_ok {i j : Instr} {arg : Half} (h : decodePlain i arg = .ok j) :
    j = i ∧ arg = 0#16 := by
  unfold decodePlain at h
  split at h
  next harg => exact ⟨(Except.ok.inj h).symm, harg⟩
  next => contradiction

theorem decodeByte_eq_ok {j : Instr} {arg : Half} (h : decodeByte arg = .ok j) :
    ∃ b : Byte, j = .byte b ∧ arg = b.setWidth 16 := by
  unfold decodeByte at h
  split at h
  next harg =>
    obtain ⟨b, rfl⟩ := (extractLsb'_high_eq_zero_iff rfl arg).mp harg
    rw [extractLsb'_low_setWidth (by decide)] at h
    exact ⟨b, (Except.ok.inj h).symm, rfl⟩
  next => contradiction

theorem decodeStat_eq_ok {j : Instr} {arg : Half} (h : decodeStat arg = .ok j) :
    ∃ sel : BitVec 4, j = .stat sel ∧ arg = sel.setWidth 16 := by
  unfold decodeStat at h
  split at h
  next harg =>
    obtain ⟨sel, rfl⟩ := (extractLsb'_high_eq_zero_iff rfl arg).mp harg
    rw [extractLsb'_low_setWidth (by decide)] at h
    exact ⟨sel, (Except.ok.inj h).symm, rfl⟩
  next => contradiction

/-- What the decoder accepts has the fields of the command it reads. -/
theorem fields_of_decode {w : Word} {i : Instr} (h : decode w = .ok i) :
    zField w = 0#12 ∧ opField w = opcode i ∧ argField w = operand i := by
  unfold decode at h
  split at h
  next => contradiction
  next hz =>
    refine ⟨not_not.mp hz, ?_⟩
    split at h
    next hop =>
      obtain ⟨rfl, harg⟩ := decodePlain_eq_ok h
      exact ⟨BitVec.eq_of_toNat_eq hop, harg⟩
    next hop =>
      obtain ⟨b, rfl, harg⟩ := decodeByte_eq_ok h
      exact ⟨BitVec.eq_of_toNat_eq hop, harg⟩
    next hop =>
      obtain ⟨rfl, harg⟩ := decodePlain_eq_ok h
      exact ⟨BitVec.eq_of_toNat_eq hop, harg⟩
    next hop =>
      obtain rfl := Except.ok.inj h
      exact ⟨BitVec.eq_of_toNat_eq hop, rfl⟩
    next hop =>
      obtain ⟨rfl, harg⟩ := decodePlain_eq_ok h
      exact ⟨BitVec.eq_of_toNat_eq hop, harg⟩
    next hop =>
      obtain ⟨sel, rfl, harg⟩ := decodeStat_eq_ok h
      exact ⟨BitVec.eq_of_toNat_eq hop, harg⟩
    next => contradiction

/-- No bit of an accepted word is dropped. -/
theorem encode_of_decode {w : Word} {i : Instr} (h : decode w = .ok i) : encode i = w := by
  obtain ⟨hz, hop, harg⟩ := fields_of_decode h
  rw [encode, ← hop, ← harg, cmdWord_opField_argField hz]

/-- Every command is read back from its word. -/
theorem decode_encode (i : Instr) : decode (encode i) = .ok i := by
  obtain ⟨hop, hz, harg⟩ : EncodeFields.Statement i := cmdWord_fields _ _
  unfold decode
  rw [hz, hop, harg]
  cases i with
  | nop => rfl
  | byte b =>
    have hhigh : (b.setWidth 16).extractLsb' 8 8 = 0#8 :=
      (extractLsb'_high_eq_zero_iff rfl _).mpr ⟨b, rfl⟩
    simp [opcode, operand, decodeByte, hhigh, extractLsb'_low_setWidth]
  | take => rfl
  | read off => rfl
  | release => rfl
  | stat sel =>
    have hhigh : (sel.setWidth 16).extractLsb' 4 12 = 0#12 :=
      (extractLsb'_high_eq_zero_iff rfl _).mpr ⟨sel, rfl⟩
    simp [opcode, operand, decodeStat, hhigh, extractLsb'_low_setWidth]

/-! ## Every other word is illegal (R94) -/

theorem not_illegalWord_encode (i : Instr) : ¬ IllegalWord (encode i) := by
  unfold IllegalWord
  cases i with
  | nop => decide
  | byte b => rw [encode_byte_toNat]; omega
  | take => decide
  | read off => rw [encode_read_toNat]; omega
  | release => decide
  | stat sel => rw [encode_stat_toNat]; omega

/-- A legal word is the word of a command: its operation code names it, the rest of `arg` is its operand. -/
theorem exists_encode_of_legal {w : Word} (h : ¬ IllegalWord w) : ∃ i, encode i = w := by
  unfold IllegalWord at h
  simp only [← BitVec.toNat_inj]
  obtain hop | hop | hop | hop | hop | hop :
      w.toNat / 2 ^ 28 = 0 ∨ w.toNat / 2 ^ 28 = 1 ∨ w.toNat / 2 ^ 28 = 2
        ∨ w.toNat / 2 ^ 28 = 3 ∨ w.toNat / 2 ^ 28 = 4 ∨ w.toNat / 2 ^ 28 = 5 := by omega
  · exact ⟨.nop, by rw [encode_nop_toNat]; omega⟩
  · exact ⟨.byte (w.setWidth 8), by rw [encode_byte_toNat, BitVec.toNat_setWidth]; omega⟩
  · exact ⟨.take, by rw [encode_take_toNat]; omega⟩
  · exact ⟨.read (w.setWidth 16), by rw [encode_read_toNat, BitVec.toNat_setWidth]; omega⟩
  · exact ⟨.release, by rw [encode_release_toNat]; omega⟩
  · exact ⟨.stat (w.setWidth 4), by rw [encode_stat_toNat, BitVec.toNat_setWidth]; omega⟩

theorem decode_of_illegalWord {w : Word} (h : IllegalWord w) : ∃ e, decode w = .error e := by
  cases hd : decode w with
  | error e => exact ⟨e, rfl⟩
  | ok i => exact absurd (encode_of_decode hd ▸ h) (not_illegalWord_encode i)

/-! ## What a command word's step does -/

theorem step_of_cmd {s : State} {port : Port} {w : Word} {rest : List Input} (hc : cfgOk s.cfg = true)
    (hi : s.input = .cmd port w :: rest) : step s = runWord w (accept s port rest) := by
  simp [step, stepInput, fetch, hc, hi]

theorem runWord_of_illegalWord {w : Word} (s : State) (h : IllegalWord w) :
    runWord w s = commandError s .errIllegal := by
  obtain ⟨e, he⟩ := decode_of_illegalWord h
  simp [runWord, illegalCommand, he]

theorem runWord_encode (i : Instr) (s : State) : runWord (encode i) s = exec i s := by
  simp [runWord, decode_encode]

theorem onPort_of_ne {port : Port} {s : State} (m : Host.Outcome State Fault Refusal) (h : s.port ≠ port) :
    onPort port s m = commandError s .errContext := if_neg h

/-- A command on a port it is not legal on is refused, whatever the state. -/
theorem exec_of_not_legalOn {i : Instr} {s : State} (h : legalOn i s.port = false) :
    exec i s = commandError s .errContext := by
  cases i with
  | nop => contradiction
  | byte b => exact onPort_of_ne _ (beq_eq_false_iff_ne.mp h)
  | take => exact onPort_of_ne _ (beq_eq_false_iff_ne.mp h)
  | read off => exact onPort_of_ne _ (beq_eq_false_iff_ne.mp h)
  | release => exact onPort_of_ne _ (beq_eq_false_iff_ne.mp h)
  | stat sel => contradiction

/-- Settles O4: an illegal word is one the decoder rejects, a legal one is the word of a command
(`exists_encode_of_legal`), and a refusal writes only the response. -/
theorem illegalAndMisdirectedWordsAreRefused : Obligations.IllegalAndMisdirectedWordsAreRefused := by
  intro s port w rest hc hi
  rw [step_of_cmd hc hi]
  refine ⟨fun hw => runWord_of_illegalWord _ hw, fun hw => ?_⟩
  obtain ⟨i, rfl⟩ := exists_encode_of_legal hw
  rw [runWord_encode]
  exact ⟨i, rfl, fun hl => exec_of_not_legalOn (s := accept s port rest) hl, fun _ => rfl⟩

end Sys2Proof.Proofs.Encoding

/-! The statements about the hex trailer (spec/40_checksum.md R112, R113, R114): what `HEXVAL` reads, what
`HEXENC` writes, and that a checksum byte sent as two digits is assembled again. -/

namespace Sys2Proof.Proofs.Checksum

open Sys2Proof.Machine

/-! ## `HEXVAL` (R112) -/

/-- Settles O53: the three tested ranges do not overlap, and in each the difference is below 16, so that the
nibble holds it. -/
theorem hexDigitTable : Obligations.HexDigitTable := by
  intro lower b n
  unfold hexVal
  split_ifs with hdigit hupper hlower
  · rw [Option.some_inj, ← BitVec.toNat_inj, BitVec.toNat_ofNat]
    omega
  · rw [Option.some_inj, ← BitVec.toNat_inj, BitVec.toNat_ofNat]
    omega
  · rw [Option.some_inj, ← BitVec.toNat_inj, BitVec.toNat_ofNat]
    obtain ⟨hl, hlo, hhi⟩ := hlower
    simp only [hl, true_and]
    omega
  · constructor
    · intro h
      contradiction
    · rintro (⟨hlo, hhi, -⟩ | ⟨hlo, hhi, -⟩ | ⟨hl, hlo, hhi, -⟩)
      · exact absurd ⟨hlo, hhi⟩ hdigit
      · exact absurd ⟨hlo, hhi⟩ hupper
      · exact absurd ⟨hl, hlo, hhi⟩ hlower

/-! ## `HEXENC` (R113) -/

theorem toNat_hexEnc (n : Nibble) :
    (hexEnc n).toNat = if n.toNat ≤ 9 then 0x30 + n.toNat else 0x37 + n.toNat := by
  have hn : n.toNat < 16 := n.isLt
  unfold hexEnc
  split_ifs with h
  · rw [BitVec.toNat_ofNat]; omega
  · rw [BitVec.toNat_ofNat]; omega

/-- The upper-case digit of a nibble is read under either setting of `HEX_LOWER`. -/
theorem hexVal_hexEnc (lower : Bool) (n : Nibble) : hexVal lower (hexEnc n) = some n := by
  have hn : n.toNat < 16 := n.isLt
  have henc := toNat_hexEnc n
  rw [hexDigitTable lower]
  split_ifs at henc with h
  · left; omega
  · right; left; omega

/-! ## Assembling the received checksum (R114) -/

/-- A byte is its high nibble and its low nibble, put together. -/
theorem rxLow_rxHigh_nibbles (c : Byte) :
    rxLow (rxHigh (c.extractLsb' 4 4)) (c.extractLsb' 0 4) = c := by
  unfold rxLow rxHigh
  ext i hi
  by_cases hlow : i < 4
  · simp [hlow, hi]
  · have hidx : 4 + (i - 4) = i := by omega
    have hhigh : i - 4 < 4 := by omega
    simp [hlow, hi, hidx, hhigh]

/-- Settles O54: each digit is read as its nibble (`hexVal_hexEnc`), and the two nibbles make the byte. -/
theorem trailerRoundTrip : Obligations.TrailerRoundTrip :=
  ⟨toNat_hexEnc, fun lower c =>
    ⟨_, _, hexVal_hexEnc lower _, hexVal_hexEnc lower _, rxLow_rxHigh_nibbles c⟩⟩

end Sys2Proof.Proofs.Checksum

/-! The statements about what one byte does in each phase of the frame decoder (spec/41_decoder.md R124, R126,
R127, R130). A transition that touches no slot is a `Quiet` of the laws; a stored byte is the other kind. -/

namespace Sys2Proof.Proofs.DecoderSteps

open Sys2Proof.Machine Sys2Proof.Laws

section
variable {s u : State} {b : Byte}

/-! ## The answer to a `BYTE` -/

/-- On port P a `BYTE` is `ENSURE_FILL`, the phase, and an `OK` with the report (R120). -/
theorem exec_byte_of_bytePhase {q : ByteStep} (hport : s.port = .p) (h : bytePhase (ensureFill s) b = q) :
    exec (.byte b) s = .next (respond q.st .ok (reportValue q.rep)) := by
  subst h
  exact if_pos hport

theorem bytePhase_of_waitData (hp : u.dec.phase = .waitData) : bytePhase u b = byteWaitData u b := by
  simp [bytePhase, hp]

/-- A byte that neither restarts nor ends the attempt goes to `APPEND` (R125). -/
theorem bytePhase_of_appended (hp : u.dec.phase = .waitData) (hr : restarts u b = false)
    (hb : isBoundary u.cfg b = false) : bytePhase u b = append u b := by
  simp [bytePhase_of_waitData hp, byteWaitData, hr, hb]

/-- With no slot to give, `ACQUIRE_FOR_FILL` leaves the state. -/
theorem acquire_st_of_slot_none (h : (acquireForFill u).slot = none) : (acquireForFill u).st = u := by
  rcases acquire_cases u with ⟨f, -, he⟩ | ⟨-, he, -⟩ | ⟨r, -, -, -, -, he⟩
  · simp [he] at h
  · rw [he]
  · simp [he] at h

theorem storeByte_of_no_slot (h : u.dec.noslot = true ∨ (acquireForFill u).slot = none) :
    storeByte u b = { st := acceptByte u b true, rep := Report.only .none } := by
  unfold storeByte
  split
  next => rfl
  next hn =>
    have hs : (acquireForFill u).slot = none := h.resolve_left hn
    rw [hs, acquire_st_of_slot_none hs]

theorem badTrailer_of_start (h : b = u.cfg.startByte) : badTrailer u b = restart u := if_pos h

theorem badTrailer_of_not_start (h : b ≠ u.cfg.startByte) : badTrailer u b = abandon (countMalf u) := if_neg h

/-- In the trailer a byte that is no hex digit has the same effect at either place (R130, R131). -/
theorem bytePhase_of_bad_trailer (hp : u.dec.phase = .waitChecksumHi ∨ u.dec.phase = .waitChecksumLo)
    (hx : hexVal u.cfg.hexLower b = none) : bytePhase u b = badTrailer u b := by
  rcases hp with hp | hp
  · simp [bytePhase, hp, byteWaitHi, hx]
  · simp [bytePhase, hp, byteWaitLo, hx]

/-- The converse of `bytePhase_cases` for the transitions that touch no slot: the table entry of the byte fixes
the step (R122). -/
theorem bytePhase_of_quiet {d : Dec} {c : Cnt} {o : ByteOutcome} (h : Quiet u b d c o) :
    bytePhase u b = { st := { u with dec := d, cnt := c }, rep := Report.only o } := by
  cases h with
  | ignored hp hb => simp [bytePhase, hp, byteWaitStart, hb]
  | begins hp hb => simp [bytePhase, hp, byteWaitStart, hb, beginAttempt]
  | restartsData hp hr => simp [bytePhase_of_waitData hp, byteWaitData, hr, restart, beginAttempt]
  | restartsTrailer hp hx hb =>
    rw [bytePhase_of_bad_trailer hp hx, badTrailer_of_start hb]
    rfl
  | endsOverflowed hp hr hb ho =>
    simp [bytePhase_of_waitData hp, byteWaitData, hr, hb, byteBoundary, ho, abandon, goIdle]
  | introduces hp hr hb ho hf =>
    simp [bytePhase_of_waitData hp, byteWaitData, hr, hb, byteBoundary, ho, hf]
  | discarded hp hr hb ho => simp [bytePhase_of_appended hp hr hb, append, ho]
  | overflows hp hr hb ho hl =>
    simp [bytePhase_of_appended hp hr hb, append, ho, hl, markOverflow, countOvf]
  | unstored hp hr hb ho hl hs =>
    simp [bytePhase_of_appended hp hr hb, append, ho, hl, storeByte_of_no_slot hs, acceptByte]
  | firstDigit n hp hx => simp [bytePhase, hp, byteWaitHi, hx]
  | mismatch n hp hx hn =>
    simp [bytePhase, hp, byteWaitLo, hx, hn, abandon, goIdle, countCkerr]
  | malformed hp hx hb =>
    rw [bytePhase_of_bad_trailer hp hx, badTrailer_of_not_start hb]
    rfl

/-- A `BYTE` whose transition touches no slot: the decoder registers and the counters are the transition's,
the slots are as `ENSURE_FILL` leaves them, and the response carries the outcome alone. -/
theorem exec_byte_of_quiet {d : Dec} {c : Cnt} {o : ByteOutcome} (hport : s.port = .p)
    (h : Quiet (ensureFill s) b d c o) :
    exec (.byte b) s
      = .next { ensureFill s with dec := d
                                  cnt := c
                                  rsp := some ⟨.p, rspWord .ok (reportValue (Report.only o))⟩ } := by
  rw [exec_byte_of_bytePhase hport (bytePhase_of_quiet h)]
  simp only [respond, ensureFill_port, hport]

/-- A stored byte (R126): written at offset `dec.len` of the slot that `ACQUIRE_FOR_FILL` gives, counted and
folded; the response says whether an old frame was reclaimed for it. -/
theorem exec_byte_of_stored {f : SlotIdx} (hport : s.port = .p) (hp : (ensureFill s).dec.phase = .waitData)
    (hr : restarts (ensureFill s) b = false) (hb : isBoundary (ensureFill s).cfg b = false)
    (ho : (ensureFill s).dec.ovf = false) (hl : (ensureFill s).dec.len.toNat < (ensureFill s).cfg.cap)
    (hn : (ensureFill s).dec.noslot = false) (hf : (acquireForFill (ensureFill s)).slot = some f) :
    exec (.byte b) s
      = .next { memWrite (acquireForFill (ensureFill s)).st f (ensureFill s).dec.len.toNat b with
          dec := { (ensureFill s).dec with len := (ensureFill s).dec.len + 1#16
                                           ck := fold (ensureFill s).cfg.fold (ensureFill s).dec.ck b }
          rsp := some ⟨.p, rspWord .ok (reportValue
            { outcome := .none, pub := .nopub, lostOld := (acquireForFill (ensureFill s)).lostOld })⟩ } := by
  have hphase : bytePhase (ensureFill s) b = storeByte (ensureFill s) b := by
    simp only [bytePhase_of_appended hp hr hb, append, ho, hl, Bool.false_eq_true, if_false, if_true]
  rw [exec_byte_of_bytePhase hport hphase]
  rw [ensureFill_dec] at hn
  simp [storeByte, hn, hf, respond, acceptByte, hport]

/-! ## Byte classes (R83) -/

/-- A payload byte neither restarts nor ends the attempt. -/
theorem not_delimiter_of_isPayload (h : isPayload s.cfg b = true) :
    restarts s b = false ∧ isBoundary s.cfg b = false := by
  simp only [isPayload, Bool.and_eq_true, Bool.not_eq_true'] at h
  obtain ⟨hstart, hbound⟩ := h
  exact ⟨by simp [restarts, hstart], hbound⟩

theorem isBoundary_iff (c : Config) (b : Byte) :
    isBoundary c b = true
      ↔ (c.framing = .delim ∧ b = c.endByte) ∨ (c.framing = .cksum ∧ b = c.introByte) := by
  cases hf : c.framing <;> simp [isBoundary, boundaryByte, hf]

/-- R7 (5) keeps the boundary byte apart from the start delimiter, so it restarts nothing. -/
theorem not_restarts_of_isBoundary (hc : cfgOk s.cfg = true) (hb : isBoundary s.cfg b = true) :
    restarts s b = false := by
  have hd : delimitersOk s.cfg = true := by
    simp only [cfgOk, Bool.and_eq_true] at hc
    simp only [hc]
  obtain rfl : b = boundaryByte s.cfg := by simpa [isBoundary] using hb
  have hstart : isStart s.cfg (boundaryByte s.cfg) = false := by
    rw [isStart, Bool.beq_comm]
    simpa only [delimitersOk, Bool.not_eq_true'] using hd
  simp [restarts, hstart]

/-- The first digit as the high nibble (R114): the shift is an append of a zero nibble. -/
theorem rxHigh_eq_append (n : Nibble) : rxHigh n = n ++ 0x0#4 := by
  refine BitVec.eq_of_getLsbD_eq fun i hi => ?_
  rw [BitVec.getLsbD_append]
  by_cases hlow : i < 4
  · simp [rxHigh, hlow]
  · simp [rxHigh, hlow, hi]

end

/-! ## The obligations -/

/-- Settles O22: the two transitions of `WaitStart`, neither of which touches a slot. -/
theorem waitStartIgnoresAllButStart : Obligations.WaitStartIgnoresAllButStart := by
  intro s b hport hphase
  have hp : (ensureFill s).dec.phase = .waitStart := by rwa [ensureFill_dec]
  rw [← ensureFill_cfg s]
  refine ⟨fun hb => ?_, fun hb => ?_⟩
  · exact exec_byte_of_quiet hport (.begins hp hb)
  · exact exec_byte_of_quiet hport (.ignored hp hb)

/-- Settles O24: the cases of `APPEND` in its own order; the first four touch no slot, and the byte of the last
is stored (`bytePhase_of_stored`). -/
theorem payloadByteIsAppended : Obligations.PayloadByteIsAppended := by
  intro s b hport hphase hpay
  rw [← ensureFill_cfg s] at hpay
  rw [← ensureFill_dec s] at hphase
  obtain ⟨hr, hb⟩ := not_delimiter_of_isPayload hpay
  rw [← ensureFill_cfg s, ← ensureFill_dec s, ← ensureFill_cnt s]
  refine ⟨fun ho => ?_, fun ho hl => ?_, fun ho hl hn => ?_, fun ho hl hn hs => ?_,
    fun f ho hl hn hf => ?_⟩
  · exact exec_byte_of_quiet hport (.discarded hphase hr hb ho)
  · exact exec_byte_of_quiet hport (.overflows hphase hr hb ho hl.not_lt)
  · rw [exec_byte_of_quiet hport (.unstored hphase hr hb ho hl (.inl hn))]
    simp only [hn]
    rfl
  · exact exec_byte_of_quiet hport (.unstored hphase hr hb ho hl (.inr hs))
  · rw [exec_byte_of_stored hport hphase hr hb ho hl hn hf]
    cases (acquireForFill (ensureFill s)).lostOld <;> rfl

/-- Settles O26: a boundary byte of a well-formed configuration restarts nothing, and on an overflowed attempt
it goes to the idle registers. -/
theorem boundaryEndsOverflowedAttempt : Obligations.BoundaryEndsOverflowedAttempt := by
  intro s b hc hport hphase ho hend
  have hb : isBoundary s.cfg b = true := (isBoundary_iff s.cfg b).mpr hend
  have hr : restarts s b = false := not_restarts_of_isBoundary hc hb
  rw [← ensureFill_cfg s] at hb ⊢
  rw [← ensureFill_restarts] at hr
  rw [← ensureFill_dec s] at hphase ho
  exact exec_byte_of_quiet hport (.endsOverflowed hphase hr hb ho)

/-- Settles O28: the three transitions of `WaitChecksumHi`, told apart by `HEXVAL` and the start delimiter. -/
theorem firstTrailerCharacter : Obligations.FirstTrailerCharacter := by
  intro s b hport hphase
  rw [← ensureFill_dec s] at hphase
  rw [← ensureFill_cfg s, ← ensureFill_dec s, ← ensureFill_cnt s]
  refine ⟨fun n hx => ?_, fun hx hb => ?_, fun hx hb => ?_⟩
  · rw [← rxHigh_eq_append]
    exact exec_byte_of_quiet hport (.firstDigit n hphase hx)
  · exact exec_byte_of_quiet hport (.restartsTrailer (.inl hphase) hx hb)
  · exact exec_byte_of_quiet hport (.malformed (.inl hphase) hx hb)

end Sys2Proof.Proofs.DecoderSteps

/-! The statements about the handoff arbiter (spec/42_arbiter.md): the claim of a `Free` slot (R150), `TAKE` and
`RELEASE` (R160, R162), and what no command on port C does (R163). -/

namespace Sys2Proof.Proofs.Arbiter

open Sys2Proof.Machine Sys2Proof.Laws Sys2Proof.Proofs.Encoding

section
variable {s t : State}

/-! ## `ENSURE_FILL` (R150), one equation per branch -/

theorem fillIdx_eq_none (h : ∀ i, slotIs s i .filling = false) : fillIdx s = none :=
  (fillIdx_none_iff s).mpr ⟨h .zero, h .one⟩

theorem ensureFill_of_filling {i : SlotIdx} (h : slotIs s i .filling = true) : ensureFill s = s := by
  cases hf : fillIdx s with
  | some f => exact ensureFill_keeps_filling s f hf
  | none => simp [fillIdx_none s i hf] at h

theorem ensureFill_of_zero_free (hn : fillIdx s = none) (h0 : slotIs s .zero .free = true) :
    ensureFill s = setSlotState s .zero .filling := by
  simp [ensureFill, hn, h0]

theorem ensureFill_of_one_free (hn : fillIdx s = none) (h0 : slotIs s .zero .free = false)
    (h1 : slotIs s .one .free = true) : ensureFill s = setSlotState s .one .filling := by
  simp [ensureFill, hn, h0, h1]

theorem ensureFill_of_none_free (h : ∀ i, slotIs s i .free = false) : ensureFill s = s := by
  rcases ensureFill_cases s with ⟨he, -⟩ | ⟨i, -, hi, -⟩
  · exact he
  · simp [h i] at hi

/-- Once it has run, either a slot is `Filling` or there was none to claim. -/
theorem ensureFill_ensureFill (s : State) : ensureFill (ensureFill s) = ensureFill s := by
  cases hf : fillIdx (ensureFill s) with
  | some f => exact ensureFill_keeps_filling _ f hf
  | none => exact congrArg ensureFill (ensureFill_none s hf).1

/-! ## Answers -/

theorem respond_of_port {port : Port} (hport : s.port = port) (st : Status) (v : Half) :
    respond s st v = { s with rsp := some ⟨port, rspWord st v⟩ } := by
  rw [respond, hport]

theorem rspWord_ok (v : Half) : rspWord .ok v = 0x0000#16 ++ v := rfl

/-- A command that is legal on port C only is answered `ERR_CONTEXT` on port P (R94). -/
theorem exec_of_consumer_command_on_p {i : Instr} (hi : legalOn i .p = false) (hport : s.port = .p) :
    exec i s = .next { s with rsp := some ⟨.p, 0x40000000#32⟩ } := by
  rw [exec_of_not_legalOn (hport ▸ hi), commandError, respond_of_port hport]
  rfl

/-- The operation codes of `TAKE` and `RELEASE` have one legal word each: any further bit is in `z` or in an
`arg` that must be 0 (R92). -/
theorem illegal_of_further_bit {w : Word} {op : Nat} (hop : op = 2 ∨ op = 4) (hw : w.toNat / 2 ^ 28 = op)
    (hne : w.toNat ≠ op * 2 ^ 28) : IllegalWord w ∧ ∀ i, decode w ≠ .ok i := by
  have hill : IllegalWord w := by unfold IllegalWord; omega
  obtain ⟨e, he⟩ := decode_of_illegalWord hill
  exact ⟨hill, fun i => by simp [he]⟩

/-! ## `TAKE` (R160) -/

theorem exec_take_on_c (hport : s.port = .c) : exec .take s = .next (takeStep s) := if_pos hport

theorem takeStep_of_held {h : SlotIdx} (hh : s.arb.held = some h) :
    takeStep s = respond s .ok (slotAt s h).length := by
  simp [takeStep, hh]

theorem takeStep_of_none_ready (hn : s.arb.held = none) (h : ∀ i, slotIs s i .ready = false) :
    takeStep s = respond s .empty 0x0000#16 := by
  rcases takeStep_cases s with ⟨j, hj, -⟩ | ⟨-, -, he⟩ | ⟨r, -, hr, -⟩
  · simp [hn] at hj
  · exact he
  · simp [h r] at hr

/-- With a slot `Ready` and none held, `TAKE` holds a `Ready` slot, the older one of two. -/
theorem takeStep_of_some_ready {i : SlotIdx} (hn : s.arb.held = none) (hi : slotIs s i .ready = true) :
    ∃ r, slotIs s r .ready = true ∧ ((∀ j, slotIs s j .ready = true) → r = s.arb.older)
      ∧ takeStep s = takeSlot s r := by
  rcases takeStep_cases s with ⟨j, hj, -⟩ | ⟨-, hempty, -⟩ | ⟨r, -, hr, holder, he⟩
  · simp [hn] at hj
  · simp [← mem_readySet, hempty] at hi
  · exact ⟨r, hr, holder, he⟩

theorem takeSlot_on_c (hport : s.port = .c) (r : SlotIdx) :
    takeSlot s r = { s with arb := { s.arb with held := some r }
                            rsp := some ⟨.c, 0x0000#16 ++ (slotAt s r).length⟩ } :=
  respond_of_port (s := setHeld s (some r)) hport .ok _

/-! ## `RELEASE` (R162) -/

theorem exec_release_of_none (hport : s.port = .c) (hn : s.arb.held = none) :
    exec .release s = commandError s .errNoheld := by
  simp [exec, execRelease, onPort, hport, hn]

theorem exec_release_of_held {j : SlotIdx} (hport : s.port = .c) (hj : s.arb.held = some j) :
    exec .release s = .next (releaseSlot s j) := by
  simp [exec, execRelease, onPort, hport, hj]

theorem releaseSlot_on_c (hport : s.port = .c) (j : SlotIdx) :
    releaseSlot s j
      = { setSlotState s j .free with arb := { s.arb with held := none }
                                      rsp := some ⟨.c, 0x00000000#32⟩ } := by
  rw [releaseSlot, respond_of_port (port := .c) (by simpa using hport), setHeld, setSlotState_arb]
  rfl

/-! ## Every command of the consumer (R163) -/

/-- What a command on port C can do: move the hold and answer, or release the held slot. -/
theorem exec_on_c_cases {i : Instr} (hport : s.port = .c) (h : exec i s = .next t) :
    (∃ hold st v, t = respond (setHeld s hold) st v)
    ∨ ∃ j, i = .release ∧ s.arb.held = some j ∧ t = releaseSlot s j := by
  cases i with
  | nop =>
    obtain rfl := Host.Outcome.next.inj h
    exact .inl ⟨s.arb.held, _, _, rfl⟩
  | byte b =>
    rcases execByte_next b s t h with ⟨hp, -⟩ | ⟨-, rfl⟩
    · simp [hport] at hp
    · exact .inl ⟨s.arb.held, _, _, rfl⟩
  | take =>
    rcases execTake_next s t h with ⟨-, rfl⟩ | ⟨-, rfl⟩
    · rcases takeStep_cases s with ⟨j, -, he⟩ | ⟨-, -, he⟩ | ⟨r, -, -, -, he⟩ <;> rw [he]
      · exact .inl ⟨s.arb.held, _, _, rfl⟩
      · exact .inl ⟨s.arb.held, _, _, rfl⟩
      · exact .inl ⟨some r, _, _, rfl⟩
    · exact .inl ⟨s.arb.held, _, _, rfl⟩
  | read off =>
    obtain ⟨st, v, rfl, -⟩ := execRead_next off s t h
    exact .inl ⟨s.arb.held, _, _, rfl⟩
  | release =>
    rcases execRelease_next s t h with ⟨st, -, rfl⟩ | ⟨j, -, hj, rfl⟩
    · exact .inl ⟨s.arb.held, _, _, rfl⟩
    · exact .inr ⟨j, rfl, hj, rfl⟩
  | stat sel =>
    obtain ⟨st, v, he, -⟩ := execStat_next sel s
    obtain rfl := Host.Outcome.next.inj (he.symm.trans h)
    exact .inl ⟨s.arb.held, _, _, rfl⟩

/-- Outside the slots `RELEASE` writes the hold and the response. -/
theorem releaseSlot_fields (s : State) (j : SlotIdx) :
    (releaseSlot s j).dec = s.dec ∧ (releaseSlot s j).cnt = s.cnt
      ∧ (releaseSlot s j).arb.older = s.arb.older ∧ (releaseSlot s j).cfg = s.cfg
      ∧ (releaseSlot s j).input = s.input ∧ (releaseSlot s j).port = s.port
      ∧ (releaseSlot s j).rsp ≠ none := by
  simp [releaseSlot]

/-- `RELEASE` leaves the length and the payload memory of every slot, and changes the state of the released one
only. -/
theorem releaseSlot_slot (s : State) (j k : SlotIdx) :
    (slotAt (releaseSlot s j) k).mem = (slotAt s k).mem
      ∧ (slotAt (releaseSlot s j) k).length = (slotAt s k).length
      ∧ ((slotAt (releaseSlot s j) k).state ≠ (slotAt s k).state →
          j = k ∧ (slotAt (releaseSlot s j) k).state = .free) := by
  simp only [releaseSlot, respond_slotAt, setHeld_slotAt, setSlotState_slotAt]
  split
  next heq => simp [heq]
  next => simp

/-! ## Every command is answered -/

theorem fieldsInRange_of_inv (hs : Inv s) : FieldsInRange s where
  heldInPool h hh := ((slotIs_iff s h _).mp (hs.slots.heldReady h hh)).1
  lengthCap := hs.slots.lengthCap

/-- An offset below the length of the held slot is a location of the payload memory (20_memory.md R60). -/
theorem memRead_of_held {h : SlotIdx} {off : Nat} (hs : FieldsInRange s) (hh : s.arb.held = some h)
    (hoff : off < (slotAt s h).length.toNat) : memRead s h off = some (payloadByte s h off) :=
  if_pos ⟨hs.heldInPool h hh, hoff.trans_le (hs.lengthCap h)⟩

theorem onPort_answers {port : Port} {m : Host.Outcome State Fault Refusal} (hm : ∃ t, m = .next t) :
    ∃ t, onPort port s m = .next t := by
  unfold onPort
  split
  · exact hm
  · exact ⟨_, rfl⟩

theorem readHeld_answers {h : SlotIdx} (off : Half) (hs : FieldsInRange s) (hh : s.arb.held = some h) :
    ∃ t, readHeld s h off = .next t := by
  unfold readHeld
  split
  next => exact ⟨_, rfl⟩
  next hoff =>
    rw [memRead_of_held hs hh (BitVec.lt_def.mp (BitVec.not_le.mp hoff))]
    exact ⟨_, rfl⟩

/-- Only a `READ` could stop, and it reads inside the held slot. -/
theorem exec_answers (i : Instr) (hs : FieldsInRange s) : ∃ t, exec i s = .next t := by
  cases i with
  | nop => exact ⟨_, rfl⟩
  | byte b => exact onPort_answers ⟨_, rfl⟩
  | take => exact onPort_answers ⟨_, rfl⟩
  | read off =>
    refine onPort_answers ?_
    cases hh : s.arb.held with
    | none => exact ⟨_, rfl⟩
    | some h => exact readHeld_answers off hs hh
  | release =>
    refine onPort_answers ?_
    cases s.arb.held with
    | none => exact ⟨_, rfl⟩
    | some h => exact ⟨_, rfl⟩
  | stat sel =>
    obtain ⟨st, v, he, -⟩ := execStat_next sel s
    exact ⟨_, he⟩

end

/-! ## The obligations -/

/-- Settles O16: the four cases of `takeStep`, the port check, and the words of operation code 2. -/
theorem takeHoldsTheOldestReadyFrame : Obligations.TakeHoldsTheOldestReadyFrame := by
  refine ⟨fun s hport => ?_, fun s => exec_of_consumer_command_on_p rfl,
    fun w hop hne => illegal_of_further_bit (.inl rfl) hop fun h => hne (BitVec.eq_of_toNat_eq h)⟩
  rw [exec_take_on_c hport]
  refine ⟨fun h hh => ?_, fun hn hnone => ?_, fun r hn hr honly => ?_, fun hn hall => ?_⟩
  · rw [takeStep_of_held hh, respond_of_port hport, rspWord_ok]
  · rw [takeStep_of_none_ready hn hnone, respond_of_port hport]
    rfl
  · obtain ⟨r', hr', -, he⟩ := takeStep_of_some_ready hn hr
    rw [he, honly r' hr', takeSlot_on_c hport]
  · obtain ⟨r, -, holder, he⟩ := takeStep_of_some_ready hn (hall .zero)
    rw [he, holder hall, takeSlot_on_c hport]

/-- Settles O19: `RELEASE` with nothing held and with either slot held, the port check, and the words of
operation code 4. -/
theorem releaseFreesTheHeldSlot : Obligations.ReleaseFreesTheHeldSlot := by
  refine ⟨fun s hport => ⟨fun hn => ?_, fun h0 => ?_, fun h1 => ?_⟩,
    fun s => exec_of_consumer_command_on_p rfl,
    fun w hop hne => illegal_of_further_bit (.inr rfl) hop fun h => hne (BitVec.eq_of_toNat_eq h)⟩
  · rw [exec_release_of_none hport hn, commandError, respond_of_port hport]
    rfl
  · rw [exec_release_of_held hport h0, releaseSlot_on_c hport]
    rfl
  · rw [exec_release_of_held hport h1, releaseSlot_on_c hport]
    rfl

/-- Settles O31: the branches of `ENSURE_FILL` in its own order; a slot is claimed only when none is
`Filling`. -/
theorem ensureFillClaimsLowestFreeSlot : Obligations.EnsureFillClaimsLowestFreeSlot := by
  refine fun s => ⟨fun ⟨i, hi⟩ => ensureFill_of_filling hi, fun hnone h0 => ?_, fun hnone h0 h2 h1 => ?_,
    ensureFill_of_none_free, ensureFill_ensureFill s, ensureFill_oneFilling s⟩
  · exact ensureFill_of_zero_free (fillIdx_eq_none hnone) ((slotIs_iff s .zero _).mpr ⟨rfl, h0⟩)
  · have hzero : slotIs s .zero .free = false :=
      Bool.eq_false_iff.mpr fun h => h0 ((slotIs_iff s .zero _).mp h).2
    have hone : slotIs s .one .free = true := (slotIs_iff s .one _).mpr ⟨by simp [hasSlot, h2], h1⟩
    exact ensureFill_of_one_free (fillIdx_eq_none hnone) hzero hone

/-- Settles O37: a command on port C moves the hold or releases the held slot (`exec_on_c_cases`), and in a good
state the only read that could stop is in range (`exec_answers`). -/
theorem consumerNeverTouchesProducerState : Obligations.ConsumerNeverTouchesProducerState := by
  refine fun s i hport => ⟨fun t h => ?_, fun hs => exec_answers i (fieldsInRange_of_inv hs)⟩
  rcases exec_on_c_cases hport h with ⟨hold, st, v, rfl⟩ | ⟨j, hi, hj, rfl⟩
  · exact ⟨rfl, rfl, rfl, rfl, rfl, rfl, by simp, fun k => ⟨rfl, rfl⟩, fun k hk => absurd rfl hk⟩
  · obtain ⟨hdec, hcnt, holder, hcfg, hin, hp, hrsp⟩ := releaseSlot_fields s j
    refine ⟨hdec, hcnt, holder, hcfg, hin, hp, hrsp, fun k => ?_, fun k hk => ?_⟩
    · obtain ⟨hmem, hlen, -⟩ := releaseSlot_slot s j k
      exact ⟨hmem, hlen⟩
    · obtain ⟨-, -, hstate⟩ := releaseSlot_slot s j k
      obtain ⟨rfl, hfree⟩ := hstate hk
      exact ⟨hi, hj, hfree⟩

end Sys2Proof.Proofs.Arbiter

/-! The statements about the commands that only observe (spec/43_consumer_port.md): `READ` (R170), `STAT` and its
selector map (R171 to R173), and `NOP` (R174). -/

namespace Sys2Proof.Proofs.ConsumerPort

open Sys2Proof.Machine Sys2Proof.Laws Sys2Proof.Proofs.Encoding Sys2Proof.Proofs.Arbiter

section
variable {s : State}

/-! ## Fields of a word -/

/-- Two fields side by side make the sum of the low field and the shifted high field. -/
theorem toNat_append_eq_add {m n : Nat} (x : BitVec m) (y : BitVec n) :
    (x ++ y).toNat = x.toNat * 2 ^ n + y.toNat := by
  rw [BitVec.toNat_append, ← Nat.shiftLeft_add_eq_or_of_lt y.isLt, Nat.shiftLeft_eq]

/-! ## Refusals -/

theorem not_decoded_of_illegalWord {w : Word} (h : IllegalWord w) : IllegalWord w ∧ ∀ i, decode w ≠ .ok i := by
  obtain ⟨e, he⟩ := decode_of_illegalWord h
  exact ⟨h, fun i => by simp [he]⟩

theorem commandError_of_port {port : Port} (hport : s.port = port) (st : Status) :
    commandError s st = .next { s with rsp := some ⟨port, rspWord st 0x0000#16⟩ } :=
  congrArg Host.Outcome.next (respond_of_port hport st _)

/-! ## `READ` (R170), one equation per case -/

theorem exec_read_of_none (off : Half) (hport : s.port = .c) (hn : s.arb.held = none) :
    exec (.read off) s = commandError s .errNoheld := by
  simp [exec, execRead, onPort, hport, hn]

theorem exec_read_of_held {h : SlotIdx} (off : Half) (hport : s.port = .c) (hh : s.arb.held = some h) :
    exec (.read off) s = readHeld s h off := by
  simp [exec, execRead, onPort, hport, hh]

theorem readHeld_of_length_le {h : SlotIdx} {off : Half} (hoff : (slotAt s h).length.toNat ≤ off.toNat) :
    readHeld s h off = commandError s .errRange := if_pos hoff

theorem readHeld_of_lt_length {h : SlotIdx} {off : Half} (hs : FieldsInRange s) (hh : s.arb.held = some h)
    (hoff : off.toNat < (slotAt s h).length.toNat) :
    readHeld s h off = .next (respond s .ok ((payloadByte s h off.toNat).setWidth 16)) := by
  rw [readHeld, if_neg (BitVec.not_le.mpr hoff), memRead_of_held hs hh hoff]

/-- A byte zero-extended into an `OK` response stands in its low bits alone (R95). -/
theorem rspWord_ok_setWidth (b : Byte) : rspWord .ok (b.setWidth 16) = 0x000000#24 ++ b := by
  apply BitVec.eq_of_toNat_eq
  rw [rspWord_ok, toNat_append_eq_add, toNat_append_eq_add, BitVec.toNat_setWidth_of_le (by decide)]
  simp

/-- `fieldsInRange_of_inv` needs of the invariant only what holds of the slots. -/
theorem fieldsInRange_of_slotInv (hs : SlotInv s) : FieldsInRange s where
  heldInPool h hh := ((slotIs_iff s h _).mp (hs.heldReady h hh)).1
  lengthCap := hs.lengthCap

theorem read_mem_eq_payloadByte {i : SlotIdx} {off : Nat} (h : (Memory.read (slotAt s i).mem off).isSome) :
    Memory.read (slotAt s i).mem off = some (payloadByte s i off) := by
  obtain ⟨v, hv⟩ := Option.isSome_iff_exists.mp h
  simp [payloadByte, hv]

/-- The held slot is `Ready`, so what lies below its length was written since reset (20_memory.md R64). -/
theorem read_mem_of_held {h : SlotIdx} {off : Nat} (hs : SlotInv s) (hh : s.arb.held = some h)
    (hoff : off < (slotAt s h).length.toNat) :
    Memory.read (slotAt s h).mem off = some (payloadByte s h off) :=
  read_mem_eq_payloadByte (hs.readyWritten h (hs.heldReady h hh) off hoff)

/-! ## `STAT` (R171, R173), one equation per case -/

theorem statRegister_of_undefined {sel : BitVec 4} (h : sel = 7#4 ∨ sel = 15#4) : statRegister s sel = none := by
  rcases h with rfl | rfl <;> rfl

theorem statRegister_of_defined {sel : BitVec 4} (h7 : sel ≠ 7#4) (h15 : sel ≠ 15#4) :
    ∃ v, statRegister s sel = some v := by
  have h7' : sel.toNat ≠ 7 := fun h => h7 (BitVec.eq_of_toNat_eq h)
  have h15' : sel.toNat ≠ 15 := fun h => h15 (BitVec.eq_of_toNat_eq h)
  unfold statRegister
  split
  case h_15 => simp only [imp_false] at *; omega
  all_goals exact ⟨_, rfl⟩

theorem exec_stat_of_undefined {sel : BitVec 4} (h : statRegister s sel = none) :
    exec (.stat sel) s = commandError s .errIllegal := by
  simp [exec, execStat, h]

theorem exec_stat_of_producer_only {sel : BitVec 4} {v : Half} (hv : statRegister s sel = some v)
    (hsel : sel.toNat < 4) (hport : s.port = .c) : exec (.stat sel) s = commandError s .errContext := by
  simp [exec, execStat, hv, selectorProducerOnly, hsel, hport]

theorem exec_stat_of_answered {sel : BitVec 4} {v : Half} (hv : statRegister s sel = some v)
    (h : ¬ (sel.toNat < 4 ∧ s.port = .c)) : exec (.stat sel) s = .next (respond s .ok v) := by
  simp [exec, execStat, hv, selectorProducerOnly, h]

/-! ## The registers as numbers (R172) -/

theorem idxBit_toNat (i : SlotIdx) : (idxBit i).toNat = if i = .one then 1 else 0 := by
  cases i <;> rfl

theorem statHeldBit_toNat (s : State) :
    (statHeldBit s).toNat = if s.arb.held = some .one then 1 else 0 := by
  unfold statHeldBit
  cases s.arb.held with
  | none => rfl
  | some h => simp [idxBit_toNat]

theorem isSome_toNat_eq (o : Option SlotIdx) : o.isSome.toNat = if o = none then 0 else 1 := by
  cases o <;> rfl

theorem statSlotBits_one_toNat (s : State) :
    (statSlotBits s .one).toNat = if s.cfg.nslots = 2 then (slotStateCode s.slot1.state).toNat else 0 := by
  by_cases h2 : s.cfg.nslots = 2 <;> simp [statSlotBits, hasSlot, h2, slotAt]

theorem statDecPhase_toNat (s : State) :
    (statDecPhase s).toNat
      = (phaseCode s.dec.phase).toNat + 4 * s.dec.ovf.toNat + 8 * s.dec.noslot.toNat := by
  simp only [statDecPhase, toNat_append_eq_add, BitVec.toNat_ofBool, BitVec.toNat_ofNat]
  omega

theorem statArb_toNat (s : State) :
    (statArb s).toNat
      = (slotStateCode s.slot0.state).toNat
          + 4 * (if s.cfg.nslots = 2 then (slotStateCode s.slot1.state).toNat else 0)
          + (if s.arb.held = none then 0 else 16) + (if s.arb.held = some .one then 32 else 0)
          + (if s.arb.older = .one then 64 else 0)
          + 128 * (readyOut s).toNat + 256 * (pauseReqOut s).toNat := by
  have hzero : statSlotBits s .zero = slotStateCode s.slot0.state := rfl
  simp only [statArb, toNat_append_eq_add, BitVec.toNat_ofBool, BitVec.toNat_ofNat, hzero,
    statSlotBits_one_toNat, statHeldBit_toNat, isSome_toNat_eq, idxBit_toNat]
  split_ifs <;> omega

theorem statSlotLen_one_toNat (s : State) :
    (statSlotLen s .one).toNat = if s.cfg.nslots = 2 then s.slot1.length.toNat else 0 := by
  by_cases h2 : s.cfg.nslots = 2 <;> simp [statSlotLen, hasSlot, h2, slotAt]

theorem statCfg0_toNat {c : Config} (hcap : c.cap ≤ 65535) : (statCfg0 c).toNat = c.cap :=
  Nat.mod_eq_of_lt (by omega)

theorem statCfg1_toNat {c : Config} (hslots : c.nslots = 1 ∨ c.nslots = 2) :
    (statCfg1 c).toNat
      = (c.nslots - 1) + 2 * (framingCode c.framing).toNat + 4 * c.useStart.toNat
          + 8 * (policyCode c.policy).toNat + 32 * (ovfResyncCode c.ovfResync).toNat
          + 64 * c.hexLower.toNat + 128 * c.pauseEn.toNat := by
  simp only [statCfg1, toNat_append_eq_add, BitVec.toNat_ofBool, BitVec.toNat_ofNat]
  omega

theorem statCfg2_toNat (c : Config) :
    (statCfg2 c).toNat
      = (if c.useStart = true then c.startByte.toNat else 0)
          + 256 * (if c.framing = .delim then c.endByte.toNat else c.introByte.toNat) := by
  have hboundary : (boundaryByte c).toNat
      = if c.framing = .delim then c.endByte.toNat else c.introByte.toNat := by
    cases hf : c.framing <;> simp [boundaryByte, hf]
  rw [statCfg2, toNat_append_eq_add, hboundary, apply_ite BitVec.toNat]
  simp only [BitVec.toNat_ofNat, Nat.zero_mod]
  omega

end

/-! ## The obligations -/

/-- Settles O14: the cases of `execStat` in its own order, and the words of operation code 5. -/
theorem statAnswersAndWritesNothing : Obligations.StatAnswersAndWritesNothing := by
  refine ⟨fun w hop hbits => not_decoded_of_illegalWord (by unfold IllegalWord; omega),
    fun s sel => ⟨fun hundef => ?_, fun hsel hport => ?_, fun h7 h15 hanswered => ?_⟩⟩
  · rw [exec_stat_of_undefined (statRegister_of_undefined hundef), commandError_of_port rfl]
    rfl
  · obtain ⟨v, hv⟩ := statRegister_of_defined (s := s) (sel := sel) (by bv_omega) (by bv_omega)
    rw [exec_stat_of_producer_only hv hsel hport, commandError_of_port hport]
    rfl
  · obtain ⟨v, hv⟩ := statRegister_of_defined (s := s) h7 h15
    exact ⟨v, hv, exec_stat_of_answered hv hanswered⟩

/-- Settles O15: a selector picks its register, and each register is the number its fields make. -/
theorem statSelectorMap : Obligations.StatSelectorMap := by
  intro s hslots hcap
  have hck : (s.dec.ck.setWidth 16).toNat = s.dec.ck.toNat := BitVec.toNat_setWidth_of_le (by decide)
  have hrx : (s.dec.rx.setWidth 16).toNat = s.dec.rx.toNat := BitVec.toNat_setWidth_of_le (by decide)
  exact ⟨congrArg some (statDecPhase_toNat s), rfl, congrArg some hck, congrArg some hrx,
    congrArg some (statArb_toNat s), rfl, congrArg some (statSlotLen_one_toNat s),
    statRegister_of_undefined (.inl rfl), rfl, rfl, rfl, rfl, congrArg some (statCfg0_toNat hcap),
    congrArg some (statCfg1_toNat hslots), congrArg some (statCfg2_toNat s.cfg),
    statRegister_of_undefined (.inr rfl)⟩

/-- Settles O17: the cases of `READ` in its own order, the port check, and the words of operation code 3. -/
theorem readAnswersTheHeldByte : Obligations.ReadAnswersTheHeldByte := by
  refine ⟨fun w _ hz => not_decoded_of_illegalWord (.inr (.inl hz)),
    fun s off => ⟨fun hport hn => ?_, fun h hport hh hoff => ?_, fun h hport hh hoff hs => ⟨?_, ?_⟩,
      exec_of_consumer_command_on_p rfl⟩⟩
  · rw [exec_read_of_none off hport hn, commandError_of_port hport]
    rfl
  · rw [exec_read_of_held off hport hh, readHeld_of_length_le hoff, commandError_of_port hport]
    rfl
  · rw [exec_read_of_held off hport hh, readHeld_of_lt_length (fieldsInRange_of_slotInv hs) hh hoff,
      respond_of_port hport, rspWord_ok_setWidth]
  · exact read_mem_of_held hs hh hoff

/-- Settles O13: the all-zero word is the one legal word of operation code 0. -/
theorem nopAnswersOkAndWritesNothing : Obligations.NopAnswersOkAndWritesNothing := by
  refine ⟨rfl, fun s => rfl, fun s port w rest hc hi hop hne => ?_⟩
  have hill : IllegalWord w := by
    have hnz : w.toNat ≠ 0 := fun h => hne (BitVec.eq_of_toNat_eq h)
    unfold IllegalWord
    omega
  rw [step_of_cmd hc hi, runWord_of_illegalWord _ hill, commandError_of_port (port := port) rfl]
  rfl

end Sys2Proof.Proofs.ConsumerPort

/-! The statement about two commands presented at once (spec/60_exceptions.md R194). The step takes the port P
word and leaves the port C word next, and no command touches the pending inputs: so the port C command is the
next one, whatever the port P command did. -/

namespace Sys2Proof.Proofs.Exceptions

open Sys2Proof.Machine Sys2Proof.Laws Sys2Proof.Proofs.Encoding Sys2Proof.Proofs.Arbiter

section
variable {s t : State} {i : Instr}

/-! ## What leaves the pending inputs -/

@[simp] theorem publish_input (s : State) (f : SlotIdx) (n : Half) : (publish s f n).st.input = s.input :=
  (publish_fields s f n).2.2.2.1

@[simp] theorem complete_input (s : State) : (complete s).st.input = s.input := by
  rcases complete_cases s with ⟨-, he⟩ | ⟨f, -, -, he⟩ <;> simp [he]

@[simp] theorem byteStep_input (s : State) (b : Byte) : (byteStep s b).st.input = s.input := by
  rcases byteStep_cases s b with ⟨d, c, o, -, he⟩ | ⟨f, -, -, -, -, -, -, -, he⟩ | ⟨-, he⟩ <;> simp [he]

/-- What a command on port P can do: answer and change nothing else, or run the step of a byte. The commands
of the consumer are refused there (R192). -/
theorem exec_on_p_cases (hport : s.port = .p) (h : exec i s = .next t) :
    (∃ st v, t = respond s st v)
    ∨ ∃ b, i = .byte b ∧ t = respond (byteStep s b).st .ok (reportValue (byteStep s b).rep) := by
  cases hl : legalOn i s.port with
  | false => exact .inl ⟨_, _, (Host.Outcome.next.inj ((exec_of_not_legalOn hl).symm.trans h)).symm⟩
  | true =>
    rw [hport] at hl
    cases i with
    | nop => exact .inl ⟨_, _, (Host.Outcome.next.inj h).symm⟩
    | byte b =>
      rcases execByte_next b s t h with ⟨-, rfl⟩ | ⟨hn, -⟩
      · exact .inr ⟨b, rfl, rfl⟩
      · exact absurd hport hn
    | stat sel =>
      obtain ⟨st, v, he, -⟩ := execStat_next sel s
      exact .inl ⟨st, v, (Host.Outcome.next.inj (he.symm.trans h)).symm⟩
    | take | read | release => contradiction

theorem exec_input (h : exec i s = .next t) : t.input = s.input := by
  cases hport : s.port with
  | p => rcases exec_on_p_cases hport h with ⟨st, v, rfl⟩ | ⟨b, -, rfl⟩ <;> simp
  | c =>
    rcases exec_on_c_cases hport h with ⟨hold, st, v, rfl⟩ | ⟨j, -, -, rfl⟩
    · simp
    · obtain ⟨-, -, -, -, hinput, -⟩ := releaseSlot_fields s j
      exact hinput

theorem runWord_input {w : Word} (h : runWord w s = .next t) : t.input = s.input := by
  unfold runWord at h
  split at h
  next i hi => exact exec_input h
  next e he =>
    obtain rfl := Host.Outcome.next.inj h
    rfl

/-! ## Two words at once -/

/-- The step takes the port P word first: the two inputs give the same word to run, on the same state, and
whether the configuration is accepted does not depend on the input. -/
theorem step_of_both {wp wc : Word} {rest : List Input} (hi : s.input = .both wp wc :: rest) :
    step s = step { s with input := .cmd .p wp :: .cmd .c wc :: rest } := by
  have hrun : stepInput s = runWord wp (accept s .p (.cmd .c wc :: rest)) := by
    simp [stepInput, fetch, hi]
  rw [step, hrun]
  rfl

/-- A step that takes a command word leaves the rest of the input. -/
theorem step_input_of_cmd {port : Port} {w : Word} {rest : List Input} (hi : s.input = .cmd port w :: rest)
    (h : step s = .next t) : t.input = rest := by
  obtain ⟨hc, -⟩ := step_cases s t h
  rw [step_of_cmd hc hi] at h
  exact runWord_input h

end

/-! ## The obligation -/

/-- Settles O6: the step is that of the two words in order (`step_of_both`), and the port P command leaves the
rest of the input, which begins with the port C word. -/
theorem producerCommandIsOrderedFirst : Obligations.ProducerCommandIsOrderedFirst := by
  intro s wp wc rest hi
  refine ⟨step_of_both hi, fun t h => ?_⟩
  rw [step_of_both hi] at h
  exact step_input_of_cmd rfl h

end Sys2Proof.Proofs.Exceptions

/-! The statements about the configuration (spec/00_scope.md R7, 40_checksum.md R110): the clauses of a
well-formed one, and the fold of two bytes as a table. -/

namespace Sys2Proof.Proofs.Configuration

open Sys2Proof.Machine

/-! ## Well-formed configurations (00_scope.md R7), clause by clause -/

section
variable (c : Config)

theorem capOk_iff : capOk c = true ↔ 1 ≤ c.cap ∧ c.cap ≤ 65535 := by simp [capOk]

theorem nslotsOk_iff : nslotsOk c = true ↔ c.nslots = 1 ∨ c.nslots = 2 := by simp [nslotsOk]

theorem policyOk_iff : policyOk c = true ↔ (c.policy = .swap → c.nslots = 2) := by
  cases h : c.policy <;> simp [policyOk, h]

theorem framingOk_iff : framingOk c = true ↔ (c.framing = .cksum → c.useStart = true) := by
  cases h : c.framing <;> simp [framingOk, h]

theorem delimitersOk_iff :
    delimitersOk c = true ↔ (c.useStart = true → c.framing = .delim → c.startByte ≠ c.endByte)
      ∧ (c.useStart = true → c.framing = .cksum → c.startByte ≠ c.introByte) := by
  cases h : c.framing <;> simp [delimitersOk, boundaryByte, h, imp_iff_not_or]

theorem startNotHexOk_iff :
    startNotHexOk c = true ↔ (c.framing = .cksum → hexVal c.hexLower c.startByte = none) := by
  cases h : c.framing <;> simp [startNotHexOk, isHex, h]

theorem trailerOk_iff : trailerOk c = true ↔ c.trailerWidth = 2 := by simp [trailerOk]

theorem foldOk_iff : foldOk c = true ↔ ∀ results, c.fold = .table results → results.length = 65536 := by
  cases h : c.fold with
  | xor => simp [foldOk, h]
  | table results => simp [foldOk, h]

theorem cfgOk_iff : cfgOk c = true ↔
    (1 ≤ c.cap ∧ c.cap ≤ 65535) ∧ (c.nslots = 1 ∨ c.nslots = 2) ∧ (c.policy = .swap → c.nslots = 2)
      ∧ (c.framing = .cksum → c.useStart = true)
      ∧ (c.useStart = true → c.framing = .delim → c.startByte ≠ c.endByte)
      ∧ (c.useStart = true → c.framing = .cksum → c.startByte ≠ c.introByte)
      ∧ (c.framing = .cksum → hexVal c.hexLower c.startByte = none)
      ∧ c.trailerWidth = 2
      ∧ (∀ results, c.fold = .table results → results.length = 65536) := by
  simp only [cfgOk, Bool.and_eq_true, capOk_iff, nslotsOk_iff, policyOk_iff, framingOk_iff, delimitersOk_iff,
    startNotHexOk_iff, trailerOk_iff, foldOk_iff, and_assoc]

end

section
variable {c : Config}

theorem cap_le_of_cfgOk (h : cfgOk c = true) : 1 ≤ c.cap ∧ c.cap ≤ 65535 := by
  obtain ⟨hcap, -⟩ := (cfgOk_iff c).mp h
  exact hcap

theorem useStart_of_cfgOk (h : cfgOk c = true) (hf : c.framing = .cksum) : c.useStart = true := by
  obtain ⟨-, -, -, hstart, -⟩ := (cfgOk_iff c).mp h
  exact hstart hf

/-- R7 (6): under checksum framing the start delimiter is no hex digit. -/
theorem hexVal_startByte (h : cfgOk c = true) (hf : c.framing = .cksum) :
    hexVal c.hexLower c.startByte = none := by
  obtain ⟨-, -, -, -, -, -, hhex, -⟩ := (cfgOk_iff c).mp h
  exact hhex hf

end

/-! ## A fold as a table (40_checksum.md R110) -/

/-- The 65536 results of a function of two bytes, the result for `(acc, input)` at `256 * acc + input`. -/
def resultsOf (f : Byte → Byte → Byte) : List Byte :=
  (List.range 65536).map fun k => f (BitVec.ofNat 8 (k / 256)) (BitVec.ofNat 8 k)

theorem length_resultsOf (f : Byte → Byte → Byte) : (resultsOf f).length = 65536 := by
  rw [resultsOf, List.length_map, List.length_range]

theorem fold_resultsOf (f : Byte → Byte → Byte) (acc input : Byte) :
    fold (.table (resultsOf f)) acc input = f acc input := by
  have hacc := acc.isLt
  have hinput := input.isLt
  have hlt : acc.toNat * 256 + input.toNat < (List.range 65536).length := by
    rw [List.length_range]
    omega
  have hhigh : BitVec.ofNat 8 ((acc.toNat * 256 + input.toNat) / 256) = acc := by
    apply BitVec.eq_of_toNat_eq
    rw [BitVec.toNat_ofNat]
    omega
  have hlow : BitVec.ofNat 8 (acc.toNat * 256 + input.toNat) = input := by
    apply BitVec.eq_of_toNat_eq
    rw [BitVec.toNat_ofNat]
    omega
  rw [fold, List.getD_eq_getElem?_getD, resultsOf, List.getElem?_map, List.getElem?_eq_getElem hlt,
    List.getElem_range, Option.map_some, Option.getD_some, hhigh, hlow]

/-- The configuration `CFG_A` with the fold of a function. -/
def withFold (f : Byte → Byte → Byte) : Config := { Config.cfgA with fold := .table (resultsOf f) }

theorem withFold_ok (f : Byte → Byte → Byte) : cfgOk (withFold f) = true := by
  have hfold : foldOk (withFold f) = true := (foldOk_iff _).mpr fun results h => by
    obtain rfl := Fold.table.inj h
    exact length_resultsOf f
  rw [cfgOk, hfold]
  rfl

/-! ## The obligations -/

/-- Settles O8: the clauses one by one (`cfgOk_iff`); reset and the step test the configuration first. -/
theorem illFormedConfigurationIsRefused : Obligations.IllFormedConfigurationIsRefused :=
  ⟨cfgOk_iff, fun c hc => by simp [State.resetOf, hc], fun s hc => by simp [step, hc]⟩

/-- Settles O55: the table of a function's results, in `CFG_A`. -/
theorem everyFoldIsConfigurable : Obligations.EveryFoldIsConfigurable :=
  ⟨fun f => ⟨withFold f, withFold_ok f, fold_resultsOf f⟩, fun _ _ => rfl⟩

end Sys2Proof.Proofs.Configuration

/-! What a command can do, said once for all commands and both ports (`Effect`), with what every step keeps
(`step_keeps`); and the statements that follow from it alone: encoding, refusals, responses, and the counters. -/

namespace Sys2Proof.Proofs.Commands

open Sys2Proof.Machine Sys2Proof.Laws Sys2Proof.Proofs.Encoding Sys2Proof.Proofs.BlockState
open Sys2Proof.Proofs.Arbiter Sys2Proof.Proofs.ConsumerPort

/-! ## What a command can do -/

/-- What a command that gives a next state has done. Only three commands write anything but the response: a `TAKE`
that begins a hold, a `RELEASE` that ends one, and a `BYTE`. -/
inductive Effect (s : State) : Instr → State → Prop where
  /-- an answer and nothing else; a refusal has value 0 (60_exceptions.md R192). -/
  | answered {i : Instr} (st : Status) (v : Half) (hv : st ≠ .ok → v = 0x0000#16) : Effect s i (respond s st v)
  /-- `TAKE` of a `Ready` slot with nothing held (42_arbiter.md R160). -/
  | took (r : SlotIdx) (hport : s.port = .c) (hn : s.arb.held = none) (hr : slotIs s r .ready = true) :
      Effect s .take (takeSlot s r)
  /-- `RELEASE` of the held slot (R162). -/
  | released (j : SlotIdx) (hport : s.port = .c) (hj : s.arb.held = some j) : Effect s .release (releaseSlot s j)
  /-- `BYTE` on its port (41_decoder.md R120). -/
  | received (b : Byte) (hport : s.port = .p) :
      Effect s (.byte b) (respond (byteStep s b).st .ok (reportValue (byteStep s b).rep))

section
variable {s t : State} {i : Instr}

theorem Effect.refused (i : Instr) (st : Status) : Effect s i (respond s st 0x0000#16) :=
  .answered st _ fun _ => rfl

theorem effect_of_exec (h : exec i s = .next t) : Effect s i t := by
  cases i with
  | nop =>
    obtain rfl := Host.Outcome.next.inj h
    exact .refused _ .ok
  | byte b =>
    rcases execByte_next b s t h with ⟨hp, rfl⟩ | ⟨-, rfl⟩
    · exact .received b hp
    · exact .refused _ _
  | take =>
    rcases execTake_next s t h with ⟨hp, rfl⟩ | ⟨-, rfl⟩
    · rcases takeStep_cases s with ⟨j, -, he⟩ | ⟨-, -, he⟩ | ⟨r, hn, hr, -, he⟩ <;> rw [he]
      · exact .answered _ _ fun hst => absurd rfl hst
      · exact .refused _ _
      · exact .took r hp hn hr
    · exact .refused _ _
  | read off =>
    obtain ⟨st, v, rfl, hv⟩ := execRead_next off s t h
    exact .answered st v hv
  | release =>
    rcases execRelease_next s t h with ⟨st, -, rfl⟩ | ⟨j, hp, hj, rfl⟩
    · exact .refused _ _
    · exact .released j hp hj
  | stat sel =>
    obtain ⟨st, v, he, hv⟩ := execStat_next sel s
    obtain rfl := Host.Outcome.next.inj (he.symm.trans h)
    exact .answered st v hv

/-! ### Fields that no command writes -/

@[simp] theorem publish_cfg (s : State) (f : SlotIdx) (n : Half) : (publish s f n).st.cfg = s.cfg := by
  obtain ⟨hcfg, -⟩ := publish_fields s f n
  exact hcfg

@[simp] theorem publish_port (s : State) (f : SlotIdx) (n : Half) : (publish s f n).st.port = s.port := by
  obtain ⟨-, -, -, -, hport, -⟩ := publish_fields s f n
  exact hport

@[simp] theorem publish_held (s : State) (f : SlotIdx) (n : Half) :
    (publish s f n).st.arb.held = s.arb.held := by
  obtain ⟨-, -, hheld, -⟩ := publish_fields s f n
  exact hheld

@[simp] theorem publish_mem (s : State) (f : SlotIdx) (n : Half) (i : SlotIdx) :
    (slotAt (publish s f n).st i).mem = (slotAt s i).mem := by
  obtain ⟨-, -, -, -, -, -, -, hslot⟩ := publish_fields s f n
  exact (hslot i).1

theorem publish_older (s : State) (f : SlotIdx) (n : Half) (hp : s.cfg.policy ≠ .swap) :
    (publish s f n).st.arb.older = s.arb.older := by
  obtain ⟨-, -, -, -, -, -, holder, -⟩ := publish_fields s f n
  exact holder hp

@[simp] theorem complete_cfg (s : State) : (complete s).st.cfg = s.cfg := by
  rcases complete_cases s with ⟨-, he⟩ | ⟨f, -, -, he⟩ <;> simp [he]

@[simp] theorem complete_port (s : State) : (complete s).st.port = s.port := by
  rcases complete_cases s with ⟨-, he⟩ | ⟨f, -, -, he⟩ <;> simp [he]

@[simp] theorem complete_held (s : State) : (complete s).st.arb.held = s.arb.held := by
  rcases complete_cases s with ⟨-, he⟩ | ⟨f, -, -, he⟩ <;> simp [he]

@[simp] theorem byteStep_cfg (s : State) (b : Byte) : (byteStep s b).st.cfg = s.cfg := by
  rcases byteStep_cases s b with ⟨d, c, o, -, he⟩ | ⟨f, -, -, -, -, -, -, -, he⟩ | ⟨-, he⟩ <;> simp [he]

@[simp] theorem byteStep_port (s : State) (b : Byte) : (byteStep s b).st.port = s.port := by
  rcases byteStep_cases s b with ⟨d, c, o, -, he⟩ | ⟨f, -, -, -, -, -, -, -, he⟩ | ⟨-, he⟩ <;> simp [he]

@[simp] theorem byteStep_held (s : State) (b : Byte) : (byteStep s b).st.arb.held = s.arb.held := by
  rcases byteStep_cases s b with ⟨d, c, o, -, he⟩ | ⟨f, -, -, -, -, -, -, -, he⟩ | ⟨-, he⟩ <;> simp [he]

theorem Effect.cfg (h : Effect s i t) : t.cfg = s.cfg := by
  cases h with
  | answered st v hv => rfl
  | took r hport hn hr => rfl
  | released j hport hj => simp [releaseSlot]
  | received b hport => simp

/-! ## What every step keeps -/

/-- What holds of the reset state and is kept by every command is kept by a step: an illegal word is an answer
too, and with nothing presented nothing changes. -/
theorem step_keeps {P : State → Prop} (hs : P s) (h : step s = .next t)
    (hreset : ∀ r rest, State.resetOf s.cfg = some r → P { r with input := rest })
    (hcmd : ∀ port rest i t, Effect (accept s port rest) i t → P t) : P t := by
  obtain ⟨-, ⟨-, rfl⟩ | ⟨rest, -, hafter⟩ | ⟨port, w, rest, -, hrun, -⟩⟩ := step_cases s t h
  · exact hs
  · obtain ⟨r, hr, rfl⟩ := afterReset_some s t rest hafter
    exact hreset r rest hr
  · rcases hrun with ⟨e, -, rfl⟩ | ⟨i, -, hi⟩
    · exact hcmd port rest .nop _ (.refused _ _)
    · exact hcmd port rest i t (effect_of_exec hi)

/-! ## Responses (30_encoding.md R95, R96) -/

theorem rspWord_toNat (st : Status) (v : Half) :
    (rspWord st v).toNat = (statusCode st).toNat * 2 ^ 28 + v.toNat := by
  simp only [rspWord, toNat_append_eq_add, BitVec.toNat_ofNat, Nat.zero_mod]
  omega

theorem statusCode_toNat_le (st : Status) : (statusCode st).toNat ≤ 5 := by
  cases st <;> decide

theorem statusCode_eq_zero_iff (st : Status) : (statusCode st).toNat = 0 ↔ st = .ok := by
  cases st <;> decide

@[simp] theorem statusField_rspWord (st : Status) (v : Half) : statusField (rspWord st v) = statusCode st := by
  apply BitVec.eq_of_toNat_eq
  have hst := statusCode_toNat_le st
  simp only [statusField, BitVec.extractLsb'_toNat, Nat.shiftRight_eq_div_pow, rspWord_toNat]
  omega

/-- The response of a command: on the port it came on, with value 0 unless the status is `OK`. -/
theorem Effect.rsp (h : Effect s i t) :
    ∃ st v, t.rsp = some ⟨s.port, rspWord st v⟩ ∧ (st ≠ .ok → v = 0x0000#16 ∧ t = respond s st v) := by
  cases h with
  | answered st v hv => exact ⟨st, v, rfl, fun hst => ⟨hv hst, rfl⟩⟩
  | took r hport hn hr => exact ⟨.ok, _, rfl, fun hst => absurd rfl hst⟩
  | released j hport hj => exact ⟨.ok, 0x0000#16, by simp [releaseSlot], fun hst => absurd rfl hst⟩
  | received b hport => exact ⟨.ok, _, by rw [respond_rsp, byteStep_port], fun hst => absurd rfl hst⟩

/-- The step of a word in a state of good fields: it answers, with the effect of a command. -/
theorem runWord_answers {w : Word} (hs : FieldsInRange s) : ∃ i t, runWord w s = .next t ∧ Effect s i t := by
  unfold runWord
  split
  next i _ =>
    obtain ⟨t, ht⟩ := exec_answers i hs
    exact ⟨i, t, ht, effect_of_exec ht⟩
  next => exact ⟨.nop, _, rfl, .refused _ _⟩

theorem fieldsInRange_accept (hs : FieldsInRange s) (port : Port) (rest : List Input) :
    FieldsInRange (accept s port rest) := ⟨hs.heldInPool, hs.lengthCap⟩

/-! ## Counters (10_state.md R40) -/

theorem satInc_toNat (x : Half) : (satInc x).toNat = min (x.toNat + 1) 0xFFFF := by
  have hx := x.isLt
  unfold satInc
  split_ifs with h
  · subst h
    rfl
  · have hne : x.toNat ≠ 0xFFFF := fun h' => h (BitVec.eq_of_toNat_eq h')
    rw [BitVec.toNat_add_of_lt (by simpa using by omega)]
    simp only [BitVec.toNat_ofNat]
    omega

theorem le_satInc (x : Half) : x.toNat ≤ (satInc x).toNat := by
  have hx := x.isLt
  rw [satInc_toNat]
  omega

/-- No counter of `c` is above that of `d`. -/
def CntLe (c d : Cnt) : Prop :=
  c.ovf.toNat ≤ d.ovf.toNat ∧ c.drop.toNat ≤ d.drop.toNat ∧ c.ckerr.toNat ≤ d.ckerr.toNat
    ∧ c.malf.toNat ≤ d.malf.toNat

theorem CntLe.refl (c : Cnt) : CntLe c c := ⟨le_rfl, le_rfl, le_rfl, le_rfl⟩

theorem CntLe.trans {c d e : Cnt} (h : CntLe c d) (h' : CntLe d e) : CntLe c e := by
  obtain ⟨ho, hd, hk, hm⟩ := h
  obtain ⟨ho', hd', hk', hm'⟩ := h'
  exact ⟨ho.trans ho', hd.trans hd', hk.trans hk', hm.trans hm'⟩

theorem cntLe_cntAfter (lost : Bool) (c : Cnt) : CntLe c (cntAfter lost c) := by
  cases lost with
  | false => exact .refl c
  | true => exact ⟨le_rfl, le_satInc _, le_rfl, le_rfl⟩

theorem cntLe_of_quiet {b : Byte} {d : Dec} {c : Cnt} {o : ByteOutcome} (h : Quiet s b d c o) :
    CntLe s.cnt c := by
  cases h with
  | overflows => exact ⟨le_satInc _, le_rfl, le_rfl, le_rfl⟩
  | mismatch => exact ⟨le_rfl, le_rfl, le_satInc _, le_rfl⟩
  | malformed => exact ⟨le_rfl, le_rfl, le_rfl, le_satInc _⟩
  | _ => exact .refl _

theorem cntLe_complete (s : State) : CntLe s.cnt (complete s).st.cnt := by
  rcases complete_cases s with ⟨-, he⟩ | ⟨f, -, -, he⟩ <;> rw [he, goIdle_cnt]
  · exact cntLe_cntAfter true _
  · rw [publish_cnt, acquire_cnt]
    exact (cntLe_cntAfter _ _).trans (cntLe_cntAfter _ _)

theorem cntLe_byteStep (s : State) (b : Byte) : CntLe s.cnt (byteStep s b).st.cnt := by
  rw [← ensureFill_cnt s]
  rcases byteStep_cases s b with ⟨d, c, o, hq, he⟩ | ⟨f, -, -, -, -, -, -, -, he⟩ | ⟨-, he⟩ <;> rw [he]
  · exact cntLe_of_quiet hq
  · rw [acceptByte_cnt, memWrite_cnt, acquire_cnt]
    exact cntLe_cntAfter _ _
  · exact cntLe_complete _

/-! ## The decoder registers and the consumer (10_state.md R20) -/

theorem releaseSlot_withDec (s : State) (d : Dec) (j : SlotIdx) :
    releaseSlot { s with dec := d } j = { releaseSlot s j with dec := d } := by
  cases j <;> rfl

theorem takeStep_withDec (s : State) (d : Dec) : takeStep { s with dec := d } = { takeStep s with dec := d } := by
  have hset : readySet { s with dec := d } = readySet s := rfl
  unfold takeStep takeReady
  rw [hset]
  cases s.arb.held with
  | some h => rfl
  | none =>
    simp only
    split <;> rfl

theorem commandError_withDec (d : Dec) {st : Status} (h : commandError s st = .next t) :
    commandError { s with dec := d } st = .next { t with dec := d } := by
  obtain rfl := Host.Outcome.next.inj h
  rfl

/-- The selectors that the consumer may read name no decoder register (43_consumer_port.md R173). -/
theorem statRegister_withDec (d : Dec) {sel : BitVec 4} (hsel : ¬ sel.toNat < 4) :
    statRegister { s with dec := d } sel = statRegister s sel := by
  unfold statRegister
  split
  case h_1 h | h_2 h | h_3 h | h_4 h => simp [h] at hsel
  all_goals rfl

theorem exec_stat_withDec (d : Dec) (sel : BitVec 4) (hport : s.port = .c) (h : exec (.stat sel) s = .next t) :
    exec (.stat sel) { s with dec := d } = .next { t with dec := d } := by
  by_cases hundef : sel = 7#4 ∨ sel = 15#4
  · rw [exec_stat_of_undefined (statRegister_of_undefined hundef)] at h ⊢
    exact commandError_withDec d h
  obtain ⟨h7, h15⟩ := not_or.mp hundef
  by_cases hsel : sel.toNat < 4
  · obtain ⟨v, hv⟩ := statRegister_of_defined (s := s) h7 h15
    obtain ⟨v', hv'⟩ := statRegister_of_defined (s := { s with dec := d }) h7 h15
    rw [exec_stat_of_producer_only hv hsel hport] at h
    rw [exec_stat_of_producer_only hv' hsel hport]
    exact commandError_withDec d h
  · obtain ⟨v, hv⟩ := statRegister_of_defined (s := s) h7 h15
    rw [exec_stat_of_answered hv fun hc => hsel hc.1] at h
    rw [exec_stat_of_answered ((statRegister_withDec d hsel).trans hv) fun hc => hsel hc.1]
    obtain rfl := Host.Outcome.next.inj h
    rfl

theorem exec_read_withDec (d : Dec) (off : Half) (hport : s.port = .c) (h : exec (.read off) s = .next t) :
    exec (.read off) { s with dec := d } = .next { t with dec := d } := by
  cases hh : s.arb.held with
  | none =>
    rw [exec_read_of_none off hport hh] at h
    rw [exec_read_of_none (s := { s with dec := d }) off hport hh]
    exact commandError_withDec d h
  | some j =>
    rw [exec_read_of_held off hport hh] at h
    rw [exec_read_of_held (s := { s with dec := d }) off hport hh]
    have hlen : slotAt { s with dec := d } j = slotAt s j := rfl
    have hmem : memRead { s with dec := d } j off.toNat = memRead s j off.toNat := rfl
    unfold readHeld at h ⊢
    rw [hlen, hmem]
    split at h
    next hr => rw [if_pos hr, commandError_withDec d h]
    next hr =>
      rw [if_neg hr]
      split at h
      next v hv =>
        obtain rfl := Host.Outcome.next.inj h
        rfl
      next => contradiction

/-- On port C a command gives the same next state from a state that differs in the decoder registers alone. -/
theorem exec_withDec (d : Dec) (hport : s.port = .c) (h : exec i s = .next t) :
    exec i { s with dec := d } = .next { t with dec := d } := by
  cases i with
  | nop =>
    obtain rfl := Host.Outcome.next.inj h
    rfl
  | byte b =>
    have hl : legalOn (.byte b) s.port = false := by rw [hport]; rfl
    rw [exec_of_not_legalOn hl] at h
    rw [exec_of_not_legalOn (s := { s with dec := d }) hl]
    exact commandError_withDec d h
  | take =>
    rw [exec_take_on_c hport] at h
    rw [exec_take_on_c (s := { s with dec := d }) hport, takeStep_withDec]
    obtain rfl := Host.Outcome.next.inj h
    rfl
  | read off => exact exec_read_withDec d off hport h
  | release =>
    cases hh : s.arb.held with
    | none =>
      rw [exec_release_of_none hport hh] at h
      rw [exec_release_of_none (s := { s with dec := d }) hport hh]
      exact commandError_withDec d h
    | some j =>
      rw [exec_release_of_held hport hh] at h
      rw [exec_release_of_held (s := { s with dec := d }) hport hh, releaseSlot_withDec]
      obtain rfl := Host.Outcome.next.inj h
      rfl
  | stat sel => exact exec_stat_withDec d sel hport h

end

/-! ## The obligations -/

/-- Settles O1, by the fields of a command's word. -/
theorem decodeOfEncodeIsInstruction : Obligations.DecodeOfEncodeIsInstruction := decode_encode

/-- Settles O2: an accepted word has zero in the zero field and is made of its other two fields. -/
theorem encodeOfDecodedIsWord : Obligations.EncodeOfDecodedIsWord := fun _ _ => encode_of_decode

/-- Settles O3: each word is the encoding of its command. -/
theorem writtenOutWordsDecode : Obligations.WrittenOutWordsDecode :=
  ⟨decode_encode .nop, decode_encode (.byte 0x41#8), decode_encode .take, decode_encode (.read 0x8002#16),
    decode_encode .release, decode_encode (.stat 9#4)⟩

/-- Settles O9: reset keeps the configuration it is given, and no command writes it. -/
theorem configurationNeverChanges : Obligations.ConfigurationNeverChanges := by
  intro s t h
  refine step_keeps (P := fun u => u.cfg = s.cfg) rfl h (fun r rest hr => ?_) fun port rest i u he => he.cfg
  obtain ⟨-, hcfg, -⟩ := resetOf_some s.cfg r hr
  exact hcfg

/-- Settles O5, by the step of a command word. -/
theorem stepRunsDecodedCommand : Obligations.StepRunsDecodedCommand := by
  intro s port w rest i hc hi hw
  rw [step_of_cmd hc hi, ← encode_of_decode hw, runWord_encode]
  rfl

/-- Settles O7: with nothing presented the fetch is idle. -/
theorem nothingHappensWithoutInput : Obligations.NothingHappensWithoutInput := by
  intro s hc hi
  simp [step, stepInput, fetch, hc, hi]

/-- Settles O21, by the port check (R94). -/
theorem wrongPortIsAnsweredErrContext : Obligations.WrongPortIsAnsweredErrContext := by
  refine fun s => ⟨fun hport b => ?_, fun hport i hi => ?_⟩
  · rw [exec_of_not_legalOn (i := .byte b) (by rw [hport]; rfl), commandError_of_port hport]
    rfl
  · refine exec_of_consumer_command_on_p ?_ hport
    rcases hi with rfl | rfl | ⟨off, rfl⟩ <;> rfl

/-- Settles O38: only an answer has a status other than `OK`, and its value is 0. -/
theorem refusedCommandsChangeNothing : Obligations.RefusedCommandsChangeNothing := by
  intro s t i r h hr hst
  obtain ⟨st, v, hrsp, hrefused⟩ := (effect_of_exec h).rsp
  obtain rfl := Option.some.inj (hrsp.symm.trans hr)
  rw [statusField_rspWord] at hst
  obtain ⟨rfl, rfl⟩ := hrefused fun hok => hst (by rw [hok]; rfl)
  refine ⟨rfl, rfl, ?_⟩
  rw [rspWord_toNat]
  simp

/-- Settles O18: every word is answered (`runWord_answers`), and the format is that of `rspWord`. -/
theorem everyWordGetsOneResponse : Obligations.EveryWordGetsOneResponse := by
  intro s port w rest hc hs hi
  obtain ⟨i, t, ht, he⟩ := runWord_answers (w := w) (fieldsInRange_accept hs port rest)
  obtain ⟨st, v, hrsp, hrefused⟩ := he.rsp
  have hv := v.isLt
  have hle := statusCode_toNat_le st
  rw [← step_of_cmd hc hi] at ht
  refine ⟨t, rspWord st v, ht, Exceptions.step_input_of_cmd hi ht, hrsp, ?_⟩
  rw [rspWord_toNat]
  refine ⟨by omega, by omega, fun hst => ?_⟩
  have hne : st ≠ .ok := fun hok => hst (by rw [(statusCode_eq_zero_iff st).mpr hok]; omega)
  obtain ⟨rfl, -⟩ := hrefused hne
  simp only [BitVec.toNat_ofNat]
  omega

/-- Settles O48: only a `BYTE` moves a counter, and it moves each by increments. -/
theorem countersSaturate : Obligations.CountersSaturate := by
  refine ⟨satInc_toNat, fun s t i h => ?_⟩
  cases effect_of_exec h with
  | answered st v hv => exact CntLe.refl _
  | took r hport hn hr => exact CntLe.refl _
  | released j hport hj => exact releaseSlot_cnt s j ▸ CntLe.refl s.cnt
  | received b hport => exact cntLe_byteStep s b

/-- Settles O52: a command on port C leaves the decoder registers (`exec_on_c_cases`), and runs alike whatever
they are. -/
theorem consumerCannotObserveDecoder : Obligations.ConsumerCannotObserveDecoder := by
  refine fun s t d i hport h => ⟨?_, exec_withDec d hport h⟩
  rcases exec_on_c_cases hport h with ⟨hold, st, v, rfl⟩ | ⟨j, -, -, rfl⟩
  · rfl
  · simp [releaseSlot]

end Sys2Proof.Proofs.Commands

/-! The invariant `Inv` (spec/10_state.md section 5): it holds at reset, every step keeps it, and a state that
meets it never stops. What holds of the slots is kept by each operation of the arbiter; the clause of R46, a
`Filling` slot at every instant, is broken in the middle of `PUBLISH` and made good by its `ENSURE_FILL`. -/

namespace Sys2Proof.Proofs.Invariant

open Sys2Proof.Machine Sys2Proof.Laws Sys2Proof.Proofs.BlockState Sys2Proof.Proofs.DecoderSteps
open Sys2Proof.Proofs.Arbiter Sys2Proof.Proofs.Configuration Sys2Proof.Proofs.Commands

section
variable {s t u : State} {b : Byte}

/-! ## Two slots -/

/-- There are two slots: what differs from the one is the other. -/
theorem eq_of_ne_of_ne {i j k : SlotIdx} (hi : i ≠ k) (hj : j ≠ k) : i = j := by
  cases i <;> cases j <;> cases k <;> simp_all

theorem filling_unique {i j : SlotIdx} (hone : AtMostOneFilling s) (hi : slotIs s i .filling = true)
    (hj : slotIs s j .filling = true) : i = j :=
  Option.some.inj ((fillIdx_of_filling s i hone hi).symm.trans (fillIdx_of_filling s j hone hj))

/-! ## What holds of the slots -/

/-- What holds of one slot: its payload memory is canonical and below `CAP`, so is its length, and what a `Ready`
slot shows was written. -/
structure SlotOk (cap : Nat) (x : Slot) : Prop where
  mem : Memory.wf x.mem
  below : Memory.below x.mem cap
  lengthCap : x.length.toNat ≤ cap
  readyWritten : x.state = .ready → Memory.written x.mem x.length.toNat

/-- `SlotInv` without R46, which the middle of a `BYTE` step breaks. -/
structure SlotCore (s : State) : Prop where
  slot : ∀ i, SlotOk s.cfg.cap (slotAt s i)
  absent : s.cfg.nslots ≠ 2 → s.slot1 = Slot.atReset .free
  oneFilling : AtMostOneFilling s
  heldReady : ∀ h, s.arb.held = some h → slotIs s h .ready = true
  oneReady : s.cfg.policy ≠ .swap → ¬ (slotIs s .zero .ready = true ∧ slotIs s .one .ready = true)

/-- R46 at every instant. -/
def FillsAlways (s : State) : Prop := s.cfg.nslots = 2 → s.cfg.policy ≠ .swap → fillIdx s ≠ none

theorem hasSlot_one_iff (c : Config) : hasSlot c .one = true ↔ c.nslots = 2 := by simp [hasSlot]

theorem core_of_slotInv (h : SlotInv s) : SlotCore s where
  slot i := by
    refine ⟨h.mem i, h.below i, h.lengthCap i, fun hr => ?_⟩
    by_cases hi : hasSlot s.cfg i = true
    · exact h.readyWritten i ((slotIs_iff s i _).mpr ⟨hi, hr⟩)
    · cases i with
      | zero => exact absurd rfl hi
      | one =>
        rw [hasSlot_one_iff] at hi
        simp [slotAt, h.absent hi, Slot.atReset] at hr
  absent := h.absent
  oneFilling := h.oneFilling
  heldReady := h.heldReady
  oneReady := h.oneReady

theorem slotInv_of_core (h : SlotCore s) (hfill : FillsAlways s) : SlotInv s where
  mem i := (h.slot i).mem
  below i := (h.slot i).below
  lengthCap i := (h.slot i).lengthCap
  absent := h.absent
  oneFilling := h.oneFilling
  heldReady := h.heldReady
  oneReady := h.oneReady
  twoSlots := hfill
  readyWritten i hi := (h.slot i).readyWritten ((slotIs_iff s i _).mp hi).2

theorem slotIs_congr (hcfg : t.cfg = s.cfg) (hslot : ∀ i, slotAt t i = slotAt s i) (i : SlotIdx)
    (st : SlotState) : slotIs t i st = slotIs s i st := by
  rw [slotIs, slotIs, hcfg, hslot]

theorem fillIdx_congr (hcfg : t.cfg = s.cfg) (hslot : ∀ i, slotAt t i = slotAt s i) :
    fillIdx t = fillIdx s := by
  rw [fillIdx, fillIdx, slotIs_congr hcfg hslot, slotIs_congr hcfg hslot]

/-- What holds of the slots depends on the configuration, the slots and the hold only. -/
theorem SlotCore.congr (h : SlotCore s) (hcfg : t.cfg = s.cfg) (hslot : ∀ i, slotAt t i = slotAt s i)
    (hheld : t.arb.held = s.arb.held) : SlotCore t := by
  have his := slotIs_congr hcfg hslot
  have hone : t.slot1 = s.slot1 := hslot .one
  obtain ⟨hok, habsent, hfilling, hready, hboth⟩ := h
  exact ⟨by simpa only [hcfg, hslot] using hok, by simpa only [hcfg, hone] using habsent,
    by simpa only [AtMostOneFilling, his] using hfilling, by simpa only [hheld, his] using hready,
    by simpa only [hcfg, his] using hboth⟩

/-- A slot outside the pool is slot 1 of a one-slot block. -/
theorem slot1_of_setSlot (i : SlotIdx) (x : Slot) (hi : hasSlot s.cfg i = true) (hn : s.cfg.nslots ≠ 2) :
    (setSlot s i x).slot1 = s.slot1 := by
  cases i with
  | zero => rfl
  | one => exact absurd ((hasSlot_one_iff _).mp hi) hn

/-- Writing a slot of the pool keeps what holds of the slots, if it holds of the new one: the written slot must
not be held unless it is `Ready`, and not be a second `Filling` or (without `SWAP`) a second `Ready` one. -/
theorem SlotCore.setSlot {i : SlotIdx} {x : Slot} (h : SlotCore s) (hi : hasSlot s.cfg i = true)
    (hx : SlotOk s.cfg.cap x) (hheld : s.arb.held = some i → x.state = .ready)
    (hfilling : x.state = .filling → ∀ j, j ≠ i → slotIs s j .filling = false)
    (hready : x.state = .ready → s.cfg.policy ≠ .swap → ∀ j, j ≠ i → slotIs s j .ready = false) :
    SlotCore (setSlot s i x) where
  slot j := by
    rw [setSlot_slotAt, setSlot_cfg]
    split
    · exact hx
    · exact h.slot j
  absent hn := by
    rw [setSlot_cfg] at hn
    rw [slot1_of_setSlot i x hi hn, h.absent hn]
  oneFilling := by
    rintro ⟨h0, h1⟩
    rw [setSlot_slotIs] at h0 h1
    refine h.oneFilling ⟨?_, ?_⟩ <;> cases i <;> simp_all
  heldReady j hj := by
    rw [setSlot_arb] at hj
    rw [setSlot_slotIs]
    split
    next heq =>
      subst heq
      simp [hi, hheld hj]
    next => exact h.heldReady j hj
  oneReady hp := by
    rw [setSlot_cfg] at hp
    rintro ⟨h0, h1⟩
    rw [setSlot_slotIs] at h0 h1
    refine h.oneReady hp ⟨?_, ?_⟩ <;> cases i <;> simp_all

/-! ### The operations -/

/-- A slot that becomes `Free` or `Filling` keeps what holds of it. -/
theorem SlotOk.withState {cap : Nat} {x : Slot} {st : SlotState} (h : SlotOk cap x) (hst : st ≠ .ready) :
    SlotOk cap { x with state := st } := ⟨h.mem, h.below, h.lengthCap, fun hr => absurd hr hst⟩

/-- `Free → Filling` and `Ready → Filling`: a slot becomes `Filling` when none is and it is not held. -/
theorem SlotCore.claim {i : SlotIdx} (h : SlotCore s) (hi : hasSlot s.cfg i = true) (hnone : fillIdx s = none)
    (hheld : s.arb.held ≠ some i) : SlotCore (setSlotState s i .filling) :=
  h.setSlot hi ((h.slot i).withState (by simp)) (fun he => absurd he hheld)
    (fun _ j _ => fillIdx_none s j hnone) (by simp)

/-- A slot that is not held may become `Free`. -/
theorem SlotCore.free {i : SlotIdx} (h : SlotCore s) (hi : hasSlot s.cfg i = true)
    (hheld : s.arb.held ≠ some i) : SlotCore (setSlotState s i .free) :=
  h.setSlot hi ((h.slot i).withState (by simp)) (fun he => absurd he hheld) (by simp) (by simp)

theorem markReady_eq (s : State) (f : SlotIdx) (n : Half) :
    markReady s f n = Machine.setSlot s f { slotAt s f with state := .ready, length := n } := by
  cases f <;> rfl

/-- `Filling → Ready`, for a length whose bytes are written, where the other slot may not be `Ready` too. -/
theorem SlotCore.markReady {f : SlotIdx} {n : Half} (h : SlotCore s) (hf : hasSlot s.cfg f = true)
    (hn : n.toNat ≤ s.cfg.cap) (hw : Memory.written (slotAt s f).mem n.toNat)
    (hother : s.cfg.policy ≠ .swap → ∀ j, j ≠ f → slotIs s j .ready = false) : SlotCore (markReady s f n) := by
  rw [markReady_eq]
  exact h.setSlot hf ⟨(h.slot f).mem, (h.slot f).below, hn, fun _ => hw⟩ (fun _ => rfl) (by simp)
    (fun _ => hother)

theorem write_keeps_written {m : Memory} {off n : Nat} {v : Byte} (h : Memory.written m n) :
    Memory.written (Memory.write m off v) n := by
  intro k hk
  rw [read_write]
  split
  · rfl
  · exact h k hk

theorem SlotCore.memWrite {f : SlotIdx} {off : Nat} (h : SlotCore s) (hf : slotIs s f .filling = true)
    (hoff : off < s.cfg.cap) (v : Byte) : SlotCore (memWrite s f off v) := by
  obtain ⟨hpool, hstate⟩ := (slotIs_iff s f _).mp hf
  obtain ⟨hm, hb, hl, hw⟩ := h.slot f
  refine h.setSlot hpool ⟨write_wf _ _ _ hm, write_below _ _ _ _ hb hoff, hl, fun hr => ?_⟩
    (fun hh => ?_) (fun _ j hj => ?_) fun hr => ?_
  · exact write_keeps_written (hw hr)
  · exact ((slotIs_iff s f _).mp (h.heldReady f hh)).2
  · rw [Bool.eq_false_iff]
    intro hfill
    exact hj (filling_unique h.oneFilling hfill hf)
  · simp [hstate] at hr

theorem not_held_of_not_ready {i : SlotIdx} {st : SlotState} (h : SlotCore s) (hi : slotIs s i st = true)
    (hst : st ≠ .ready) : s.arb.held ≠ some i :=
  fun hh => hst (slotIs_unique s i _ _ hi (h.heldReady i hh))

theorem SlotCore.ensureFill (h : SlotCore s) : SlotCore (ensureFill s) := by
  rcases ensureFill_cases s with ⟨he, -⟩ | ⟨i, hnone, hi, he⟩ <;> rw [he]
  · exact h
  · exact h.claim ((slotIs_iff s i _).mp hi).1 hnone (not_held_of_not_ready h hi (by simp))

/-- R46 holds after `ENSURE_FILL`: with no slot `Filling` both would be `Ready`. -/
theorem fillsAlways_ensureFill (h : SlotCore s) : FillsAlways (Machine.ensureFill s) := by
  intro h2 hp hnone
  rw [ensureFill_cfg] at h2 hp
  obtain ⟨-, hall⟩ := ensureFill_none s hnone
  exact h.oneReady hp ⟨hall .zero rfl, hall .one ((hasSlot_one_iff _).mpr h2)⟩

theorem SlotCore.acquire (h : SlotCore s) : SlotCore (acquireForFill s).st := by
  rcases acquire_cases s with ⟨f, -, he⟩ | ⟨-, he, -⟩ | ⟨r, hnone, -, hr, hheld, he⟩ <;> rw [he]
  · exact h
  · exact h
  · exact SlotCore.claim (s := countDrop s) (h.congr rfl (fun _ => rfl) rfl)
      ((slotIs_iff s r _).mp hr).1 hnone hheld

/-- `PUBLISH` of a `Filling` slot: the old frame is given up before the new one is `Ready`, unless `SWAP` lets
both stand. -/
theorem SlotCore.publishBranch {f : SlotIdx} {n : Half} (h : SlotCore s) (hf : slotIs s f .filling = true)
    (hn : n.toNat ≤ s.cfg.cap) (hw : Memory.written (slotAt s f).mem n.toNat) :
    SlotCore (publishBranch s f n).st := by
  have hpool := ((slotIs_iff s f _).mp hf).1
  rcases publishBranch_cases s f n with ⟨ho, he⟩ | ⟨o, -, hp, he⟩ | ⟨o, ho, -, hheld, he⟩ | ⟨o, -, -, -, he⟩ <;>
    rw [he]
  · exact h.markReady hpool hn hw fun _ j hj => otherReady_none s f j hpool ho hj
  · exact SlotCore.markReady (s := setOlder s o) (h.congr rfl (fun _ => rfl) rfl) hpool hn hw
      fun hns => absurd hp hns
  · obtain ⟨hready, hne, -⟩ := otherReady_some s f o ho
    have hfree := h.free ((slotIs_iff s o _).mp hready).1 hheld
    refine SlotCore.markReady (s := countDrop (setSlotState s o .free)) (hfree.congr rfl (fun _ => rfl) rfl)
      (by simpa using hpool) (by simpa using hn) (by simpa [hne] using hw) fun _ j hj => ?_
    have hjo : o = j := eq_of_ne_of_ne hne hj
    simp [hjo]
  · exact h.congr rfl (fun _ => rfl) rfl

theorem slotInv_publish {f : SlotIdx} {n : Half} (h : SlotCore s) (hf : slotIs s f .filling = true)
    (hn : n.toNat ≤ s.cfg.cap) (hw : Memory.written (slotAt s f).mem n.toNat) : SlotInv (publish s f n).st :=
  slotInv_of_core (h.publishBranch hf hn hw).ensureFill (fillsAlways_ensureFill (h.publishBranch hf hn hw))

/-- A `Ready` slot that becomes `Free` leaves the `Filling` slot what it was. -/
theorem fillIdx_free_of_ready {j : SlotIdx} (hj : slotIs s j .ready = true) :
    fillIdx (setSlotState s j .free) = fillIdx s := by
  have hnot : slotIs s j .filling = false :=
    Bool.eq_false_iff.mpr fun hf => by simpa using slotIs_unique s j _ _ hj hf
  cases j <;> simp [fillIdx, hnot]

/-- The hold may move to any `Ready` slot, or end. -/
theorem slotInv_setHeld {hold : Option SlotIdx} (h : SlotInv s)
    (hhold : ∀ r, hold = some r → slotIs s r .ready = true) : SlotInv (setHeld s hold) :=
  { h with heldReady := hhold }

theorem slotInv_congr (h : SlotInv s) (hcfg : t.cfg = s.cfg) (hslot : ∀ i, slotAt t i = slotAt s i)
    (hheld : t.arb.held = s.arb.held) : SlotInv t := by
  refine slotInv_of_core ((core_of_slotInv h).congr hcfg hslot hheld) fun h2 hp => ?_
  rw [hcfg] at h2 hp
  rw [fillIdx_congr hcfg hslot]
  exact h.twoSlots h2 hp

/-- `RELEASE`: the hold ends and its slot becomes `Free`. -/
theorem slotInv_releaseSlot {j : SlotIdx} (h : SlotInv s) (hj : s.arb.held = some j) :
    SlotInv (releaseSlot s j) := by
  have hready := h.heldReady j hj
  have hn : SlotInv (setHeld s none) := slotInv_setHeld h (by simp)
  have hfree : SlotInv (setSlotState (setHeld s none) j .free) :=
    slotInv_of_core ((core_of_slotInv hn).free ((slotIs_iff s j _).mp hready).1 (by simp)) fun h2 hp => by
      rw [fillIdx_free_of_ready (s := setHeld s none) hready]
      rw [setSlotState_cfg] at h2 hp
      exact h.twoSlots h2 hp
  exact slotInv_congr hfree (by simp [releaseSlot]) (fun i => by simp [releaseSlot]) (by simp [releaseSlot])

/-! ## What holds of the decoder registers -/

theorem decInv_cleared {c : Config} {ph : Phase} (h : ph = .waitData ∨ (ph = .waitStart ∧ c.useStart = true)) :
    DecInv c (clearedDec c ph) where
  lenCap := Nat.zero_le _
  ovf := by simp [clearedDec]
  idle hp := by rw [show ph = .waitStart from hp]
  noStart hu := by rcases h with rfl | ⟨-, hs⟩ <;> simp_all [clearedDec]
  noTrailer _ := by rcases h with rfl | ⟨rfl, -⟩ <;> simp [clearedDec]
  noslot := by simp [clearedDec]
  emptyCk _ := rfl
  rxZero _ := rfl
  rxHigh _ := rfl

theorem idlePhase_cases (c : Config) :
    idlePhase c = .waitData ∨ (idlePhase c = .waitStart ∧ c.useStart = true) := by
  cases h : c.useStart <;> simp [idlePhase, h]

theorem decInv_idle (c : Config) : DecInv c (clearedDec c (idlePhase c)) := decInv_cleared (idlePhase_cases c)

/-- Below the capacity the length register counts without wrapping. -/
theorem len_succ_toNat {c : Config} {n : Half} (hc : cfgOk c = true) (hl : n.toNat < c.cap) :
    (n + 1#16).toNat = n.toNat + 1 := by
  obtain ⟨-, hcap⟩ := cap_le_of_cfgOk hc
  rw [BitVec.toNat_add]
  simp only [BitVec.toNat_ofNat]
  omega

/-- The registers after an accepted byte (R126). -/
theorem decInv_accepted {c : Config} {d : Dec} (hc : cfgOk c = true) (h : DecInv c d) (hp : d.phase = .waitData)
    (ho : d.ovf = false) (hl : d.len.toNat < c.cap) (ck : Byte) (n : Bool) :
    DecInv c { d with len := d.len + 1#16, ck := ck, noslot := n } := by
  have hlen := len_succ_toNat hc hl
  exact
    { lenCap := hlen.trans_le hl
      ovf := by simp [ho]
      idle := by simp [hp]
      noStart := by simp [hp]
      noTrailer := by simp [hp]
      noslot := fun _ => by simp only [hlen]; omega
      emptyCk := fun h0 => by simp only [hlen] at h0; omega
      rxZero := h.rxZero
      rxHigh := h.rxHigh }

theorem rxHigh_toNat_mod (n : Nibble) : (rxHigh n).toNat % 16 = 0 := by
  rw [rxHigh_eq_append, ConsumerPort.toNat_append_eq_add]
  simp

/-- The transitions that touch no slot keep what holds of the decoder registers. -/
theorem decInv_of_quiet {d : Dec} {c : Cnt} {o : ByteOutcome} (hc : cfgOk u.cfg = true)
    (h : DecInv u.cfg u.dec) (hq : Quiet u b d c o) : DecInv u.cfg d := by
  cases hq with
  | ignored | discarded => exact h
  | begins | restartsData | restartsTrailer => exact decInv_cleared (.inl rfl)
  | endsOverflowed | mismatch | malformed => exact decInv_idle _
  | introduces hp hr hb ho hf =>
    have hrx : u.dec.rx = 0x00#8 := h.rxZero (by simp [hp])
    exact
      { lenCap := h.lenCap
        ovf := by simp [ho]
        idle := by simp
        noStart := by simp
        noTrailer := by simp [hf]
        noslot := h.noslot
        emptyCk := h.emptyCk
        rxZero := fun _ => hrx
        rxHigh := by simp }
  | overflows hp hr hb ho hl =>
    have hfull : u.dec.len.toNat = u.cfg.cap := Nat.le_antisymm h.lenCap (Nat.le_of_not_lt hl)
    exact
      { h with
        ovf := fun _ => ⟨hp, hfull⟩
        idle := by simp [hp] }
  | unstored hp hr hb ho hl hs => exact decInv_accepted hc h hp ho hl _ _
  | firstDigit n hp hx =>
    have hf : u.cfg.framing ≠ .delim := fun hf => (h.noTrailer hf).1 hp
    exact
      { lenCap := h.lenCap
        ovf := fun ho => by simpa [hp] using h.ovf ho
        idle := by simp
        noStart := by simp
        noTrailer := fun hd => absurd hd hf
        noslot := h.noslot
        emptyCk := h.emptyCk
        rxZero := by simp
        rxHigh := fun _ => rxHigh_toNat_mod n }

/-- The decoder registers after a `BYTE` step. -/
theorem decInv_byteStep (hc : cfgOk s.cfg = true) (h : DecInv s.cfg s.dec) (b : Byte) :
    DecInv s.cfg (byteStep s b).st.dec := by
  rcases byteStep_cases s b with ⟨d, c, o, hq, he⟩ | ⟨f, hp, -, -, ho, hl, -, -, he⟩ | ⟨-, he⟩ <;> rw [he]
  · simpa using decInv_of_quiet (by simpa using hc) (by simpa using h) hq
  · simpa using decInv_accepted hc h hp ho hl _ false
  · have hidle : (complete (ensureFill s)).st.dec = clearedDec s.cfg (idlePhase s.cfg) := by
      rcases complete_cases (ensureFill s) with ⟨-, he⟩ | ⟨f, -, -, he⟩ <;> simp [he]
    rw [hidle]
    exact decInv_idle _

end

end Sys2Proof.Proofs.Invariant

/-! What an attempt has accepted (spec/10_state.md R49 (c) and (g)): the bytes of `acceptedAfter` are in the
`Filling` slot. The clause `stored` of the invariant is this with the bytes forgotten, so one proof serves both;
with it every step keeps the invariant. -/

namespace Sys2Proof.Proofs.Attempt

open Sys2Proof.Machine Sys2Proof.Laws Sys2Proof.Proofs.BlockState Sys2Proof.Proofs.DecoderSteps
open Sys2Proof.Proofs.Arbiter Sys2Proof.Proofs.Commands Sys2Proof.Proofs.Invariant

/-! ## The bytes of an attempt -/

/-- `Tracks` without the checksum: the attempt has `acc.length` bytes, and, if it has a slot, these. -/
structure HoldsAttempt (s : State) (acc : List Byte) : Prop where
  len : s.dec.len.toNat = acc.length
  stored : acc ≠ [] → s.dec.noslot = false →
    ∃ f, fillIdx s = some f ∧ ∀ k (hk : k < acc.length), Memory.read (slotAt s f).mem k = some acc[k]

section
variable {s t u : State} {b : Byte} {acc : List Byte}

theorem tracks_iff : Tracks s acc ↔ HoldsAttempt s acc ∧ s.dec.ck = cksum s.cfg acc :=
  ⟨fun ⟨hlen, hck, hst⟩ => ⟨⟨hlen, hst⟩, hck⟩, fun ⟨⟨hlen, hst⟩, hck⟩ => ⟨hlen, hck, hst⟩⟩

theorem HoldsAttempt.attemptStored (h : HoldsAttempt s acc) : AttemptStored s := by
  intro hpos hn
  have hne : acc ≠ [] := fun hnil => by simp [h.len, hnil] at hpos
  obtain ⟨f, hf, hread⟩ := h.stored hne hn
  exact ⟨f, hf, fun k hk => by rw [hread k (h.len ▸ hk)]; rfl⟩

/-- The written bytes of a stored attempt are its bytes. -/
theorem exists_holdsAttempt (h : AttemptStored s) : ∃ acc, HoldsAttempt s acc := by
  by_cases hst : 0 < s.dec.len.toNat ∧ s.dec.noslot = false
  · obtain ⟨f, hf, hw⟩ := h hst.1 hst.2
    refine ⟨List.ofFn fun k : Fin s.dec.len.toNat => payloadByte s f k, by simp, fun _ _ =>
      ⟨f, hf, fun k hk => ?_⟩⟩
    rw [List.length_ofFn] at hk
    rw [List.getElem_ofFn, ConsumerPort.read_mem_eq_payloadByte (hw k hk)]
  · refine ⟨List.replicate s.dec.len.toNat 0x00#8, by simp, fun hne hn => absurd ⟨?_, hn⟩ hst⟩
    rw [Nat.pos_iff_ne_zero]
    intro h0
    simp [h0] at hne

theorem HoldsAttempt.nil (hlen : s.dec.len = 0x0000#16) : HoldsAttempt s [] :=
  ⟨by simp [hlen], fun hne => absurd rfl hne⟩

/-- What an attempt holds depends on its length, its slot and the memory of that slot. -/
theorem HoldsAttempt.congr (h : HoldsAttempt s acc) (hlen : t.dec.len = s.dec.len)
    (hn : t.dec.noslot = s.dec.noslot) (hfill : fillIdx t = fillIdx s)
    (hmem : ∀ i, (slotAt t i).mem = (slotAt s i).mem) : HoldsAttempt t acc := by
  obtain ⟨hl, hst⟩ := h
  exact ⟨by rw [hlen, hl], by simpa only [hn, hfill, hmem] using hst⟩

theorem HoldsAttempt.ensureFill (h : HoldsAttempt s acc) : HoldsAttempt (ensureFill s) acc := by
  refine ⟨by rw [ensureFill_dec, h.len], fun hne hn => ?_⟩
  rw [ensureFill_dec] at hn
  obtain ⟨f, hf, hread⟩ := h.stored hne hn
  rw [ensureFill_keeps_filling s f hf]
  exact ⟨f, hf, hread⟩

/-- A slot that is `Filling` is what `ACQUIRE_FOR_FILL` gives, and it changes nothing. -/
theorem acquire_of_fillIdx {f : SlotIdx} (h : fillIdx s = some f) :
    acquireForFill s = { st := s, slot := some f, lostOld := false } := by
  simp [acquireForFill, h]

/-- The slot that an attempt acquires holds its bytes already. -/
theorem HoldsAttempt.read_of_acquired {f : SlotIdx} (h : HoldsAttempt u acc) (hn : u.dec.noslot = false)
    (hf : (acquireForFill u).slot = some f) (k : Nat) (hk : k < acc.length) :
    Memory.read (slotAt u f).mem k = some acc[k] := by
  obtain ⟨g, hg, hread⟩ := h.stored (List.ne_nil_of_length_pos (Nat.zero_lt_of_lt hk)) hn
  rw [acquire_of_fillIdx hg] at hf
  obtain rfl := Option.some.inj hf
  exact hread k hk

/-! ## The accepted bytes by the transition table -/

@[simp] theorem acceptedAfter_ensureFill (s : State) (b : Byte) (acc : List Byte) :
    acceptedAfter (Machine.ensureFill s) b acc = acceptedAfter s b acc := by
  simp [acceptedAfter]

/-- A byte that completes a frame leaves nothing accepted. -/
theorem acceptedAfter_of_completes (hc : cfgOk s.cfg = true) (h : Completes s b) (acc : List Byte) :
    acceptedAfter s b acc = [] := by
  obtain ⟨hp, hf, rfl, -⟩ | ⟨hp, -⟩ := h
  · have hb : isBoundary s.cfg s.cfg.endByte = true := (isBoundary_iff _ _).mpr (.inl ⟨hf, rfl⟩)
    simp [acceptedAfter, hp, not_restarts_of_isBoundary hc hb, hb, hf]
  · simp [acceptedAfter, hp]

/-- A payload byte that fits is added. -/
theorem acceptedAfter_of_appended (hp : s.dec.phase = .waitData) (hr : restarts s b = false)
    (hb : isBoundary s.cfg b = false) (ho : s.dec.ovf = false) (hl : s.dec.len.toNat < s.cfg.cap)
    (acc : List Byte) : acceptedAfter s b acc = acc ++ [b] := by
  simp [acceptedAfter, hp, hr, hb, ho, hl]

/-- The decoder registers `d` after a byte are those of an attempt emptied, kept, or extended without a slot. -/
inductive AttemptChange (u : State) (b : Byte) (acc : List Byte) (d : Dec) : Prop where
  | emptied (ha : acceptedAfter u b acc = []) (hlen : d.len = 0x0000#16) (hck : d.ck = u.cfg.ckInit)
  | kept (ha : acceptedAfter u b acc = acc) (hlen : d.len = u.dec.len) (hck : d.ck = u.dec.ck)
      (hn : d.noslot = u.dec.noslot)
  | extended (ha : acceptedAfter u b acc = acc ++ [b]) (hroom : u.dec.len.toNat < u.cfg.cap)
      (hlen : d.len = u.dec.len + 1#16) (hck : d.ck = fold u.cfg.fold u.dec.ck b) (hn : d.noslot = true)

theorem attemptChange_of_quiet {d : Dec} {c : Cnt} {o : ByteOutcome} (h : DecInv u.cfg u.dec)
    (hq : Quiet u b d c o) (acc : List Byte) : AttemptChange u b acc d := by
  cases hq with
  | ignored hp hb =>
    rw [h.idle hp]
    exact .emptied (by simp [acceptedAfter, hp]) rfl rfl
  | begins hp hb => exact .emptied (by simp [acceptedAfter, hp]) rfl rfl
  | restartsData hp hr => exact .emptied (by simp [acceptedAfter, hp, hr]) rfl rfl
  | restartsTrailer hp hx hb | malformed hp hx hb =>
    refine .emptied ?_ rfl rfl
    rcases hp with hp | hp <;> simp [acceptedAfter, hp, isHex, hx]
  | endsOverflowed hp hr hb ho => exact .emptied (by simp [acceptedAfter, hp, hr, hb, ho]) rfl rfl
  | introduces hp hr hb ho hf => exact .kept (by simp [acceptedAfter, hp, hr, hb, ho, hf]) rfl rfl rfl
  | discarded hp hr hb ho => exact .kept (by simp [acceptedAfter, hp, hr, hb, ho]) rfl rfl rfl
  | overflows hp hr hb ho hl => exact .kept (by simp [acceptedAfter, hp, hr, hb, ho, hl]) rfl rfl rfl
  | unstored hp hr hb ho hl hs => exact .extended (acceptedAfter_of_appended hp hr hb ho hl acc) hl rfl rfl rfl
  | firstDigit n hp hx => exact .kept (by simp [acceptedAfter, hp, isHex, hx]) rfl rfl rfl
  | mismatch n hp hx hn => exact .emptied (by simp [acceptedAfter, hp]) rfl rfl

theorem HoldsAttempt.of_change {d : Dec} {c : Cnt} (hc : cfgOk u.cfg = true) (h : HoldsAttempt u acc)
    (ho : AttemptChange u b acc d) : HoldsAttempt { u with dec := d, cnt := c } (acceptedAfter u b acc) := by
  cases ho with
  | emptied ha hlen hck => exact ha ▸ .nil hlen
  | kept ha hlen hck hn => exact ha.symm ▸ h.congr hlen hn rfl fun _ => rfl
  | extended ha hroom hlen hck hn =>
    rw [ha]
    refine ⟨?_, fun _ hn' => by simp [hn] at hn'⟩
    rw [List.length_append, ← h.len, hlen, len_succ_toNat hc hroom]
    rfl

theorem cksum_append (c : Config) (acc : List Byte) (b : Byte) :
    cksum c (acc ++ [b]) = fold c.fold (cksum c acc) b := by
  simp [cksum]

theorem cksum_of_change {d : Dec} (hck : u.dec.ck = cksum u.cfg acc) (ho : AttemptChange u b acc d) :
    d.ck = cksum u.cfg (acceptedAfter u b acc) := by
  cases ho with
  | emptied ha hlen hck' =>
    rw [ha, hck']
    rfl
  | kept ha hlen hck' hn => rw [ha, hck', hck]
  | extended ha hroom hlen hck' hn => rw [ha, hck', hck, cksum_append]

/-! ## The stored byte -/

section
variable {f : SlotIdx}

/-- The slot that a stored byte goes to is the `Filling` slot afterwards. -/
theorem fillIdx_stored (h : AtMostOneFilling u) (hf : (acquireForFill u).slot = some f) (off : Nat) (v : Byte) :
    fillIdx (memWrite (acquireForFill u).st f off v) = some f :=
  fillIdx_of_filling _ f (oneFilling_of_imp (acquire_oneFilling h) fun i => by simp)
    (by simpa using acquire_filling u f hf)

theorem HoldsAttempt.store (hc : cfgOk u.cfg = true) (h : HoldsAttempt u acc) (hone : AtMostOneFilling u)
    (hn : u.dec.noslot = false) (hl : u.dec.len.toNat < u.cfg.cap) (hf : (acquireForFill u).slot = some f) :
    HoldsAttempt (acceptByte (memWrite (acquireForFill u).st f u.dec.len.toNat b) b false) (acc ++ [b]) := by
  refine ⟨?_, fun _ _ => ⟨f, fillIdx_stored hone hf _ b, fun k hk => ?_⟩⟩
  · simpa [← h.len] using len_succ_toNat hc hl
  · rw [List.length_append, List.length_singleton] at hk
    simp only [acceptByte_slotAt, memWrite_slotAt, if_true, acquire_mem, read_write, h.len]
    split
    next heq => simp [heq]
    next hne =>
      have hk' : k < acc.length := by omega
      rw [h.read_of_acquired hn hf k hk', List.getElem_append_left hk']

/-! ## A `BYTE` step -/

theorem holdsAttempt_byteStep (hs : Inv s) (h : HoldsAttempt s acc) (b : Byte) :
    HoldsAttempt (byteStep s b).st (acceptedAfter s b acc) := by
  have hc : cfgOk (Machine.ensureFill s).cfg = true := by rw [ensureFill_cfg]; exact hs.config
  have hu := h.ensureFill
  rw [← acceptedAfter_ensureFill]
  rcases byteStep_cases s b with ⟨d, c, o, hq, he⟩ | ⟨f, hp, hr, hb, ho, hl, hn, hf, he⟩ | ⟨hcomp, he⟩ <;> rw [he]
  · exact hu.of_change hc (attemptChange_of_quiet (by simpa using hs.dec) hq acc)
  · rw [acceptedAfter_ensureFill, acceptedAfter_of_appended hp hr hb ho hl]
    rw [← ensureFill_dec s] at hl hn ⊢
    rw [← ensureFill_cfg s] at hl
    exact hu.store hc (ensureFill_oneFilling s hs.slots.oneFilling) hn hl hf
  · rw [acceptedAfter_ensureFill, acceptedAfter_of_completes hs.config hcomp]
    refine .nil ?_
    rcases complete_cases (Machine.ensureFill s) with ⟨-, he⟩ | ⟨f, -, -, he⟩ <;> rw [he, goIdle_dec] <;> rfl

theorem cksum_byteStep (hs : Inv s) (hck : s.dec.ck = cksum s.cfg acc) (b : Byte) :
    (byteStep s b).st.dec.ck = cksum s.cfg (acceptedAfter s b acc) := by
  rcases byteStep_cases s b with ⟨d, c, o, hq, he⟩ | ⟨f, hp, hr, hb, ho, hl, -, -, he⟩ | ⟨hcomp, he⟩ <;> rw [he]
  · simpa using cksum_of_change (acc := acc) (by simpa using hck) (attemptChange_of_quiet (by simpa using hs.dec) hq acc)
  · simp [acceptedAfter_of_appended hp hr hb ho hl, hck, cksum_append]
  · rw [acceptedAfter_of_completes hs.config hcomp]
    rcases complete_cases (Machine.ensureFill s) with ⟨-, he⟩ | ⟨f, -, -, he⟩ <;> simp [he, clearedDec, cksum]

theorem tracks_byteStep (hs : Inv s) (h : Tracks s acc) (b : Byte) :
    Tracks (byteStep s b).st (acceptedAfter s b acc) := by
  obtain ⟨hh, hck⟩ := tracks_iff.mp h
  exact tracks_iff.mpr ⟨holdsAttempt_byteStep hs hh b, by rw [byteStep_cfg, cksum_byteStep hs hck b]⟩

/-- A completed frame is published from a slot where all its bytes are written. -/
theorem slotInv_complete (hcore : SlotCore u) (hfill : FillsAlways u) (hdec : DecInv u.cfg u.dec)
    (hst : AttemptStored u) : SlotInv (complete u).st := by
  rcases complete_cases u with ⟨-, he⟩ | ⟨f, hn, hf, he⟩ <;> rw [he]
  · exact slotInv_congr (slotInv_of_core hcore hfill) rfl (fun _ => rfl) rfl
  · obtain ⟨acc, hacc⟩ := exists_holdsAttempt hst
    have hw : Memory.written (slotAt (acquireForFill u).st f).mem u.dec.len.toNat := fun k hk => by
      rw [acquire_mem, hacc.read_of_acquired hn hf k (hacc.len ▸ hk)]
      rfl
    have hpub := slotInv_publish hcore.acquire (acquire_filling u f hf) (by simpa using hdec.lenCap) hw
    exact slotInv_congr hpub rfl (fun _ => rfl) rfl

theorem slotInv_byteStep (hs : Inv s) (b : Byte) : SlotInv (byteStep s b).st := by
  have hcore := (core_of_slotInv hs.slots).ensureFill
  have hfill := fillsAlways_ensureFill (core_of_slotInv hs.slots)
  rcases byteStep_cases s b with ⟨d, c, o, -, he⟩ | ⟨f, -, -, -, -, hl, -, hf, he⟩ | ⟨-, he⟩ <;> rw [he]
  · exact slotInv_congr (slotInv_of_core hcore hfill) rfl (fun _ => rfl) rfl
  · have hstore := hcore.acquire.memWrite (acquire_filling _ f hf) (by simpa using hl) b
    have hslots : SlotInv (memWrite (acquireForFill (Machine.ensureFill s)).st f s.dec.len.toNat b) :=
      slotInv_of_core hstore fun _ _ => by simp [fillIdx_stored hcore.oneFilling hf]
    exact slotInv_congr hslots rfl (fun _ => rfl) rfl
  · obtain ⟨acc, hacc⟩ := exists_holdsAttempt hs.stored
    exact slotInv_complete hcore hfill (by simpa using hs.dec) hacc.ensureFill.attemptStored

theorem inv_byteStep (hs : Inv s) (b : Byte) : Inv (byteStep s b).st := by
  obtain ⟨acc, hacc⟩ := exists_holdsAttempt hs.stored
  exact
    { config := by rw [byteStep_cfg]; exact hs.config
      slots := slotInv_byteStep hs b
      dec := by rw [byteStep_cfg]; exact decInv_byteStep hs.config hs.dec b
      stored := (holdsAttempt_byteStep hs hacc b).attemptStored }

end

/-! ## Every step -/

theorem inv_congr (h : Inv s) (hcfg : t.cfg = s.cfg) (hdec : t.dec = s.dec)
    (hslot : ∀ i, slotAt t i = slotAt s i) (hheld : t.arb.held = s.arb.held) : Inv t where
  config := hcfg ▸ h.config
  slots := slotInv_congr h.slots hcfg hslot hheld
  dec := by rw [hcfg, hdec]; exact h.dec
  stored := by
    obtain ⟨acc, hacc⟩ := exists_holdsAttempt h.stored
    have ht : HoldsAttempt t acc := hacc.congr (by rw [hdec]) (by rw [hdec]) (fillIdx_congr hcfg hslot)
      fun i => by rw [hslot]
    exact ht.attemptStored

/-- A `RELEASE` takes nothing from the attempt: the held slot is `Ready`. -/
theorem HoldsAttempt.release {j : SlotIdx} (h : HoldsAttempt s acc) (hj : slotIs s j .ready = true) :
    HoldsAttempt (releaseSlot s j) acc := by
  refine h.congr (by simp [releaseSlot]) (by simp [releaseSlot])
    (by simpa [releaseSlot] using fillIdx_free_of_ready hj) fun i => ?_
  obtain ⟨hmem, -⟩ := releaseSlot_slot s j i
  exact hmem

theorem inv_of_effect {i : Instr} (hs : Inv s) (h : Effect s i t) : Inv t := by
  cases h with
  | answered st v hv => exact inv_congr hs rfl rfl (fun _ => rfl) rfl
  | took r hport hn hr =>
    have hslots : SlotInv (setHeld s (some r)) := slotInv_setHeld hs.slots fun h hh => by
      obtain rfl := Option.some.inj hh
      exact hr
    exact ⟨hs.config, slotInv_congr hslots rfl (fun _ => rfl) rfl, hs.dec, hs.stored⟩
  | released j hport hj =>
    obtain ⟨acc, hacc⟩ := exists_holdsAttempt hs.stored
    obtain ⟨hdec, -, -, hcfg, -⟩ := releaseSlot_fields s j
    exact
      { config := by rw [hcfg]; exact hs.config
        slots := slotInv_releaseSlot hs.slots hj
        dec := by rw [hcfg, hdec]; exact hs.dec
        stored := (hacc.release (hs.slots.heldReady j hj)).attemptStored }
  | received b hport => exact inv_congr (inv_byteStep hs b) rfl rfl (fun _ => rfl) rfl

theorem slotOk_atReset (cap : Nat) {st : SlotState} (h : st ≠ .ready) : SlotOk cap (Slot.atReset st) :=
  ⟨wf_nil, below_nil cap, Nat.zero_le _, fun hr => absurd hr h⟩

theorem inv_reset {c : Config} {r : State} (h : State.resetOf c = some r) : Inv r := by
  obtain ⟨hc, rfl, hdec, h0, h1, harb, -⟩ := resetOf_some c r h
  have hzero : slotIs r .zero .filling = true := by simp [slotIs, slotAt, h0, Slot.atReset, hasSlot]
  have hcore : SlotCore r :=
    { slot := fun i => by
        cases i with
        | zero => rw [reset_slotAt_zero h]; exact slotOk_atReset _ (by simp)
        | one => rw [reset_slotAt_one h]; exact slotOk_atReset _ (by simp)
      absent := fun _ => h1
      oneFilling := reset_oneFilling h
      heldReady := by simp [harb, Arb.atReset]
      oneReady := by simp [reset_not_ready h] }
  have hfill : fillIdx r = some .zero := fillIdx_of_filling r .zero hcore.oneFilling hzero
  have hidle : r.dec = clearedDec r.cfg (idlePhase r.cfg) := hdec
  exact
    { config := hc
      slots := slotInv_of_core hcore fun _ _ => by simp [hfill]
      dec := hidle ▸ decInv_idle r.cfg
      stored := fun hpos => by simp [hidle, clearedDec] at hpos }

theorem inv_step (hs : Inv s) (h : step s = .next t) : Inv t :=
  step_keeps hs h
    (fun _ _ hr => inv_congr (inv_reset hr) rfl rfl (fun _ => rfl) rfl)
    fun port rest _ _ he =>
      inv_of_effect (s := accept s port rest) (inv_congr hs rfl rfl (fun _ => rfl) rfl) he

/-- In a good state the step gives a next state: the only read that could stop is in range. -/
theorem step_of_inv (hs : Inv s) : ∃ t, step s = .next t := by
  have hrun (w : Word) (port : Port) (rest : List Input) : ∃ t, runWord w (accept s port rest) = .next t := by
    obtain ⟨-, t, ht, -⟩ := runWord_answers (w := w) (fieldsInRange_accept (fieldsInRange_of_inv hs) port rest)
    exact ⟨t, ht⟩
  rw [step, if_pos hs.config]
  unfold stepInput fetch
  cases s.input with
  | nil => exact ⟨s, rfl⟩
  | cons i rest =>
    cases i with
    | cmd port w => exact hrun w port rest
    | both wp wc => exact hrun wp .p _
    | rst =>
      obtain ⟨r, hr⟩ := resetOf_isSome s.cfg hs.config
      exact ⟨_, by simp only [afterReset, hr]; rfl⟩

/-! ## A `Filling` slot (R46) -/

/-- When every slot is `Ready` none is `Filling`. -/
theorem fillIdx_of_everySlotReady (h : EverySlotReady s) : fillIdx s = none := by
  refine fillIdx_eq_none fun i => Bool.eq_false_iff.mpr fun hi => ?_
  have hr := h i ((slotIs_iff s i _).mp hi).1
  simpa using slotIs_unique s i _ _ hi hr

theorem everySlotReady_of_ensureFill (h : fillIdx (Machine.ensureFill s) = none) :
    EverySlotReady (Machine.ensureFill s) := by
  obtain ⟨he, hall⟩ := ensureFill_none s h
  rwa [he]

/-- A `BYTE` step ends with `ENSURE_FILL`, or after one with a slot that stays `Filling`. -/
theorem everySlotReady_of_byteStep (h : fillIdx (byteStep s b).st = none) : EverySlotReady (byteStep s b).st := by
  rcases byteStep_cases s b with ⟨d, c, o, -, he⟩ | ⟨f, -, -, -, -, -, -, hf, he⟩ | ⟨-, he⟩
  · rw [he] at h ⊢
    exact everySlotReady_of_ensureFill (s := s) h
  · have hfilling : slotIs (byteStep s b).st f .filling = true := by
      rw [he]
      simpa using acquire_filling _ f hf
    simp [fillIdx_none _ f h] at hfilling
  · rw [he] at h ⊢
    rcases complete_cases (Machine.ensureFill s) with ⟨-, he⟩ | ⟨f, -, -, he⟩ <;> rw [he] at h ⊢
    · exact everySlotReady_of_ensureFill (s := s) h
    · exact everySlotReady_of_ensureFill (s := (publishBranch _ f _).st) h

theorem exists_filling_of_fillIdx (h : fillIdx s ≠ none) : ∃ f, slotIs s f .filling = true := by
  obtain ⟨f, hf⟩ := Option.ne_none_iff_exists'.mp h
  exact ⟨f, fillIdx_some s f hf⟩

/-- With some slot not `Ready`, `ENSURE_FILL` leaves a slot `Filling`. -/
theorem fillIdx_ensureFill_ne_none (h : ¬ EverySlotReady s) : fillIdx (Machine.ensureFill s) ≠ none := by
  intro hn
  obtain ⟨-, hall⟩ := ensureFill_none s hn
  exact h hall

end

/-! ## The obligations -/

/-- Settles O42: at reset slot 0 is `Filling`, the other `Free`, and the decoder idle. -/
theorem invariantHoldsAtReset : Obligations.InvariantHoldsAtReset := fun _ _ => inv_reset

/-- Settles O43: reset restores it, and every effect of a command keeps it (`inv_of_effect`). -/
theorem invariantIsKeptByStep : Obligations.InvariantIsKeptByStep := fun _ _ => inv_step

/-- Settles O44, case by case over the next input. -/
theorem goodStateNeverStops : Obligations.GoodStateNeverStops := fun _ => step_of_inv

/-- Settles O46: the end of a `BYTE` step, `ENSURE_FILL`, and the clause `twoSlots` of the invariant. -/
theorem fillingSlotAfterEveryByte : Obligations.FillingSlotAfterEveryByte := by
  refine ⟨fun s t b _ hport h => ⟨fun hn => ?_, fillIdx_of_everySlotReady⟩, fun s hs hr => ?_,
    fun s t hs h h2 hp => ?_⟩
  · rcases execByte_next b s t h with ⟨-, rfl⟩ | ⟨hne, -⟩
    · exact everySlotReady_of_byteStep hn
    · exact absurd hport hne
  · exact ⟨exists_filling_of_fillIdx (fillIdx_ensureFill_ne_none hr),
      ensureFill_oneFilling s hs.slots.oneFilling⟩
  · have ht := inv_step hs h
    rw [← configurationNeverChanges s t h] at h2 hp
    exact ⟨exists_filling_of_fillIdx (ht.slots.twoSlots h2 hp), ht.slots.oneFilling⟩

/-- Settles O47: an empty attempt at reset, the transition table for a `BYTE` (`tracks_byteStep`), and on port C
only a `RELEASE`, of a slot that is not `Filling`, writes a slot. -/
theorem attemptTracksAcceptedBytes : Obligations.AttemptTracksAcceptedBytes := by
  refine ⟨fun c r hr => ?_, fun s t b acc hs hport h ht => ?_, fun s t i acc hs hport h ht => ?_⟩
  · obtain ⟨-, rfl, hdec, -⟩ := resetOf_some c r hr
    exact tracks_iff.mpr ⟨.nil (by rw [hdec]; rfl), by rw [hdec]; rfl⟩
  · rcases execByte_next b s t ht with ⟨-, rfl⟩ | ⟨hne, -⟩
    · have hb := tracks_byteStep hs h b
      exact ⟨hb.len, hb.ck, hb.stored⟩
    · exact absurd hport hne
  · obtain ⟨hh, hck⟩ := tracks_iff.mp h
    rcases exec_on_c_cases hport ht with ⟨hold, st, v, rfl⟩ | ⟨j, -, hj, rfl⟩
    · exact ⟨h.len, h.ck, h.stored⟩
    · obtain ⟨hdec, -, -, hcfg, -⟩ := releaseSlot_fields s j
      exact tracks_iff.mpr ⟨hh.release (hs.slots.heldReady j hj), by rw [hdec, hcfg, hck]⟩

end Sys2Proof.Proofs.Attempt

/-! What a `BYTE` leaves alone (spec/10_state.md R32, R36, R47, R48; 20_memory.md R61, R67): the frame of the
step, the `Ready` slots, the held slot, and with it the view of a held frame over any number of steps. -/

namespace Sys2Proof.Proofs.Frames

open Sys2Proof.Machine Sys2Proof.Laws Sys2Proof.Proofs.Encoding Sys2Proof.Proofs.BlockState
open Sys2Proof.Proofs.DecoderSteps Sys2Proof.Proofs.Arbiter Sys2Proof.Proofs.Exceptions
open Sys2Proof.Proofs.Commands Sys2Proof.Proofs.Invariant Sys2Proof.Proofs.Attempt

section
variable {s t u : State} {b : Byte} {i : Instr} {f j : SlotIdx}

/-! ## `Ready` slots (R47) -/

/-- A frame in slot `j` may be given up: under `OVERWRITE`, not held, and reported as lost. -/
def GaveUp (s : State) (j : SlotIdx) (lost : Bool) : Prop :=
  s.cfg.policy = .overwrite ∧ s.arb.held ≠ some j ∧ lost = true

theorem ne_of_slotIs {x y : SlotState} (hf : slotIs s f x = true) (hj : slotIs s j y = true) (h : x ≠ y) :
    f ≠ j := by
  rintro rfl
  exact h (slotIs_unique s f _ _ hf hj)

theorem ensureFill_slotAt_of_ready (hj : slotIs s j .ready = true) : slotAt (ensureFill s) j = slotAt s j := by
  rcases ensureFill_cases s with ⟨he, -⟩ | ⟨i, -, hi, he⟩ <;> rw [he]
  rw [setSlotState_slotAt, if_neg (ne_of_slotIs hi hj (by simp))]

theorem acquire_slotAt_of_ready (hj : slotIs s j .ready = true) :
    slotAt (acquireForFill s).st j = slotAt s j ∨ GaveUp s j (acquireForFill s).lostOld := by
  rcases acquire_cases s with ⟨f, -, he⟩ | ⟨-, he, -⟩ | ⟨r, -, hp, -, hheld, he⟩ <;> rw [he]
  · exact .inl rfl
  · exact .inl rfl
  · by_cases hr : r = j
    · subst hr
      exact .inr ⟨hp, hheld, rfl⟩
    · exact .inl (by simp [hr])

theorem publishBranch_slotAt_of_ready (n : Half) (hfj : f ≠ j) :
    slotAt (publishBranch s f n).st j = slotAt s j ∨ GaveUp s j (publishBranch s f n).lostOld := by
  rcases publishBranch_cases s f n with ⟨-, he⟩ | ⟨o, -, -, he⟩ | ⟨o, -, hp, hheld, he⟩ | ⟨o, -, -, -, he⟩ <;>
    rw [he]
  · exact .inl (by simp [hfj])
  · exact .inl (by simp [hfj])
  · by_cases ho : o = j
    · subst ho
      exact .inr ⟨hp, hheld, rfl⟩
    · exact .inl (by simp [hfj, ho])
  · exact .inl rfl

theorem publish_slotAt_of_ready (n : Half) (hfj : f ≠ j) (hj : slotIs s j .ready = true) :
    slotAt (publish s f n).st j = slotAt s j ∨ GaveUp s j (publish s f n).lostOld := by
  rcases publishBranch_slotAt_of_ready n hfj with hkeep | hgave
  · have hready : slotIs (publishBranch s f n).st j .ready = true := by
      have hcfg : (publishBranch s f n).st.cfg = s.cfg := by rw [← ensureFill_cfg]; exact publish_cfg s f n
      rwa [slotIs, hcfg, hkeep]
    exact .inl ((ensureFill_slotAt_of_ready hready).trans hkeep)
  · exact .inr hgave

/-- A slot that `ACQUIRE_FOR_FILL` leaves `Ready` is not the one it gives. -/
theorem acquired_ne_of_ready (hf : (acquireForFill s).slot = some f) (hj : slotIs s j .ready = true)
    (hkeep : slotAt (acquireForFill s).st j = slotAt s j) :
    f ≠ j ∧ slotIs (acquireForFill s).st j .ready = true := by
  have hready : slotIs (acquireForFill s).st j .ready = true := by rwa [slotIs, acquire_cfg, hkeep]
  exact ⟨ne_of_slotIs (acquire_filling s f hf) hready (by simp), hready⟩

theorem complete_slotAt_of_ready (hj : slotIs s j .ready = true) :
    slotAt (complete s).st j = slotAt s j ∨ GaveUp s j (complete s).rep.lostOld := by
  rcases complete_cases s with ⟨-, he⟩ | ⟨f, -, hf, he⟩ <;> rw [he]
  · exact .inl rfl
  · rcases acquire_slotAt_of_ready hj with hkeep | ⟨hp, hheld, hlost⟩
    · obtain ⟨hne, hready⟩ := acquired_ne_of_ready hf hj hkeep
      rcases publish_slotAt_of_ready s.dec.len hne hready with hpub | ⟨hp, hheld, hlost⟩
      · exact .inl (hpub.trans hkeep)
      · exact .inr ⟨by simpa using hp, by simpa using hheld, by simp [hlost]⟩
    · exact .inr ⟨hp, hheld, by simp [hlost]⟩

/-- A `BYTE` step leaves a `Ready` slot as it is, or gives its frame up. -/
theorem byteStep_slotAt_of_ready (b : Byte) (hj : slotIs s j .ready = true) :
    slotAt (byteStep s b).st j = slotAt s j ∨ GaveUp s j (byteStep s b).rep.lostOld := by
  have hu : slotIs (ensureFill s) j .ready = true := by rwa [ensureFill_ready]
  have hgave {lost : Bool} : GaveUp (ensureFill s) j lost → GaveUp s j lost := by simp [GaveUp]
  rw [← ensureFill_slotAt_of_ready hj]
  rcases byteStep_cases s b with ⟨d, c, o, -, he⟩ | ⟨f, -, -, -, -, -, -, hf, he⟩ | ⟨-, he⟩ <;> rw [he]
  · exact .inl rfl
  · refine (acquire_slotAt_of_ready hu).imp (fun hkeep => ?_) hgave
    obtain ⟨hne, -⟩ := acquired_ne_of_ready hf hu hkeep
    rw [acceptByte_slotAt, memWrite_slotAt, if_neg hne, hkeep]
  · exact (complete_slotAt_of_ready hu).imp_right hgave

/-- Bit 4 of the response is the report's `lost_old` (R97). -/
theorem rspWord_saysLostOld_iff (r : Report) : saysLostOld (rspWord .ok (reportValue r)) ↔ r.lostOld = true := by
  obtain ⟨o, p, l⟩ := r
  unfold saysLostOld
  cases o <;> cases p <;> cases l <;> decide

/-! ## The held slot (R36) -/

/-- Every command leaves the hold and the held slot, but a `RELEASE` on port C. -/
theorem held_of_effect {h : SlotIdx} (hs : Inv s) (hh : s.arb.held = some h) (he : Effect s i t)
    (hi : i = .release → s.port ≠ .c) : slotAt t h = slotAt s h ∧ t.arb.held = some h := by
  cases he with
  | answered st v hv => exact ⟨rfl, hh⟩
  | took r hport hn hr => simp [hn] at hh
  | released j hport hj => exact absurd hport (hi rfl)
  | received b hport =>
    refine ⟨?_, by simpa using hh⟩
    rcases byteStep_slotAt_of_ready b (hs.slots.heldReady h hh) with hkeep | ⟨-, hne, -⟩
    · exact hkeep
    · exact absurd hh hne

/-- A step whose inputs neither release nor reset leaves the hold and the held slot, and such inputs. -/
theorem held_of_step {h : SlotIdx} (hs : Inv s) (hh : s.arb.held = some h) (hk : ∀ i ∈ s.input, keepsHold i)
    (ht : step s = .next t) :
    t.arb.held = some h ∧ slotAt t h = slotAt s h ∧ ∀ i ∈ t.input, keepsHold i := by
  obtain ⟨-, ⟨-, rfl⟩ | ⟨rest, hi, -⟩ | ⟨port, w, rest, hhead, hrun, hrest⟩⟩ := step_cases s t ht
  · exact ⟨hh, rfl, hk⟩
  · exact absurd (hk .rst (by simp [hi])) id
  · have hw : w = encode .release → port ≠ .c := by
      rintro rfl rfl
      rcases hhead with hcmd | ⟨wc, -, hp⟩
      · exact hk _ (List.mem_of_mem_head? hcmd) rfl
      · simp at hp
    have hkrest : ∀ i ∈ rest, keepsHold i := by
      rcases hrest with hi | ⟨wc, l, hi, rfl⟩
      · exact fun x hx => hk x (by simp [hi, hx])
      · have hwc : keepsHold (.cmd .c wc) := hk (.both w wc) (by simp [hi])
        exact List.forall_mem_cons.mpr ⟨hwc, fun x hx => hk x (by simp [hi, hx])⟩
    rcases hrun with ⟨e, -, rfl⟩ | ⟨i, hdec, hexec⟩
    · exact ⟨hh, rfl, hkrest⟩
    · have hacc : Inv (accept s port rest) := inv_congr hs rfl rfl (fun _ => rfl) rfl
      obtain ⟨hslot, hheld⟩ := held_of_effect hacc hh (effect_of_exec hexec) fun hrel =>
        hw (by rw [← hrel, encode_of_decode hdec])
      rw [exec_input hexec]
      exact ⟨hheld, hslot, hkrest⟩

theorem run_succ_of_step {k : Nat} (h : step s = .next t) : core.run (k + 1) s = core.run k t := by
  have hstep : core.step s = .next t := h
  simp only [Host.Core.run, hstep]

/-! ## Slots that become `Free`, or leave the pool (R32) -/

theorem ensureFill_frees_none (h : (slotAt (ensureFill s) j).state = .free) : (slotAt s j).state = .free := by
  rcases ensureFill_cases s with ⟨he, -⟩ | ⟨i, -, -, he⟩ <;> rw [he] at h
  · exact h
  · rw [setSlotState_slotAt] at h
    split at h
    · simp at h
    · exact h

theorem acquire_frees_none (h : (slotAt (acquireForFill s).st j).state = .free) : (slotAt s j).state = .free := by
  rcases acquire_cases s with ⟨f, -, he⟩ | ⟨-, he, -⟩ | ⟨r, -, -, -, -, he⟩ <;> rw [he] at h
  · exact h
  · exact h
  · rw [setSlotState_slotAt] at h
    split at h
    · simp at h
    · exact h

/-- With none `Filling`, `ENSURE_FILL` claims the only `Free` slot. -/
theorem ensureFill_of_only_free {o : SlotIdx} (hn : fillIdx s = none) (hf : slotIs s f .free = false)
    (ho : slotIs s o .free = true) : ensureFill s = setSlotState s o .filling := by
  rcases ensureFill_cases s with ⟨-, hfill | hnone⟩ | ⟨i, -, hi, he⟩
  · exact absurd hn hfill
  · simp [hnone o] at ho
  · have hne (j : SlotIdx) (hj : slotIs s j .free = true) : j ≠ f := by
      rintro rfl
      simp [hf] at hj
    rw [he, eq_of_ne_of_ne (hne i hi) (hne o ho)]

/-- Replacing an old frame (R156, `OVERWRITE`): the new frame is `Ready`, and the slot of the old one, `Free` for
a moment, is claimed. -/
theorem ensureFill_of_replaced {o : SlotIdx} (n : Half) (hf : slotIs s f .filling = true)
    (ho : otherReady s f = some o) :
    ensureFill (markReady (countDrop (setSlotState s o .free)) f n)
      = setSlotState (markReady (countDrop (setSlotState s o .free)) f n) o .filling := by
  obtain ⟨hready, hne, -⟩ := otherReady_some s f o ho
  obtain ⟨hpool, -⟩ := (slotIs_iff s f _).mp hf
  obtain ⟨hpoolo, -⟩ := (slotIs_iff s o _).mp hready
  refine ensureFill_of_only_free (f := f) (fillIdx_eq_none fun i => ?_) ?_ ?_
  · by_cases hi : i = f
    · subst hi
      simp
    · obtain rfl := eq_of_ne_of_ne hi hne
      simp
  · simp
  · simp [hne.symm, hpoolo]

theorem markReady_frees_none {n : Half} (h : (slotAt (markReady s f n) j).state = .free) :
    (slotAt s j).state = .free := by
  rw [markReady_slotAt] at h
  split at h
  · simp at h
  · exact h

theorem publish_frees_none (n : Half) (hf : slotIs s f .filling = true)
    (h : (slotAt (publish s f n).st j).state = .free) : (slotAt s j).state = .free := by
  unfold publish at h
  rcases publishBranch_cases s f n with ⟨-, he⟩ | ⟨o, -, -, he⟩ | ⟨o, ho, -, -, he⟩ | ⟨o, -, -, -, he⟩ <;>
    rw [he] at h
  · exact markReady_frees_none (ensureFill_frees_none h)
  · exact markReady_frees_none (s := setOlder s o) (ensureFill_frees_none h)
  · simp only [ensureFill_of_replaced n hf ho, setSlotState_slotAt] at h
    split at h
    · simp at h
    next hoj => simpa [hoj] using markReady_frees_none h
  · exact ensureFill_frees_none (s := countDrop s) h

/-- A `BYTE` step makes no slot `Free`. -/
theorem byteStep_frees_none (h : (slotAt (byteStep s b).st j).state = .free) : (slotAt s j).state = .free := by
  apply ensureFill_frees_none
  rcases byteStep_cases s b with ⟨d, c, o, -, he⟩ | ⟨f, -, -, -, -, -, -, -, he⟩ | ⟨-, he⟩ <;> rw [he] at h
  · exact h
  · refine acquire_frees_none ?_
    rw [acceptByte_slotAt, memWrite_slotAt] at h
    split at h
    next heq => exact heq ▸ h
    next => exact h
  · rcases complete_cases (ensureFill s) with ⟨-, he⟩ | ⟨f, -, hf, he⟩ <;> rw [he] at h
    · exact h
    · exact acquire_frees_none (publish_frees_none _ (acquire_filling _ f hf) h)

/-- A slot outside the pool is what it was at reset. -/
theorem slotAt_of_absent (hs : Inv s) (hj : hasSlot s.cfg j = false) : slotAt s j = Slot.atReset .free := by
  cases j with
  | zero => simp [hasSlot] at hj
  | one => exact hs.slots.absent (by simpa [hasSlot] using hj)

/-! ## The frame of a `BYTE` (20_memory.md R61, R67) -/

theorem markReady_length {n : Half} (hf : hasSlot s.cfg f = true)
    (h : (slotAt (markReady s f n) j).length ≠ (slotAt s j).length) : slotIs (markReady s f n) j .ready = true := by
  rw [markReady_slotAt] at h
  split at h
  next heq =>
    subst heq
    simp [hf]
  next => exact absurd rfl h

theorem publishBranch_length (n : Half) (hf : hasSlot s.cfg f = true)
    (h : (slotAt (publishBranch s f n).st j).length ≠ (slotAt s j).length) :
    slotIs (publishBranch s f n).st j .ready = true := by
  rcases publishBranch_cases s f n with ⟨-, he⟩ | ⟨o, -, -, he⟩ | ⟨o, -, -, -, he⟩ | ⟨o, -, -, -, he⟩ <;>
    rw [he] at h ⊢
  · exact markReady_length hf h
  · exact markReady_length (s := setOlder s o) hf h
  · have hlen : (slotAt (countDrop (setSlotState s o .free)) j).length = (slotAt s j).length := by
      rw [countDrop_slotAt, setSlotState_slotAt]
      split
      next heq => rw [heq]
      next => rfl
    rw [← hlen] at h
    exact markReady_length (s := countDrop (setSlotState s o .free)) (by simpa using hf) h
  · exact absurd rfl h

/-- A slot whose length a `BYTE` step writes is `Ready` (R48). -/
theorem byteStep_length (h : (slotAt (byteStep s b).st j).length ≠ (slotAt s j).length) :
    slotIs (byteStep s b).st j .ready = true := by
  rw [← ensureFill_length s j] at h
  rcases byteStep_cases s b with ⟨d, c, o, -, he⟩ | ⟨f, -, -, -, -, -, -, -, he⟩ | ⟨-, he⟩ <;> rw [he] at h ⊢
  · exact absurd rfl h
  · rw [acceptByte_slotAt, memWrite_slotAt] at h
    split at h
    next heq => exact absurd (by rw [← heq, acquire_length]) h
    next => exact absurd (acquire_length _ j) h
  · rcases complete_cases (ensureFill s) with ⟨-, he⟩ | ⟨f, -, hf, he⟩ <;> rw [he] at h ⊢
    · exact absurd rfl h
    · have hpool := ((slotIs_iff _ f _).mp (acquire_filling _ f hf)).1
      rw [← acquire_length (ensureFill s) j] at h
      rw [goIdle_slotIs, publish, ensureFill_ready]
      exact publishBranch_length _ hpool (by simpa [publish] using h)

theorem byteStep_older (s : State) (b : Byte) (hp : s.cfg.policy ≠ .swap) :
    (byteStep s b).st.arb.older = s.arb.older := by
  rcases byteStep_cases s b with ⟨d, c, o, -, he⟩ | ⟨f, -, -, -, -, -, -, -, he⟩ | ⟨-, he⟩ <;> rw [he]
  · simp
  · simp
  · rcases complete_cases (ensureFill s) with ⟨-, he⟩ | ⟨f, -, -, he⟩ <;> rw [he]
    · simp
    · rw [goIdle_arb, publish_older _ _ _ (by simpa using hp)]
      simp

theorem payloadByte_congr {off : Nat} (h : (slotAt t j).mem = (slotAt s j).mem) :
    payloadByte t j off = payloadByte s j off := by
  rw [payloadByte, payloadByte, h]

theorem storeLocation_eq_some_iff {off : Nat} :
    storeLocation s b = some (f, off) ↔
      s.port = .p ∧ s.dec.phase = .waitData ∧ restarts s b = false ∧ isBoundary s.cfg b = false
        ∧ s.dec.ovf = false ∧ s.dec.len.toNat < s.cfg.cap ∧ s.dec.noslot = false
        ∧ (acquireForFill (ensureFill s)).slot = some f ∧ s.dec.len.toNat = off := by
  simp only [storeLocation, storesByte, Option.ite_none_right_eq_some, Bool.and_eq_true, Bool.not_eq_true',
    beq_iff_eq, decide_eq_true_eq, Option.map_eq_some_iff, Prod.mk.injEq, and_assoc]
  simp

/-- A byte of payload memory changes only at the location the step stores to. -/
theorem byteStep_payloadByte {off : Nat} (hport : s.port = .p) (h : storeLocation s b ≠ some (j, off)) :
    payloadByte (byteStep s b).st j off = payloadByte s j off := by
  rcases byteStep_cases s b with ⟨d, c, o, -, he⟩ | ⟨f, hp, hr, hb, ho, hl, hn, hf, he⟩ | ⟨-, he⟩ <;> rw [he]
  · exact payloadByte_congr (ensureFill_mem s j)
  · have hloc : storeLocation s b = some (f, s.dec.len.toNat) :=
      storeLocation_eq_some_iff.mpr ⟨hport, hp, hr, hb, ho, hl, hn, hf, rfl⟩
    by_cases hfj : f = j
    · subst hfj
      have hoff : off ≠ s.dec.len.toNat := fun heq => h (heq ▸ hloc)
      simp [payloadByte, read_write_other _ _ _ _ hoff]
    · exact payloadByte_congr (by simp [hfj])
  · refine payloadByte_congr ?_
    rcases complete_cases (ensureFill s) with ⟨-, he⟩ | ⟨f, -, -, he⟩ <;> simp [he]

end

/-! ## The obligations -/

/-- Settles O39: on port P neither a hold begins nor ends, and a held slot is never given up. -/
theorem heldSlotIsUntouchedByProducer : Obligations.HeldSlotIsUntouchedByProducer :=
  fun _ _ _ _ hs hport hh h => held_of_effect hs hh (effect_of_exec h) fun _ => by simp [hport]

/-- Settles O58, by induction on the number of steps: each keeps the invariant, the hold and the held slot. -/
theorem heldFrameIsStableUntilRelease : Obligations.HeldFrameIsStableUntilRelease := by
  intro k
  induction k with
  | zero => exact fun s h _ hh _ => ⟨s, rfl, hh, rfl⟩
  | succ k ih =>
    intro s h hs hh hk
    obtain ⟨u, hu⟩ := step_of_inv hs
    obtain ⟨hheld, hslot, hku⟩ := held_of_step hs hh hk hu
    obtain ⟨t, ht, hheldt, hslott⟩ := ih u h (inv_step hs hu) hheld hku
    exact ⟨t, (run_succ_of_step hu).trans ht, hheldt, hslott.trans hslot⟩

/-- Settles O40: a `Ready` slot is left or given up (`byteStep_slotAt_of_ready`), and a lost frame is counted. -/
theorem readySlotsAreImmutable : Obligations.ReadySlotsAreImmutable := by
  intro s t b j r hs h hr hj
  rcases execByte_next b s t h with ⟨-, rfl⟩ | ⟨-, rfl⟩
  · obtain rfl := Option.some.inj hr
    refine (byteStep_slotAt_of_ready b hj).imp_right fun ⟨hp, hheld, hlost⟩ => ?_
    obtain ⟨-, hdrop, -⟩ := byteStep_counts b hs
    exact ⟨hp, hheld, (rspWord_saysLostOld_iff _).mpr hlost, hdrop (by simp [losesFrame, hlost])⟩
  · exact .inl rfl

/-- Settles O41: no operation of the step frees a slot for good, a `Ready` slot is given up under `OVERWRITE`
alone, and the invariant fixes a slot outside the pool. -/
theorem byteMovesSlotsLegally : Obligations.ByteMovesSlotsLegally := by
  intro s t b j hs h
  have he := effect_of_exec h
  have ht := inv_of_effect hs he
  refine ⟨fun hfree => ?_, fun hj hp => ?_, fun hj => ?_⟩
  · rcases execByte_next b s t h with ⟨-, rfl⟩ | ⟨-, rfl⟩
    · exact byteStep_frees_none hfree
    · exact hfree
  · rcases execByte_next b s t h with ⟨-, rfl⟩ | ⟨-, rfl⟩
    · rcases byteStep_slotAt_of_ready b hj with hkeep | ⟨hover, -⟩
      · rwa [respond_slotIs, slotIs, byteStep_cfg, hkeep]
      · exact absurd hover hp
    · exact hj
  · rw [slotAt_of_absent hs hj, slotAt_of_absent ht (by rw [he.cfg, hj])]

/-- Settles O36: the frame lemmas of a `BYTE` step, and what `exec_byte_of_stored` writes. -/
theorem byteChangesOnlyItsLocation : Obligations.ByteChangesOnlyItsLocation := by
  intro s t b h
  have he := effect_of_exec h
  rcases execByte_next b s t h with ⟨hport, rfl⟩ | ⟨hport, rfl⟩
  · refine ⟨he.cfg, by simp, by simp, by simp, byteStep_older s b, fun i => byteStep_length,
      fun i off => byteStep_payloadByte hport, fun i off hloc => ?_⟩
    obtain ⟨-, hp, hr, hb, ho, hl, hn, hf, rfl⟩ := storeLocation_eq_some_iff.mp hloc
    have hstored := exec_byte_of_stored (b := b) hport (by simpa using hp) (by simpa using hr)
      (by simpa using hb) (by simpa using ho) (by simpa using hl) (by simpa using hn) hf
    rw [Host.Outcome.next.inj (h.symm.trans hstored)]
    refine ⟨hl, (payloadByte_congr (s := memWrite (acquireForFill (ensureFill s)).st i s.dec.len.toNat b)
      (by rw [ensureFill_dec]; rfl)).trans ?_⟩
    simp [payloadByte]
  · refine ⟨rfl, rfl, rfl, rfl, fun _ => rfl, fun i hi => absurd rfl hi, fun i off _ => rfl,
      fun i off hloc => ?_⟩
    exact absurd (storeLocation_eq_some_iff.mp hloc).1 hport

end Sys2Proof.Proofs.Frames

/-! What a `BYTE` does (spec/41_decoder.md R123 to R131; spec/42_arbiter.md R152 to R156): the transitions that
touch no slot, a byte that completes a frame, and what `ACQUIRE_FOR_FILL` and `PUBLISH` give under each policy. -/

namespace Sys2Proof.Proofs.Producer

open Sys2Proof.Machine Sys2Proof.Laws Sys2Proof.Proofs.BlockState Sys2Proof.Proofs.DecoderSteps
open Sys2Proof.Proofs.Arbiter Sys2Proof.Proofs.Configuration Sys2Proof.Proofs.Commands
open Sys2Proof.Proofs.Invariant
open Sys2Proof.Proofs.Attempt Sys2Proof.Proofs.Frames

section
variable {s t u : State} {b : Byte} {f o : SlotIdx}

/-! ## Byte classes in a well-formed configuration (R7) -/

/-- R7 (5): a start delimiter in use is not the boundary byte. -/
theorem not_isBoundary_of_isStart (hc : cfgOk s.cfg = true) (h : isStart s.cfg b = true) :
    isBoundary s.cfg b = false := by
  rw [Bool.eq_false_iff]
  intro hb
  have hr : restarts { s with dec := { s.dec with ovf := false } } b = false := not_restarts_of_isBoundary hc hb
  simp [restarts, h] at hr

theorem eq_startByte_of_isStart {c : Config} (h : isStart c b = true) : b = c.startByte := by
  simp only [isStart, Bool.and_eq_true, beq_iff_eq] at h
  exact h.2

/-- In the trailer the framing is by checksum (R22). -/
theorem framing_of_trailer {c : Config} {d : Dec} (h : DecInv c d)
    (hp : d.phase = .waitChecksumHi ∨ d.phase = .waitChecksumLo) : c.framing = .cksum := by
  cases hf : c.framing with
  | cksum => rfl
  | delim =>
    obtain ⟨hhi, hlo⟩ := h.noTrailer hf
    exact absurd hp (not_or.mpr ⟨hhi, hlo⟩)

/-- The second digit as the low nibble (R114): the widening is an append to a zero nibble. -/
theorem rxLow_eq_append (rx : Byte) (n : Nibble) : rxLow rx n = rx ||| (0x0#4 ++ n) := by
  have hwide : n.setWidth 8 = 0x0#4 ++ n := by
    apply BitVec.eq_of_toNat_eq
    rw [ConsumerPort.toNat_append_eq_add, BitVec.toNat_setWidth_of_le (by decide)]
    simp
  rw [rxLow, hwide]

/-! ## `ACQUIRE_FOR_FILL` (R152) -/

/-- Inside a `BYTE` step it gives no slot exactly when all are `Ready` and none may be reclaimed. -/
theorem acquire_none_iff :
    (acquireForFill (ensureFill s)).slot = none ↔
      EverySlotReady s ∧ (s.cfg.policy = .overwrite → ∀ i, slotIs s i .ready = true → s.arb.held = some i) := by
  constructor
  · intro h
    rcases acquire_cases (ensureFill s) with ⟨f, -, he⟩ | ⟨hn, -, hall⟩ | ⟨r, -, -, -, -, he⟩
    · simp [he] at h
    · exact ⟨(ensureFill_none s hn).2, by simpa using hall⟩
    · simp [he] at h
  · rintro ⟨hevery, hall⟩
    have hn : fillIdx (ensureFill s) = none :=
      fillIdx_of_everySlotReady fun i hi => by simpa using hevery i (by simpa using hi)
    rcases acquire_cases (ensureFill s) with ⟨f, hf, -⟩ | ⟨-, he, -⟩ | ⟨r, -, hp, hr, hheld, -⟩
    · simp [hf] at hn
    · rw [he]
    · exact absurd (hall (by simpa using hp) r (by simpa using hr)) (by simpa using hheld)

/-- With a slot `Filling` a `BYTE` step acquires it, and neither `ENSURE_FILL` nor the acquire changes a thing. -/
theorem acquire_of_filling (hone : AtMostOneFilling s) (hf : slotIs s f .filling = true) :
    ensureFill s = s ∧ acquireForFill s = { st := s, slot := some f, lostOld := false } :=
  ⟨ensureFill_of_filling hf, acquire_of_fillIdx (fillIdx_of_filling s f hone hf)⟩

/-! ## `PUBLISH` (R156), one equation per branch -/

/-- A `Ready` slot beside a `Filling` one is the other slot of two. -/
theorem otherReady_of_ready (hf : slotIs s f .filling = true) (ho : slotIs s o .ready = true) :
    otherReady s f = some o := by
  have hne : f ≠ o := ne_of_slotIs hf ho (by simp)
  have h2 : s.cfg.nslots = 2 := by
    have hpool := ((slotIs_iff s f _).mp hf).1
    have hpoolo := ((slotIs_iff s o _).mp ho).1
    cases f <;> cases o <;> simp_all [hasSlot]
  cases f <;> cases o <;> simp_all [otherReady, otherSlot]

theorem otherReady_of_readyOut (h : readyOut s = false) (f : SlotIdx) : otherReady s f = none := by
  cases ho : otherReady s f with
  | none => rfl
  | some o =>
    obtain ⟨hready, -⟩ := otherReady_some s f o ho
    rw [(readyOut_iff s).mpr ⟨o, hready⟩] at h
    contradiction

theorem publish_of_no_other (n : Half) (h : otherReady s f = none) :
    publish s f n = { st := ensureFill (markReady s f n), pub := .published, lostOld := false } := by
  simp [publish, publishBranch, h]

/-- Two frames stand under `SWAP`: no slot is left to claim. -/
theorem publish_of_swap (n : Half) (hf : slotIs s f .filling = true) (ho : slotIs s o .ready = true)
    (hp : s.cfg.policy = .swap) :
    publish s f n = { st := markReady (setOlder s o) f n, pub := .published, lostOld := false } := by
  have hne : f ≠ o := ne_of_slotIs hf ho (by simp)
  have hnone : ensureFill (markReady (setOlder s o) f n) = markReady (setOlder s o) f n := by
    refine ensureFill_of_none_free fun i => ?_
    by_cases hi : f = i
    · subst hi
      simp
    · obtain rfl := eq_of_ne_of_ne hne.symm (Ne.symm hi)
      simpa [slotIs, hi] using fun hpool => by simp [((slotIs_iff s o _).mp ho).2]
  simp [publish, publishBranch, otherReady_of_ready hf ho, hp, hnone]

/-- Under `OVERWRITE` the new frame replaces one that is not held, whose slot is claimed. -/
theorem publish_of_replaced (n : Half) (hf : slotIs s f .filling = true) (ho : slotIs s o .ready = true)
    (hp : s.cfg.policy = .overwrite) (hheld : s.arb.held ≠ some o) :
    publish s f n
      = { st := setSlotState (markReady (countDrop (setSlotState s o .free)) f n) o .filling
          pub := .published
          lostOld := true } := by
  have hother := otherReady_of_ready hf ho
  simp [publish, publishBranch, hother, hp, hheld, ensureFill_of_replaced n hf hother]

/-- Otherwise the new frame is dropped, and its slot stays `Filling`. -/
theorem publish_of_dropped (n : Half) (hf : slotIs s f .filling = true) (ho : slotIs s o .ready = true)
    (hp : s.cfg.policy = .drop ∨ (s.cfg.policy = .overwrite ∧ s.arb.held = some o)) :
    publish s f n = { st := countDrop s, pub := .dropped, lostOld := false } := by
  have hkeep : ensureFill (countDrop s) = countDrop s := ensureFill_of_filling (s := countDrop s) hf
  rcases hp with hp | ⟨hp, hheld⟩
  · simp [publish, publishBranch, otherReady_of_ready hf ho, hp, hkeep]
  · simp [publish, publishBranch, otherReady_of_ready hf ho, hp, hheld, hkeep]

/-- With no other frame the slot of the new one becomes `Ready` as it is. -/
theorem slotAt_ensureFill_markReady (hf : hasSlot s.cfg f = true) (n : Half) :
    slotAt (ensureFill (markReady s f n)) f = { slotAt s f with state := .ready, length := n } := by
  rw [ensureFill_slotAt_of_ready (by simp [hf])]
  simp

/-- The `Free` slot beside the published one is claimed. -/
theorem ensureFill_markReady_of_free (n : Half) (hf : slotIs s f .filling = true) (ho : slotIs s o .free = true) :
    ensureFill (markReady s f n) = setSlotState (markReady s f n) o .filling := by
  have hne : f ≠ o := ne_of_slotIs hf ho (by simp)
  refine ensureFill_of_only_free (f := f) (fillIdx_eq_none fun i => ?_) (by simp) (by simp [hne, ho])
  by_cases hi : f = i
  · subst hi
    simp
  · obtain rfl := eq_of_ne_of_ne hne.symm (Ne.symm hi)
    rw [markReady_slotIs, if_neg hne, Bool.eq_false_iff]
    exact fun hfill => by simpa using slotIs_unique s o _ _ ho hfill

/-! ## A completed frame (R128) -/

theorem bytePhase_of_completes (hc : cfgOk u.cfg = true) (h : Completes u b) : bytePhase u b = complete u := by
  obtain ⟨hp, hf, rfl, ho⟩ | ⟨hp, n, hx, he⟩ := h
  · have hb : isBoundary u.cfg u.cfg.endByte = true := (isBoundary_iff _ _).mpr (.inl ⟨hf, rfl⟩)
    simp [bytePhase_of_waitData hp, byteWaitData, not_restarts_of_isBoundary hc hb, hb, byteBoundary, ho, hf]
  · simp only [bytePhase, hp, byteWaitLo, hx, if_pos he]
    exact complete_withDec _ _ rfl rfl

theorem exec_byte_of_completes (hc : cfgOk s.cfg = true) (hport : s.port = .p) (h : Completes s b) :
    exec (.byte b) s
      = .next (respond (complete (ensureFill s)).st .ok (reportValue (complete (ensureFill s)).rep)) :=
  exec_byte_of_bytePhase hport (bytePhase_of_completes (by rwa [ensureFill_cfg]) ((ensureFill_completes s b).mpr h))

/-- The answer to a byte that ends an attempt. -/
theorem respond_goIdle (hport : u.port = .p) (st : Status) (v : Half) :
    respond (goIdle u) st v = { u with dec := idleDec u.cfg, rsp := some ⟨.p, rspWord st v⟩ } :=
  respond_of_port (s := goIdle u) hport st v

theorem complete_of_no_slot (h : u.dec.noslot = true ∨ (acquireForFill u).slot = none) :
    complete u = { st := goIdle (countDrop u)
                   rep := { outcome := .complete, pub := .dropped, lostOld := false } } := by
  rcases complete_cases u with ⟨-, he⟩ | ⟨f, hn, hf, -⟩
  · exact he
  · simp [hn, hf] at h

theorem complete_of_slot (hn : u.dec.noslot = false) (hf : (acquireForFill u).slot = some f) :
    complete u = { st := goIdle (publish (acquireForFill u).st f u.dec.len).st
                   rep := { outcome := .complete
                            pub := (publish (acquireForFill u).st f u.dec.len).pub
                            lostOld := (acquireForFill u).lostOld
                              || (publish (acquireForFill u).st f u.dec.len).lostOld } } := by
  simp [complete, hn, hf]

/-- A frame completed in the slot that is `Filling` goes to `PUBLISH` as it is. -/
theorem exec_byte_of_completed (hs : Inv s) (hport : s.port = .p) (h : Completes s b)
    (hn : s.dec.noslot = false) (hf : slotIs s f .filling = true) :
    exec (.byte b) s
      = .next (respond (goIdle (publish s f s.dec.len).st) .ok (reportValue
          { outcome := .complete
            pub := (publish s f s.dec.len).pub
            lostOld := (publish s f s.dec.len).lostOld })) := by
  obtain ⟨hensure, hacq⟩ := acquire_of_filling hs.slots.oneFilling hf
  rw [exec_byte_of_completes hs.config hport h, hensure, complete_of_slot hn (by rw [hacq])]
  simp [hacq]

/-! ## The report (R97) -/

/-- The reports that a `BYTE` step of a good state can give. -/
def reports : List Report :=
  [Report.only .none, Report.only .resync, Report.only .overflow,
    { outcome := .none, pub := .nopub, lostOld := true },
    { outcome := .complete, pub := .published, lostOld := false },
    { outcome := .complete, pub := .published, lostOld := true },
    { outcome := .complete, pub := .dropped, lostOld := false }]

/-- `PUBLISH` publishes, or drops and loses nothing else. -/
theorem publish_report (s : State) (f : SlotIdx) (n : Half) :
    (publish s f n).pub = .published ∨ ((publish s f n).pub = .dropped ∧ (publish s f n).lostOld = false) := by
  unfold publish
  rcases publishBranch_cases s f n with ⟨-, he⟩ | ⟨o, -, -, he⟩ | ⟨o, -, -, -, he⟩ | ⟨o, -, -, -, he⟩ <;> simp [he]

theorem published_mem_reports (lost : Bool) :
    ({ outcome := .complete, pub := .published, lostOld := lost } : Report) ∈ reports := by
  cases lost <;> decide

theorem dropped_mem_reports :
    ({ outcome := .complete, pub := .dropped, lostOld := false } : Report) ∈ reports := by decide

/-- A step that reclaimed a frame drops none (R49 (b)). -/
theorem complete_report
    (hone : u.cfg.policy ≠ .swap → ¬ (slotIs u .zero .ready = true ∧ slotIs u .one .ready = true)) :
    (complete u).rep ∈ reports := by
  rcases complete_cases u with ⟨-, he⟩ | ⟨f, -, hf, he⟩ <;> rw [he]
  · exact dropped_mem_reports
  · rcases publish_report (acquireForFill u).st f u.dec.len with hp | ⟨hp, hl⟩
    · rw [hp]
      exact published_mem_reports _
    · have hlost : (acquireForFill u).lostOld = false := by
        rw [Bool.eq_false_iff]
        intro hlost
        obtain ⟨hpub, -⟩ := publish_of_no_otherReady u.dec.len (otherReady_of_reclaimed hone hf hlost)
        simp [hpub] at hp
      rw [hp, hl, hlost]
      exact dropped_mem_reports

theorem only_mem_reports {oc : ByteOutcome} (h : oc ≠ .complete) : Report.only oc ∈ reports := by
  cases oc with
  | complete => contradiction
  | none | resync | overflow => decide

theorem byteStep_report (hs : Inv s) (b : Byte) : (byteStep s b).rep ∈ reports := by
  rcases byteStep_cases s b with ⟨d, c, oc, hq, he⟩ | ⟨f, -, -, -, -, -, -, -, he⟩ | ⟨-, he⟩ <;> rw [he]
  · obtain ⟨-, ho, -⟩ := Quiet.facts hq
    exact only_mem_reports ho
  · change ({ outcome := .none, pub := .nopub, lostOld := _ } : Report) ∈ reports
    cases (acquireForFill (ensureFill s)).lostOld <;> decide
  · exact complete_report (by simpa using hs.slots.oneReady)

/-- The values of the reports are the seven of R97, and `pub` is set exactly when a frame completes. -/
theorem reportValue_of_mem_reports :
    ∀ r ∈ reports,
      reportValue r ∈ [0x0000#16, 0x0010#16, 0x0002#16, 0x0003#16, 0x0005#16, 0x0015#16, 0x0009#16]
        ∧ ((reportValue r).toNat / 4 % 4 ≠ 0 ↔ (reportValue r).toNat % 4 = 1) := by
  decide

/-! ## One slot -/

/-- With the only slot `Ready` there is nothing to claim and nothing `Filling`. -/
theorem oneSlot_ready (h1 : s.cfg.nslots = 1) (h0 : s.slot0.state = .ready) :
    ensureFill s = s ∧ fillIdx s = none ∧ slotIs s .zero .ready = true ∧ ∀ st, slotIs s .one st = false := by
  have hone : ∀ st, slotIs s .one st = false := fun st => by simp [slotIs, hasSlot, h1]
  have hzero : ∀ st, slotIs s .zero st = (SlotState.ready == st) := fun st => by simp [slotIs, hasSlot, slotAt, h0]
  refine ⟨ensureFill_of_none_free fun i => ?_, fillIdx_eq_none fun i => ?_, by simp [hzero], hone⟩
  · cases i <;> simp [hzero, hone]
  · cases i <;> simp [hzero, hone]

/-- Before the first accepted byte an attempt is neither overflowed nor without a slot, and its checksum is
`CK_INIT`. -/
theorem decInv_of_empty {c : Config} {d : Dec} (hc : cfgOk c = true) (h : DecInv c d) (hl : d.len = 0x0000#16) :
    d.ovf = false ∧ d.noslot = false ∧ d.ck = c.ckInit ∧ d.len.toNat < c.cap := by
  obtain ⟨hcap, -⟩ := cap_le_of_cfgOk hc
  have hl0 : d.len.toNat = 0 := by rw [hl]; rfl
  refine ⟨Bool.eq_false_iff.mpr fun ho => ?_, Bool.eq_false_iff.mpr fun hn => ?_, h.emptyCk hl0, by omega⟩
  · obtain ⟨-, hfull⟩ := h.ovf ho
    omega
  · have := h.noslot hn
    omega

end

/-! ## The obligations -/

/-- Settles O20: `BYTE` runs on port P, and a good state's step gives one of the listed reports. -/
theorem byteIsAlwaysAnsweredOk : Obligations.ByteIsAlwaysAnsweredOk := by
  intro s b hport
  exact ⟨_, _, exec_byte_of_bytePhase hport rfl, by rw [respond_rsp, ← byteStep, byteStep_port, hport]; rfl,
    fun hs => reportValue_of_mem_reports _ (byteStep_report hs b)⟩

/-- Settles O23: in `WaitData` by `restarts`, in the trailer because a start delimiter is no hex digit. -/
theorem startDelimiterRestartsTheAttempt : Obligations.StartDelimiterRestartsTheAttempt := by
  intro s b hs hport hphase hstart hovf
  rw [← ensureFill_cfg s]
  cases hp : s.dec.phase with
  | waitStart => exact absurd hp hphase
  | waitData =>
    have hr : restarts s b = true := by
      simpa only [restarts, hstart, Bool.true_and, Bool.not_eq_true', Bool.and_eq_false_iff, beq_eq_false_iff_ne,
        not_and_or, Bool.not_eq_true] using hovf
    exact exec_byte_of_quiet hport (.restartsData (by rwa [ensureFill_dec]) (by rwa [ensureFill_restarts]))
  | waitChecksumHi | waitChecksumLo =>
    have htrailer : s.dec.phase = .waitChecksumHi ∨ s.dec.phase = .waitChecksumLo := by simp [hp]
    obtain rfl := eq_startByte_of_isStart hstart
    have hx := hexVal_startByte hs.config (framing_of_trailer hs.dec htrailer)
    exact exec_byte_of_quiet hport
      (.restartsTrailer (by rwa [ensureFill_dec]) (by rwa [ensureFill_cfg]) (by rw [ensureFill_cfg]))

/-- Settles O25: under `BOUNDARY_ONLY` it does not restart, and it is not the boundary byte. -/
theorem boundaryOnlyDiscardsStart : Obligations.BoundaryOnlyDiscardsStart := by
  intro s b hc hport hp ho hres hstart
  have hr : restarts s b = false := by simp [restarts, ho, hres]
  have hb := not_isBoundary_of_isStart hc hstart
  exact exec_byte_of_quiet hport
    (.discarded (by rwa [ensureFill_dec]) (by rwa [ensureFill_restarts]) (by rwa [ensureFill_cfg])
      (by rwa [ensureFill_dec]))

/-- Settles O27: under checksum framing the introducer is the boundary byte. -/
theorem introducerOpensTheTrailer : Obligations.IntroducerOpensTheTrailer := by
  intro s hc hport hp ho hf
  have hb : isBoundary s.cfg s.cfg.introByte = true := (isBoundary_iff _ _).mpr (.inr ⟨hf, rfl⟩)
  have hr := not_restarts_of_isBoundary hc hb
  rw [← ensureFill_dec s] at hp ho ⊢
  exact exec_byte_of_quiet hport
    (.introduces hp (by rwa [ensureFill_restarts]) (by rwa [ensureFill_cfg]) ho (by rwa [ensureFill_cfg]))

/-- Settles O29: the three transitions of `WaitChecksumLo` that complete no frame. -/
theorem secondTrailerCharacterWithoutMatch : Obligations.SecondTrailerCharacterWithoutMatch := by
  intro s b hport hp
  rw [← ensureFill_dec s] at hp
  rw [← ensureFill_cfg s, ← ensureFill_dec s, ← ensureFill_cnt s]
  refine ⟨fun n hx hne => ?_, fun hx hb => ?_, fun hx hb => ?_⟩
  · rw [← rxLow_eq_append] at hne
    exact exec_byte_of_quiet hport (.mismatch n hp hx hne)
  · exact exec_byte_of_quiet hport (.restartsTrailer (.inr hp) hx hb)
  · exact exec_byte_of_quiet hport (.malformed (.inr hp) hx hb)

/-- Settles O30: the two cases of `COMPLETE`. -/
theorem completedFrameIsPublishedOrDropped : Obligations.CompletedFrameIsPublishedOrDropped := by
  intro s b hc hport h
  rw [exec_byte_of_completes hc hport h]
  refine ⟨fun hno => ?_, fun f hn hf => ?_⟩
  · rw [complete_of_no_slot (by simpa using hno), respond_goIdle (by simpa using hport), ← ensureFill_cfg s,
      ← ensureFill_cnt s]
    dsimp only
    rfl
  · have hcfg : (publish (acquireForFill (ensureFill s)).st f s.dec.len).st.cfg = s.cfg := by simp
    rw [complete_of_slot (by simpa using hn) hf, respond_goIdle (by simpa using hport), ensureFill_dec, ← hcfg]
    rfl

/-- Settles O32: `acquire_none_iff`, and the slot given is `Filling`. -/
theorem acquireGivesNoneOnlyWhenAllReady : Obligations.AcquireGivesNoneOnlyWhenAllReady :=
  fun s _ => ⟨acquire_none_iff, fun f => acquire_filling (ensureFill s) f⟩

/-- Settles O33: the acquire of the first byte reclaims the slot (a stored byte) or gives none (`Quiet`). -/
theorem oneSlotReclaimAtFirstPayloadByte : Obligations.OneSlotReclaimAtFirstPayloadByte := by
  intro s b hs hport h1 h0 hp hl hpay
  obtain ⟨hensure, hnone, hzero, hone⟩ := oneSlot_ready h1 h0
  obtain ⟨hr, hb⟩ := not_delimiter_of_isPayload hpay
  obtain ⟨ho, hn, hck, hroom⟩ := decInv_of_empty hs.config hs.dec hl
  refine ⟨fun hover hheld => ?_, fun hkeep => ?_⟩
  · have hacq : acquireForFill s
        = { st := setSlotState (countDrop s) .zero .filling, slot := some .zero, lostOld := true } := by
      rcases acquire_cases s with ⟨f, hf, -⟩ | ⟨-, -, hall⟩ | ⟨r, -, -, hready, -, he⟩
      · simp [hnone] at hf
      · simpa [hheld] using hall hover .zero hzero
      · cases r with
        | zero => exact he
        | one => simp [hone] at hready
    rw [exec_byte_of_stored (f := .zero) hport (by rwa [hensure]) (by rwa [hensure]) (by rwa [hensure])
      (by rwa [hensure]) (by rwa [hensure]) (by rwa [hensure]) (by rw [hensure, hacq]), hensure, hacq, hl, hck]
    dsimp only
    rfl
  · have hslot : (acquireForFill s).slot = none := by
      have hiff := acquire_none_iff (s := s)
      rw [hensure] at hiff
      refine hiff.mpr ⟨fun i hi => ?_, fun hover i hi => ?_⟩
      · cases i with
        | zero => exact hzero
        | one => simp [hasSlot, h1] at hi
      · rcases hkeep with hdrop | hheld
        · simp [hdrop] at hover
        · cases i with
          | zero => exact hheld
          | one => simp [hone] at hi
    rw [exec_byte_of_quiet hport (b := b) (.unstored (by rwa [hensure]) (by rwa [hensure]) (by rwa [hensure])
      (by rwa [hensure]) (by rwa [hensure]) (by rw [hensure]; exact .inr hslot)), hensure, hl, hck]
    rfl

/-- Settles O34: the three branches of `PUBLISH` beside a `Ready` slot. -/
theorem twoSlotCompletionFollowsPolicy : Obligations.TwoSlotCompletionFollowsPolicy := by
  intro s b f o hs hport h hn hf ho
  have hne : f ≠ o := ne_of_slotIs hf ho (by simp)
  refine ⟨_, exec_byte_of_completed hs hport h hn hf, by rw [respond_dec, goIdle_dec, publish_cfg]; rfl,
    fun hp => ?_, fun hp hheld => ?_, fun hp => ?_⟩
  · rw [publish_of_dropped _ hf ho hp]
    exact ⟨rfl, rfl, rfl, rfl, by simp [hport]; rfl⟩
  · rw [publish_of_replaced _ hf ho hp hheld]
    exact ⟨by simp [hne.symm], by simp [hne], by simp, by simp, by simp [hport]; rfl⟩
  · rw [publish_of_swap _ hf ho hp]
    exact ⟨by simp, by simp [hne], by simp, by simp, by simp [hport]; rfl⟩

/-- Settles O35: the branch of `PUBLISH` beside no `Ready` slot, and the claim of the slot that is left. -/
theorem completionWithNoReadyFrameIsPublished : Obligations.CompletionWithNoReadyFrameIsPublished := by
  intro s b f hs hport h hn hf hready
  have hpool := ((slotIs_iff s f _).mp hf).1
  refine ⟨_, exec_byte_of_completed hs hport h hn hf, by rw [respond_dec, goIdle_dec, publish_cfg]; rfl, ?_⟩
  rw [publish_of_no_other _ (otherReady_of_readyOut hready f)]
  refine ⟨by simp, by simp, slotAt_ensureFill_markReady hpool _, fun o ho h2 => ?_, by simp [hport]; rfl⟩
  have hpoolo : hasSlot s.cfg o = true := by cases o <;> simp [hasSlot, h2]
  have hfree : slotIs s o .free = true := by
    rcases slotIs_cases s o hpoolo with hfree | hfilling | hrdy
    · exact hfree
    · exact absurd (filling_unique hs.slots.oneFilling hfilling hf) ho
    · rw [(readyOut_iff s).mpr ⟨o, hrdy⟩] at hready
      contradiction
  simp [ensureFill_markReady_of_free _ hf hfree, ho.symm]

end Sys2Proof.Proofs.Producer

/-! The statements about the outputs (spec/60_exceptions.md R199, R200) and the reset input
(70_reset_and_hazards.md R215). -/

namespace Sys2Proof.Proofs.Outputs

open Sys2Proof.Machine Sys2Proof.Laws Sys2Proof.Proofs.Encoding Sys2Proof.Proofs.BlockState
open Sys2Proof.Proofs.Arbiter Sys2Proof.Proofs.ConsumerPort Sys2Proof.Proofs.Commands
open Sys2Proof.Proofs.Invariant Sys2Proof.Proofs.Attempt

section
variable {s : State}

/-! ## `ready` and `TAKE` (R199) -/

theorem readyOut_eq_false_iff : readyOut s = false ↔ ∀ i, slotIs s i .ready = false := by
  rw [← Bool.not_eq_true, readyOut_iff]
  simp

/-- On port C a `TAKE` answers `OK` with a slot `Ready`, and `EMPTY` with none: a held slot is `Ready`. -/
theorem takeStep_rsp (hs : Inv s) :
    (readyOut s = true ∧ ∃ v, (takeStep s).rsp = some ⟨s.port, rspWord .ok v⟩)
      ∨ (readyOut s = false ∧ (takeStep s).rsp = some ⟨s.port, rspWord .empty 0x0000#16⟩) := by
  rcases takeStep_cases s with ⟨h, hh, he⟩ | ⟨-, hr, he⟩ | ⟨r, -, hr, -, he⟩ <;> rw [he]
  · exact .inl ⟨(readyOut_iff s).mpr ⟨h, hs.slots.heldReady h hh⟩, _, rfl⟩
  · refine .inr ⟨readyOut_eq_false_iff.mpr fun i => Bool.eq_false_iff.mpr fun hi => ?_, rfl⟩
    rw [← mem_readySet, hr] at hi
    contradiction
  · exact .inl ⟨(readyOut_iff s).mpr ⟨r, hr⟩, _, rfl⟩

theorem rspWord_ok_ne_empty (v : Half) : rspWord .ok v ≠ 0x10000000#32 := by
  intro h
  have hst := congrArg statusField h
  rw [statusField_rspWord] at hst
  exact absurd hst (by decide)

/-! ## The first command after reset (70_reset_and_hazards.md R217) -/

/-- With nothing held, a `READ` or a `RELEASE` on port C is answered `ERR_NOHELD`. -/
theorem exec_of_none_held {i : Instr} (hi : i = .release ∨ ∃ off, i = .read off) (hport : s.port = .c)
    (hn : s.arb.held = none) : exec i s = .next { s with rsp := some ⟨.c, 0x20000000#32⟩ } := by
  have he : exec i s = commandError s .errNoheld := by
    rcases hi with rfl | ⟨off, rfl⟩
    · exact exec_release_of_none hport hn
    · exact exec_read_of_none off hport hn
  rw [he, commandError_of_port hport]
  rfl

theorem step_of_rst {r : State} {rest : List Input} (hr : State.resetOf s.cfg = some r)
    (hi : s.input = .rst :: rest) : step s = .next { r with input := rest } := by
  obtain ⟨hc, -⟩ := resetOf_some s.cfg r hr
  simp [step, hc, stepInput, fetch, hi, afterReset, hr]

end

/-! ## The obligations -/

/-- Settles O50: a `TAKE` on port C is answered by `takeStep_rsp`. -/
theorem readyMeansTakeAnswersOk : Obligations.ReadyMeansTakeAnswersOk := by
  intro s hs
  have hc : Inv (onPortOf .c s) := inv_congr hs rfl rfl (fun _ => rfl) rfl
  have hready : readyOut (onPortOf .c s) = readyOut s := rfl
  refine ⟨readyOut_iff s, takeStep (onPortOf .c s), ?_⟩
  rcases takeStep_rsp hc with ⟨hr, v, hrsp⟩ | ⟨hr, hrsp⟩
  · refine ⟨_, exec_take_on_c rfl, hrsp, ?_, ?_⟩
    · rw [← hready, hr, statusField_rspWord]
      decide
    · rw [← hready, hr]
      exact ⟨fun h => by simp at h, fun h => absurd h (rspWord_ok_ne_empty v)⟩
  · refine ⟨_, exec_take_on_c rfl, hrsp, ?_, ?_⟩
    · rw [← hready, hr, statusField_rspWord]
      decide
    · rw [← hready, hr]
      exact ⟨fun _ => rfl, fun _ => rfl⟩

/-- Settles O51: two `Ready` slots stand under `SWAP` alone (R49 (b)), and the released slot is `Free`. -/
theorem pauseRequestMeansEverySlotReady : Obligations.PauseRequestMeansEverySlotReady := by
  intro s hs
  have hiff : pauseReqOut s = true ↔ s.cfg.pauseEn = true ∧ EverySlotReady s := by
    rw [pauseReqOut, Bool.and_eq_true, allReady_iff]
  refine ⟨hiff, fun h2 hp => Bool.eq_false_iff.mpr fun hpause => ?_, fun t hport hheld h => ?_⟩
  · obtain ⟨-, hall⟩ := hiff.mp hpause
    exact hs.slots.oneReady hp ⟨hall .zero rfl, hall .one ((hasSlot_one_iff _).mpr h2)⟩
  · obtain ⟨j, hj⟩ := Option.ne_none_iff_exists'.mp hheld
    rw [exec_release_of_held hport hj] at h
    obtain rfl := Host.Outcome.next.inj h
    have hpool := ((slotIs_iff s j _).mp (hs.slots.heldReady j hj)).1
    have hfree : slotIs (releaseSlot s j) j .ready = false := by simp [releaseSlot]
    rw [pauseReqOut, Bool.and_eq_false_iff, ← Bool.not_eq_true (allReady _), allReady_iff]
    exact .inr fun hall => by simp [hall j (by simpa [releaseSlot] using hpool)] at hfree

/-- Settles O12: `rst` gives the reset state, in which nothing is held. -/
theorem resetInputRestoresResetState : Obligations.ResetInputRestoresResetState := by
  intro s rest hc hi
  obtain ⟨r, hr⟩ := resetOf_isSome s.cfg hc
  obtain ⟨-, hcfg, -, -, -, harb, -⟩ := resetOf_some s.cfg r hr
  refine ⟨r, hr, step_of_rst hr hi, fun rest' i hcmd hrest => ?_⟩
  have hstep := step_of_cmd (s := { r with input := rest }) (by rw [hcfg]; exact hc) hrest
  rw [hstep, runWord_encode]
  exact exec_of_none_held hcmd rfl (by rw [accept_arb, harb]; rfl)

/-- Settles O59: at reset the payload memories list nothing. -/
theorem payloadIsFreeAfterReset : Obligations.PayloadIsFreeAfterReset := by
  intro c r hr i off
  have hmem : (slotAt r i).mem = [] := by
    cases i with
    | zero => rw [reset_slotAt_zero hr]; rfl
    | one => rw [reset_slotAt_one hr]; rfl
  simp [payloadByte, hmem]

end Sys2Proof.Proofs.Outputs

/-! The statements about runs of the producer (`deliver`): a well-formed frame is published (spec/30_encoding.md R80
to R82), an oversized payload is not (spec/41_decoder.md R126, R127). A run is put together from the transitions
of its bytes; between two bytes the state is `Accepting` what the attempt has so far. -/

namespace Sys2Proof.Proofs.Runs

open Sys2Proof.Machine Sys2Proof.Laws Sys2Proof.Proofs.Checksum Sys2Proof.Proofs.DecoderSteps
open Sys2Proof.Proofs.Configuration Sys2Proof.Proofs.Commands Sys2Proof.Proofs.Invariant
open Sys2Proof.Proofs.Attempt Sys2Proof.Proofs.Frames Sys2Proof.Proofs.Producer

/-! ## Deliveries -/

/-- The producer delivers the bytes from a state to another, each answered `OK`, with these values. -/
inductive Delivers : List Byte → State → List Half → State → Prop where
  | nil (s : State) : Delivers [] s [] s
  | cons {b : Byte} {rest : List Byte} {v : Half} {vals : List Half} {s t u : State} (hport : s.port = .p)
      (h : exec (.byte b) s = .next t) (hrsp : t.rsp = some ⟨.p, rspWord .ok v⟩)
      (hrest : Delivers rest t vals u) : Delivers (b :: rest) s (v :: vals) u

/-- A delivery that publishes, loses and reports nothing. -/
def Silent (bytes : List Byte) (s t : State) : Prop := Delivers bytes s (List.replicate bytes.length 0x0000#16) t

/-- In `WaitData`, not overflowed, with a slot: a payload byte that fits is stored. -/
def Collecting (d : Dec) : Prop := d.phase = .waitData ∧ d.ovf = false ∧ d.noslot = false

/-- A good state with a command of port P in progress, no frame waiting, and `acc` accepted so far. -/
structure Accepting (s : State) (acc : List Byte) : Prop where
  port : s.port = .p
  inv : Inv s
  notReady : readyOut s = false
  tracks : Tracks s acc

section
variable {s t u : State} {b : Byte} {xs ys acc payload : List Byte} {vs ws : List Half}

theorem Delivers.append (h : Delivers xs s vs t) (h' : Delivers ys t ws u) :
    Delivers (xs ++ ys) s (vs ++ ws) u := by
  induction h with
  | nil => exact h'
  | cons hport h hrsp _ ih => exact .cons hport h hrsp (ih h')

theorem Silent.append (h : Silent xs s t) (h' : Silent ys t u) : Silent (xs ++ ys) s u := by
  rw [Silent, List.length_append, List.replicate_add]
  exact Delivers.append h h'

theorem Delivers.single {v : Half} (hport : s.port = .p) (h : exec (.byte b) s = .next t)
    (hrsp : t.rsp = some ⟨.p, rspWord .ok v⟩) : Delivers [b] s [v] t := .cons hport h hrsp (.nil t)

theorem onPortOf_cfg (port : Port) (s : State) : (onPortOf port s).cfg = s.cfg := rfl

theorem onPortOf_of_port {port : Port} (h : s.port = port) : onPortOf port s = s := by
  subst h
  rfl

theorem valueField_rspWord_ok (v : Half) : valueField (rspWord .ok v) = v := by
  have hv := v.isLt
  apply BitVec.eq_of_toNat_eq
  simp only [valueField, BitVec.extractLsb'_toNat, Nat.shiftRight_zero, rspWord_toNat]
  simp only [statusCode, BitVec.toNat_ofNat]
  omega

theorem deliver_of_delivers (h : Delivers xs s vs t) : deliver xs s = some (vs, t) := by
  induction h with
  | nil => rfl
  | @cons b rest v vals s t u hport h hrsp _ ih =>
    have hok : statusField (rspWord .ok v) = 0x0#4 := statusField_rspWord .ok v
    simp only [deliver, onPortOf_of_port hport, h, hrsp, if_pos hok, ih, Option.map_some, valueField_rspWord_ok]

/-- Only the first byte of a run asks on which port the last command was. -/
theorem deliver_onPortOf (h : xs ≠ []) : deliver xs (onPortOf .p s) = deliver xs s := by
  cases xs with
  | nil => contradiction
  | cons b rest => rfl

/-! ## One byte -/

theorem isPayload_not_delimiter (s : State) (h : isPayload s.cfg b = true) :
    restarts (ensureFill s) b = false ∧ isBoundary (ensureFill s).cfg b = false :=
  not_delimiter_of_isPayload (by rwa [ensureFill_cfg])

/-- What a byte of port P leaves: a good state on port P, of the same configuration, tracking what the transition
table says. -/
theorem Accepting.next (h : Accepting s acc) (hexec : exec (.byte b) s = .next t) (hready : readyOut t = false) :
    Accepting t (acceptedAfter s b acc) ∧ t.cfg = s.cfg := by
  have he := effect_of_exec hexec
  obtain ⟨-, htracks, -⟩ := attemptTracksAcceptedBytes
  have hport : t.port = .p := by
    rcases execByte_next b s t hexec with ⟨-, rfl⟩ | ⟨hn, -⟩
    · simpa using h.port
    · exact absurd h.port hn
  exact ⟨⟨hport, inv_of_effect h.inv he, hready, htracks s t b acc h.inv h.port h.tracks hexec⟩, he.cfg⟩

theorem readyOut_ensureFill (s : State) : readyOut (ensureFill s) = readyOut s := by simp [readyOut]

/-- A byte whose transition touches no slot. -/
theorem Accepting.quiet {d : Dec} {c : Cnt} {o : ByteOutcome} (h : Accepting s acc)
    (hq : Quiet (ensureFill s) b d c o) :
    ∃ t, Delivers [b] s [reportValue (Report.only o)] t ∧ Accepting t (acceptedAfter s b acc)
      ∧ t.dec = d ∧ t.cnt = c ∧ t.cfg = s.cfg := by
  have hexec := exec_byte_of_quiet h.port hq
  obtain ⟨hacc, hcfg⟩ := h.next hexec ((readyOut_ensureFill s).trans h.notReady)
  exact ⟨_, .single h.port hexec rfl, hacc, rfl, rfl, hcfg⟩

/-- With no frame waiting, a `BYTE` step has a slot to fill, and loses nothing for it. -/
theorem Accepting.acquire (h : Accepting s acc) :
    ∃ f, fillIdx (ensureFill s) = some f
      ∧ acquireForFill (ensureFill s) = { st := ensureFill s, slot := some f, lostOld := false } := by
  have hnot : ¬ EverySlotReady s := fun hall => by
    have hzero := (readyOut_iff s).mpr ⟨.zero, hall .zero rfl⟩
    simp [h.notReady] at hzero
  obtain ⟨f, hf⟩ := Option.ne_none_iff_exists'.mp (fillIdx_ensureFill_ne_none hnot)
  exact ⟨f, hf, acquire_of_fillIdx hf⟩

/-- A payload byte that fits is stored. -/
theorem Accepting.store (h : Accepting s acc) (hd : Collecting s.dec) (hpay : isPayload s.cfg b = true)
    (hroom : acc.length < s.cfg.cap) :
    ∃ t, Silent [b] s t ∧ Accepting t (acc ++ [b]) ∧ Collecting t.dec ∧ t.cnt = s.cnt ∧ t.cfg = s.cfg := by
  obtain ⟨hp, ho, hn⟩ := hd
  obtain ⟨hr, hb⟩ := isPayload_not_delimiter s hpay
  obtain ⟨f, -, hacq⟩ := h.acquire
  have hl : s.dec.len.toNat < s.cfg.cap := h.tracks.len ▸ hroom
  have hexec := exec_byte_of_stored (f := f) h.port (by rwa [ensureFill_dec]) hr hb (by rwa [ensureFill_dec])
    (by rwa [ensureFill_dec, ensureFill_cfg]) (by rwa [ensureFill_dec]) (by rw [hacq])
  rw [hacq] at hexec
  rw [ensureFill_restarts] at hr
  rw [ensureFill_cfg] at hb
  obtain ⟨hacc, hcfg⟩ := h.next hexec <| by
    have hmem := memWrite_slotIs (ensureFill s) f (ensureFill s).dec.len.toNat b
    rw [← h.notReady, ← readyOut_ensureFill s, readyOut, readyOut, ← hmem .zero, ← hmem .one]
    rfl
  rw [acceptedAfter_of_appended hp hr hb ho hl] at hacc
  refine ⟨_, .single h.port hexec (by dsimp only; rfl), hacc, ?_, by simp, hcfg⟩
  rw [ensureFill_dec]
  exact ⟨hp, ho, hn⟩

/-- A byte that completes a frame publishes the accepted bytes. -/
theorem Accepting.complete (h : Accepting s acc) (hcomp : Completes s b) (hn : s.dec.noslot = false) :
    ∃ t f, Delivers [b] s [0x0005#16] t ∧ t.dec = idleDec s.cfg ∧ slotIs t f .ready = true
      ∧ (slotAt t f).length.toNat = acc.length ∧ ∀ k (hk : k < acc.length), payloadByte t f k = acc[k] := by
  obtain ⟨f, hf, hacq⟩ := h.acquire
  obtain ⟨hattempt, -⟩ := tracks_iff.mp h.tracks
  have hpool := ((slotIs_iff _ f _).mp (fillIdx_some _ f hf)).1
  have hother : otherReady (ensureFill s) f = none :=
    otherReady_of_readyOut ((readyOut_ensureFill s).trans h.notReady) f
  have hcomplete := complete_of_slot (u := ensureFill s) (f := f) (by rwa [ensureFill_dec]) (by rw [hacq])
  have hslot := slotAt_ensureFill_markReady hpool (ensureFill s).dec.len
  rw [hacq, publish_of_no_other _ hother] at hcomplete
  have hexec := exec_byte_of_completes h.inv.config h.port hcomp
  rw [hcomplete] at hexec
  refine ⟨_, f, .single h.port hexec (by simp [h.port]; rfl), by simp; rfl, ?_, ?_, fun k hk => ?_⟩
  · rw [respond_slotIs, goIdle_slotIs, ensureFill_ready]
    simpa using hpool
  · rw [respond_slotAt, goIdle_slotAt, hslot, ensureFill_dec]
    exact hattempt.len
  · have hread := hattempt.ensureFill.read_of_acquired (f := f) (by rwa [ensureFill_dec]) (by rw [hacq]) k hk
    rw [payloadByte, respond_slotAt, goIdle_slotAt, hslot]
    simp only [hread]

/-! ## Stretches of bytes -/

/-- A payload that fits is stored byte by byte. -/
theorem Accepting.storeAll (h : Accepting s acc) (hd : Collecting s.dec)
    (hpay : ∀ b ∈ payload, isPayload s.cfg b = true) (hroom : acc.length + payload.length ≤ s.cfg.cap) :
    ∃ t, Silent payload s t ∧ Accepting t (acc ++ payload) ∧ Collecting t.dec ∧ t.cnt = s.cnt
      ∧ t.cfg = s.cfg := by
  induction payload generalizing s acc with
  | nil => exact ⟨s, .nil s, by simpa using h, hd, rfl, rfl⟩
  | cons b rest ih =>
    obtain ⟨hb, hrest⟩ := List.forall_mem_cons.mp hpay
    rw [List.length_cons] at hroom
    obtain ⟨t, hsilent, ht, hdt, hcnt, hcfg⟩ := h.store hd hb (by omega)
    obtain ⟨u, hsilent', hu, hdu, hcnt', hcfg'⟩ := ih ht hdt (by rwa [hcfg])
      (by rw [hcfg, List.length_append, List.length_singleton]; omega)
    rw [List.append_assoc] at hu
    exact ⟨u, hsilent.append hsilent', hu, hdu, hcnt'.trans hcnt, hcfg'.trans hcfg⟩

/-- An overflowed attempt discards payload bytes and changes no register. -/
theorem Accepting.discardAll (h : Accepting s acc) (hp : s.dec.phase = .waitData) (ho : s.dec.ovf = true)
    (hpay : ∀ b ∈ payload, isPayload s.cfg b = true) :
    ∃ t, Silent payload s t ∧ (∃ acc', Accepting t acc') ∧ t.dec = s.dec ∧ t.cnt = s.cnt ∧ t.cfg = s.cfg := by
  induction payload generalizing s acc with
  | nil => exact ⟨s, .nil s, ⟨acc, h⟩, rfl, rfl, rfl⟩
  | cons b rest ih =>
    obtain ⟨hb, hrest⟩ := List.forall_mem_cons.mp hpay
    obtain ⟨hr, hbound⟩ := isPayload_not_delimiter s hb
    obtain ⟨t, hdel, ht, hdec, hcnt, hcfg⟩ :=
      h.quiet (.discarded (by rwa [ensureFill_dec]) hr hbound (by rwa [ensureFill_dec]))
    rw [ensureFill_dec] at hdec
    rw [ensureFill_cnt] at hcnt
    obtain ⟨u, hsilent, hu, hdec', hcnt', hcfg'⟩ := ih ht (hdec ▸ hp) (hdec ▸ ho) (by rwa [hcfg])
    exact ⟨u, Silent.append (xs := [b]) hdel hsilent, hu, hdec'.trans hdec, hcnt'.trans hcnt, hcfg'.trans hcfg⟩

/-- The byte that finds the attempt full (R126). -/
theorem Accepting.overflows (h : Accepting s acc) (hp : s.dec.phase = .waitData) (ho : s.dec.ovf = false)
    (hpay : isPayload s.cfg b = true) (hfull : acc.length = s.cfg.cap) :
    ∃ t, Delivers [b] s [0x0003#16] t ∧ (∃ acc', Accepting t acc') ∧ t.dec.phase = .waitData ∧ t.dec.ovf = true
      ∧ t.cnt = { s.cnt with ovf := satInc s.cnt.ovf } ∧ t.cfg = s.cfg := by
  obtain ⟨hr, hb⟩ := isPayload_not_delimiter s hpay
  have hl : ¬ s.dec.len.toNat < s.cfg.cap := by
    rw [h.tracks.len, hfull]
    exact lt_irrefl _
  obtain ⟨t, hdel, ht, hdec, hcnt, hcfg⟩ := h.quiet
    (.overflows (by rwa [ensureFill_dec]) hr hb (by rwa [ensureFill_dec]) (by rwa [ensureFill_dec, ensureFill_cfg]))
  rw [ensureFill_dec] at hdec
  rw [ensureFill_cnt] at hcnt
  exact ⟨t, hdel, ⟨_, ht⟩, by rw [hdec]; exact hp, by rw [hdec], hcnt, hcfg⟩

/-- The boundary byte of an overflowed attempt (R127). -/
theorem Accepting.endsOverflowed (h : Accepting s acc) (hp : s.dec.phase = .waitData) (ho : s.dec.ovf = true) :
    ∃ t, Delivers [boundaryByte s.cfg] s [0x0002#16] t ∧ (∃ acc', Accepting t acc') ∧ t.dec = idleDec s.cfg
      ∧ t.cnt = s.cnt := by
  have hb : isBoundary s.cfg (boundaryByte s.cfg) = true := by simp [isBoundary]
  have hr := not_restarts_of_isBoundary h.inv.config hb
  obtain ⟨t, hdel, ht, hdec, hcnt, -⟩ := h.quiet
    (.endsOverflowed (by rwa [ensureFill_dec]) (by rwa [ensureFill_restarts]) (by rwa [ensureFill_cfg])
      (by rwa [ensureFill_dec]))
  rw [ensureFill_cfg] at hdec
  rw [ensureFill_cnt] at hcnt
  exact ⟨t, hdel, ⟨_, ht⟩, hdec, hcnt⟩

/-- The bytes of a frame before its payload. -/
def opening (c : Config) : List Byte := if c.useStart then [c.startByte] else []

/-- The bytes of a frame after its payload, but the last. -/
def closing (c : Config) (payload : List Byte) : List Byte :=
  match c.framing with
  | .delim => []
  | .cksum => [c.introByte, hexEnc ((cksum c payload).extractLsb' 4 4)]

/-- The last byte of a frame. -/
def lastByte (c : Config) (payload : List Byte) : Byte :=
  match c.framing with
  | .delim => c.endByte
  | .cksum => hexEnc ((cksum c payload).extractLsb' 0 4)

theorem wireFrame_eq {c : Config} (hc : cfgOk c = true) (payload : List Byte) :
    wireFrame c payload = (opening c ++ payload ++ closing c payload) ++ [lastByte c payload] := by
  cases hf : c.framing with
  | delim => simp [wireFrame, hf, opening, closing, lastByte]
  | cksum =>
    simp [wireFrame, hf, opening, closing, lastByte, useStart_of_cfgOk hc hf, trailer]

/-- A list longer than `n` is its first `n` elements, one more, and the rest. -/
theorem exists_split_at {n : Nat} (h : n < xs.length) : ∃ ys x zs, xs = ys ++ x :: zs ∧ ys.length = n :=
  ⟨xs.take n, xs[n], xs.drop (n + 1), by rw [← List.drop_eq_getElem_cons h, List.take_append_drop],
    by simpa using h.le⟩

theorem accepting_nil (hport : s.port = .p) (hs : Inv s) (hready : readyOut s = false)
    (hlen : s.dec.len = 0x0000#16) (hck : s.dec.ck = s.cfg.ckInit) : Accepting s [] :=
  ⟨hport, hs, hready, tracks_iff.mpr ⟨.nil hlen, hck⟩⟩

/-- The opening begins an attempt from the idle phase. -/
theorem Accepting.opens (h : Accepting s []) (hd : s.dec = idleDec s.cfg) :
    ∃ t, Silent (opening s.cfg) s t ∧ Accepting t [] ∧ Collecting t.dec ∧ t.cfg = s.cfg := by
  cases hu : s.cfg.useStart with
  | false => exact ⟨s, by simpa [opening, hu] using .nil s, h, by simp [hd, idleDec, hu, Collecting], rfl⟩
  | true =>
    have hp : s.dec.phase = .waitStart := by simp [hd, idleDec, hu]
    obtain ⟨t, hdel, ht, hdec, -, hcfg⟩ :=
      h.quiet (b := s.cfg.startByte) (.begins (by rwa [ensureFill_dec]) (by rw [ensureFill_cfg]))
    refine ⟨t, by rw [opening, if_pos hu]; exact hdel, ?_, by simp [hdec, clearedDec, Collecting], hcfg⟩
    simpa [acceptedAfter, hp] using ht

/-- Under checksum framing the introducer opens the trailer and leaves what is accepted. -/
theorem Accepting.introducer (h : Accepting s acc) (hd : Collecting s.dec) (hf : s.cfg.framing = .cksum) :
    ∃ t, Silent [s.cfg.introByte] s t ∧ Accepting t acc ∧ t.dec.phase = .waitChecksumHi
      ∧ t.dec.noslot = false ∧ t.cfg = s.cfg := by
  obtain ⟨hp, ho, hn⟩ := hd
  have hb : isBoundary s.cfg s.cfg.introByte = true := (isBoundary_iff _ _).mpr (.inr ⟨hf, rfl⟩)
  have hr := not_restarts_of_isBoundary h.inv.config hb
  have hacc : acceptedAfter s s.cfg.introByte acc = acc := by simp [acceptedAfter, hp, hr, hb, ho, hf]
  obtain ⟨t, hdel, ht, hdec, -, hcfg⟩ :=
    h.quiet (.introduces (by rwa [ensureFill_dec]) (by rwa [ensureFill_restarts]) (by rwa [ensureFill_cfg])
      (by rwa [ensureFill_dec]) (by rwa [ensureFill_cfg]))
  rw [hacc] at ht
  exact ⟨t, hdel, ht, by rw [hdec], by rw [hdec, ensureFill_dec]; exact hn, hcfg⟩

/-- The first trailer digit is kept as the high nibble. -/
theorem Accepting.firstDigit (h : Accepting s acc) (hp : s.dec.phase = .waitChecksumHi) (n : Nibble) :
    ∃ t, Silent [hexEnc n] s t ∧ Accepting t acc ∧ t.dec.phase = .waitChecksumLo ∧ t.dec.rx = rxHigh n
      ∧ t.dec.noslot = s.dec.noslot ∧ t.cfg = s.cfg := by
  have hx : hexVal s.cfg.hexLower (hexEnc n) = some n := hexVal_hexEnc _ _
  have hacc : acceptedAfter s (hexEnc n) acc = acc := by simp [acceptedAfter, hp, isHex, hx]
  obtain ⟨t, hdel, ht, hdec, -, hcfg⟩ := h.quiet (.firstDigit n (by rwa [ensureFill_dec]) (by rwa [ensureFill_cfg]))
  rw [hacc] at ht
  exact ⟨t, hdel, ht, by rw [hdec], by rw [hdec], by rw [hdec, ensureFill_dec], hcfg⟩

/-- The closing brings the decoder to where the last byte completes the frame. -/
theorem Accepting.closes (h : Accepting s payload) (hd : Collecting s.dec) :
    ∃ t, Silent (closing s.cfg payload) s t ∧ Accepting t payload ∧ Completes t (lastByte s.cfg payload)
      ∧ t.dec.noslot = false ∧ t.cfg = s.cfg := by
  cases hf : s.cfg.framing with
  | delim =>
    obtain ⟨hp, ho, hn⟩ := hd
    refine ⟨s, ?_, h, .inl ⟨hp, hf, by rw [lastByte, hf], ho⟩, hn, rfl⟩
    rw [closing, hf]
    exact .nil s
  | cksum =>
    obtain ⟨t, hintro, ht, hpt, hnt, hcfg⟩ := h.introducer hd hf
    obtain ⟨u, hdigit, hu, hpu, hrx, hnu, hcfg'⟩ := ht.firstDigit hpt ((cksum s.cfg payload).extractLsb' 4 4)
    have hlow : hexVal u.cfg.hexLower (lastByte s.cfg payload) = some ((cksum s.cfg payload).extractLsb' 0 4) := by
      rw [lastByte, hf]
      exact hexVal_hexEnc _ _
    have hmatch : rxLow u.dec.rx ((cksum s.cfg payload).extractLsb' 0 4) = u.dec.ck := by
      rw [hu.tracks.ck, hcfg', hcfg, hrx, rxLow_rxHigh_nibbles]
    refine ⟨u, ?_, hu, .inr ⟨hpu, _, hlow, hmatch⟩, hnu.trans hnt, hcfg'.trans hcfg⟩
    rw [closing, hf]
    exact hintro.append hdigit

end

/-! ## The obligations -/

/-- Settles O56: the opening, the payload and the closing are silent, and the last byte completes the frame. -/
theorem wellFormedFrameIsPublished : Obligations.WellFormedFrameIsPublished := by
  intro s payload hs hd hready hok
  simp only [payloadOk, Bool.and_eq_true, List.all_eq_true, decide_eq_true_eq] at hok
  obtain ⟨hpay, hlen⟩ := hok
  have hport : Inv (onPortOf .p s) := inv_congr hs rfl rfl (fun _ => rfl) rfl
  have h : Accepting (onPortOf .p s) [] :=
    accepting_nil rfl hport hready (congrArg Dec.len hd) (congrArg Dec.ck hd)
  obtain ⟨t, hopen, ht, hdt, hcfgt⟩ := h.opens hd
  obtain ⟨u, hstore, hu, hdu, -, hcfgu⟩ := ht.storeAll hdt (by rw [hcfgt]; exact hpay)
    (by rw [hcfgt, List.length_nil, Nat.zero_add]; exact hlen)
  obtain ⟨v, hclose, hv, hcomp, hn, hcfgv⟩ := hu.closes hdu
  rw [hcfgu, hcfgt] at hclose hcomp
  obtain ⟨w, f, hlast, hdec, hrest⟩ := hv.complete hcomp hn
  rw [hcfgv, hcfgu, hcfgt] at hdec
  refine ⟨w, f, ?_, hdec, hrest⟩
  rw [wireFrame_eq hs.config, ← deliver_onPortOf (by simp), List.length_append, List.length_singleton,
    Nat.add_sub_cancel]
  exact deliver_of_delivers (Delivers.append ((hopen.append hstore).append hclose) hlast)

/-- Settles O57: `CAP` bytes are stored, the next overflows, the rest are discarded, and the boundary byte ends
the attempt. -/
theorem oversizedPayloadIsNeverPublished : Obligations.OversizedPayloadIsNeverPublished := by
  intro s payload hs hd hready hall hlong
  rw [List.all_eq_true] at hall
  obtain ⟨stored, x, rest, rfl, hstored⟩ := exists_split_at hlong
  obtain ⟨hpay, htail⟩ := List.forall_mem_append.mp hall
  obtain ⟨hx, hrest⟩ := List.forall_mem_cons.mp htail
  have hport : Inv (onPortOf .p s) := inv_congr hs rfl rfl (fun _ => rfl) rfl
  have h : Accepting (onPortOf .p s) [] :=
    accepting_nil rfl hport hready (congrArg Dec.len hd) (congrArg Dec.ck hd)
  have hcollect : Collecting (onPortOf .p s).dec := by
    rw [show (onPortOf .p s).dec = freshDec s.cfg from hd]
    exact ⟨rfl, rfl, rfl⟩
  obtain ⟨t, hstore, ht, ⟨hpt, hot, -⟩, hcntt, hcfgt⟩ := h.storeAll hcollect hpay
    (by rw [List.length_nil, Nat.zero_add, hstored]; exact le_rfl)
  obtain ⟨u, hover, ⟨acc, hu⟩, hpu, hou, hcntu, hcfgu⟩ := ht.overflows (b := x) hpt hot
    (by rw [hcfgt]; exact hx) (by rw [hcfgt]; exact hstored)
  rw [hcfgt] at hcfgu
  obtain ⟨v, hdiscard, ⟨acc', hv⟩, hdecv, hcntv, hcfgv⟩ := hu.discardAll hpu hou (by rw [hcfgu]; exact hrest)
  obtain ⟨w, hend, ⟨acc'', hw⟩, hdecw, hcntw⟩ := hv.endsOverflowed (hdecv ▸ hpu) (hdecv ▸ hou)
  rw [hcfgv, hcfgu, onPortOf_cfg] at hend hdecw
  refine ⟨w, ?_, hdecw, hw.notReady, by rw [hcntw, hcntv, hcntu, hcntt]; rfl⟩
  have hcount : (stored ++ x :: rest).length - s.cfg.cap - 1 = rest.length := by
    rw [List.length_append, List.length_cons, hstored]
    omega
  have hrun := ((Delivers.append hstore hover).append hdiscard).append hend
  rw [hcount, ← deliver_onPortOf (by simp), ← hstored]
  simpa using deliver_of_delivers hrun

end Sys2Proof.Proofs.Runs
